-- ==== Sys2Proof/Word.lean ====
section
/-! DEFINITION. The machine's plain words and widths (spec/00_scope.md rule R1, spec/30_encoding.md rules R82, R88). -/

namespace Sys2Proof

/-- One byte of memory (R63). -/
abbrev Byte := BitVec 8

/-- A raw integer or raw address, `XLEN = 64` bits (R1). -/
abbrev Word := BitVec 64

/-- An instruction word: fixed 32 bits (R82). -/
abbrev InstrWord := BitVec 32

/-- A general-purpose register's index (R23). -/
abbrev RegIdx := Fin 32

/-- The 12-bit immediate as it stands in the word; nothing says whether it is signed (R88). -/
abbrev Imm := BitVec 12

/-- The value of a `perms` field: a 3-bit mask (R12). -/
abbrev Perms := BitVec 3

/-- The range of a capability's `end`: `0..2^XLEN` inclusive (R11; spec/90_conflicts.md C5). -/
abbrev EndAddr := Fin 18446744073709551617

/-- `2^XLEN`, the number of byte addresses (R63). -/
abbrev addrSpace : Nat := 18446744073709551616

/-- `CLENBYTES`: how many bytes a capability takes in memory (R1, R64). -/
abbrev clenBytes : Nat := 16

end Sys2Proof
end

