-- ==== Sys2Proof/Config.lean ====
section
/-! DEFINITION. What an implementation fixes (the spec's OPEN parameters VARIANT, SBASE, SEND, ENC and for which mnemonics SEM is
supplied, spec/00_scope.md section 4) as plain data, and the free values of the parameter SEM. -/

namespace Sys2Proof

/-- The two variants (R3). `SBASE` and `SEND` exist in the hybrid variant only (R5); `SBASE` is a `base` value, hence below
`2^XLEN` (DEDUCED, notes/assumptions/2.md). -/
inductive Variant where
  | pure
  | hybrid (sbase : Word) (send : EndAddr)
deriving DecidableEq, Repr

/-- The names the parameters `ENC` and `SEM` are keyed by: the twelve mnemonics of R89 and the two abstract CCSR operations. There is
no name for a combined CCSR instruction: whether the hardware has one is not in the source (R110) and not decided (D23), and that
no word decodes to one is the model's choice (DESIGN CHOICE, notes/assumptions/40.md; `State.combinedCcsr` is what it would do). -/
inductive Mnemonic where
  | ldd | ldw | ldh | ldb
  | std | stw | sth | stb
  | ldc | stc
  | ldcr | stcr
  | ccsrRead | ccsrWrite
deriving DecidableEq, Repr

/-- The twelve high bits `w[31:20]` of an encoding row: R-type (`funct7`, and `rs2` where the row fixes it) or I-type (the
immediate where the row fixes it) (R86, R87, R89). -/
inductive HiPattern where
  | r (funct7 : BitVec 7) (rs2 : Option RegIdx)
  | i (imm : Option Imm)
deriving DecidableEq, Repr

/-- Where a CCSR instruction's word carries the CCSR's number: "which operand goes in which register field" is `ENC`'s (R89), and
that the number travels in the immediate is "likely and not stated" (R110). `last` is the immediate of an I-type word and the field
`rs2` of an R-type word (notes/assumptions/4.md). -/
inductive NumberAt where
  | last | rs1 | rd
deriving DecidableEq, Repr

/-- One row of `ENC`: a format and a pattern over the non-operand fields, "possibly fixed operand fields" (R89). -/
structure EncRow where
  mnem     : Mnemonic
  hi       : HiPattern
  funct3   : BitVec 3
  rs1      : Option RegIdx
  rd       : Option RegIdx
  /-- read in the rows of `CCSR.READ` and `CCSR.WRITE` only -/
  numberAt : NumberAt := .last
deriving DecidableEq, Repr

/-- The parameter `ENC` (R89). -/
abbrev Enc := List EncRow

/-- The machine's configuration: fixed for its life (R3, R89, R94). -/
structure Config where
  variant     : Variant
  enc         : Enc
  /-- the mnemonics for which `SEM` is supplied (R94) -/
  semSupplied : List Mnemonic
deriving DecidableEq, Repr

/-- A register operand position of an instruction word (R86, R87). -/
inductive Slot where
  | rd | rs1 | rs2
deriving DecidableEq, Repr, Inhabited

/-- What a register, or a CCSR, holds after a capability was moved out of it: not in the source (R104, R112, R113), so free
among these (notes/assumptions/9.md). -/
inductive Residue where
  | kept
  | int (v : Word)
  | null
deriving DecidableEq, Repr, Inhabited

/-- What a memory granule holds after a capability was loaded from it: not in the source (R104), so free among these. -/
inductive MemResidue where
  | kept
  | raw (bytes : BitVec 128)
  | null
deriving DecidableEq, Repr, Inhabited

/-- What the lost instruction sections would settle about ONE execution of an instruction (R95 "Not in the source", R104, R107,
R112, R113). Nothing constrains an answer; the meanings enforce the constraints the spec does state. -/
structure SemAnswer where
  /-- the lost checks of the access (type, permission, bounds, alignment, MMU) pass -/
  completes   : Bool
  /-- the operand that holds the authorising capability (for LDCR, STCR: the integer address) -/
  auth        : Slot
  /-- the operand whose register is stored -/
  data        : Slot
  /-- the (physical) address of the access -/
  addr        : Word
  /-- a narrow load sign-extends -/
  signed      : Bool
  /-- the authorising capability's `cursor` after the access, where the access changes it -/
  cursorAfter : Option Word
  /-- what the granule holds after its capability was loaded -/
  memLeft     : MemResidue
  /-- what the register or CCSR holds after its capability was moved out -/
  regLeft     : Residue
  /-- `x0` as the source of a CCSR write is read as a capability rather than as an integer (R26) -/
  x0AsCap     : Bool
deriving DecidableEq, Repr, Inhabited

/-- The FREE VALUE of the parameter `SEM` (R94, D22): the answer drawn at each tick. It has no body, so nothing is known of it
(DESIGN CHOICE, notes/assumptions/6.md). -/
opaque Config.semAnswer : Nat → SemAnswer

end Sys2Proof
end

