-- ==== Sys2Proof/Syntax.lean ====
section
/-! DEFINITION. The instructions: one constructor per row of spec/opcode_table.json. -/

namespace Sys2Proof

/-- The operands a decoded word delivers: R-type "up to three register operands", I-type "up to two register operands and a
12-bit-wide immediate" (R85, R90). Which format an instruction has is `ENC`'s (R89), so the load and store families admit both. -/
inductive OperandForm where
  | r (rd rs1 rs2 : RegIdx)
  | i (rd rs1 : RegIdx) (imm : Imm)
deriving DecidableEq, Repr

/-- The instructions the spec names (R89), `CCSR.READ` and `CCSR.WRITE` each also in the case of `cinit` (R114, R115). -/
inductive Instr where
  | ldd (ops : OperandForm)
  | ldw (ops : OperandForm)
  | ldh (ops : OperandForm)
  | ldb (ops : OperandForm)
  | std (ops : OperandForm)
  | stw (ops : OperandForm)
  | sth (ops : OperandForm)
  | stb (ops : OperandForm)
  | ldc (ops : OperandForm)
  | stc (ops : OperandForm)
  | ldcr (ops : OperandForm)
  | stcr (ops : OperandForm)
  | ccsrRead (rd : RegIdx) (number : Imm)
  | ccsrReadCinit (rd : RegIdx)
  | ccsrWrite (number : Imm) (rs1 : RegIdx)
  | ccsrWriteCinit (rs1 : RegIdx)
deriving DecidableEq, Repr

/-- The name `ENC` and `SEM` know an instruction by. -/
def Instr.mnemonic : Instr → Mnemonic
  | .ldd _ => .ldd
  | .ldw _ => .ldw
  | .ldh _ => .ldh
  | .ldb _ => .ldb
  | .std _ => .std
  | .stw _ => .stw
  | .sth _ => .sth
  | .stb _ => .stb
  | .ldc _ => .ldc
  | .stc _ => .stc
  | .ldcr _ => .ldcr
  | .stcr _ => .stcr
  | .ccsrRead _ _ => .ccsrRead
  | .ccsrReadCinit _ => .ccsrRead
  | .ccsrWrite _ _ => .ccsrWrite
  | .ccsrWriteCinit _ => .ccsrWrite

end Sys2Proof
end

