-- ==== Sys2Proof/WellFormed.lean ====
section
/-! DEFINITION. Which instructions, encodings and configurations are well formed (spec/30_encoding.md rule R89, spec/00_scope.md
rule R5). -/

namespace Sys2Proof

/-- The CCSR number of `cinit` (R34, R35). -/
abbrev cinitNumber : Imm := 0x010#12

/-- A fixed field, where there is one, has this value. -/
def fixedAgrees {α : Type} [DecidableEq α] (fixed : Option α) (v : α) : Bool :=
  match fixed with
  | none => true
  | some x => decide (x = v)

/-- Two fixed fields have different values, so no word has both. -/
def fixedConflict {α : Type} [DecidableEq α] (a b : Option α) : Bool :=
  match a, b with
  | some x, some y => decide (x ≠ y)
  | _, _ => false

/-- The row's format and fixed operand fields admit these operands (R89). -/
def EncRow.accepts (row : EncRow) (ops : OperandForm) : Bool :=
  match row.hi, ops with
  | .r _ frs2, .r rd rs1 rs2 => fixedAgrees row.rd rd && fixedAgrees row.rs1 rs1 && fixedAgrees frs2 rs2
  | .i fimm, .i rd rs1 imm => fixedAgrees row.rd rd && fixedAgrees row.rs1 rs1 && fixedAgrees fimm imm
  | _, _ => false

/-- A CCSR number in a five-bit register field; every number the tables list fits (R34, R35). -/
def numberField (n : Imm) : RegIdx := (n.extractLsb' 0 5).toFin

/-- The CCSR number a register field carries, "unsigned" as T0 has its number (spec/95_test_vectors.md section 4). -/
def fieldNumber (i : RegIdx) : Imm := BitVec.ofNat 12 i.val

/-- The operand form in a row's format; `last` is the immediate, or the field `rs2` with its low five bits (R86, R87). -/
def EncRow.form (row : EncRow) (rd rs1 : RegIdx) (last : Imm) : OperandForm :=
  match row.hi with
  | .r _ _ => .r rd rs1 (numberField last)
  | .i _ => .i rd rs1 last

/-- The value of the last field where it is no operand: the row's fixed value, else 0. -/
def EncRow.lastFixed (row : EncRow) : Imm :=
  match row.hi with
  | .r _ frs2 => fieldNumber (frs2.getD 0)
  | .i fimm => fimm.getD 0

/-- The operand form of a CCSR operation under a row: the register operand in the field of its name, the number where the row
carries it; a field that is no operand takes the row's fixed value (R89, R110, and T0 of spec/95_test_vectors.md section 4). -/
def EncRow.ccsrForm (row : EncRow) (rd rs1 : RegIdx) (n : Imm) : OperandForm :=
  match row.numberAt with
  | .last => row.form rd rs1 n
  | .rs1 => row.form rd (numberField n) row.lastFixed
  | .rd => row.form (numberField n) rs1 row.lastFixed

/-- The operand form an instruction has under a row. -/
def Instr.formIn (row : EncRow) : Instr → OperandForm
  | .ldd ops => ops
  | .ldw ops => ops
  | .ldh ops => ops
  | .ldb ops => ops
  | .std ops => ops
  | .stw ops => ops
  | .sth ops => ops
  | .stb ops => ops
  | .ldc ops => ops
  | .stc ops => ops
  | .ldcr ops => ops
  | .stcr ops => ops
  | .ccsrRead rd n => row.ccsrForm rd (row.rs1.getD 0) n
  | .ccsrReadCinit rd => row.ccsrForm rd (row.rs1.getD 0) cinitNumber
  | .ccsrWrite n rs1 => row.ccsrForm (row.rd.getD 0) rs1 n
  | .ccsrWriteCinit rs1 => row.ccsrForm (row.rd.getD 0) rs1 cinitNumber

/-- `CCSR.READ` and `CCSR.WRITE` proper are "for `r` other than `cinit`" (R112, R113). -/
def Instr.numberOk : Instr → Bool
  | .ccsrRead _ n => decide (n ≠ cinitNumber)
  | .ccsrWrite n _ => decide (n ≠ cinitNumber)
  | .ldd _ | .ldw _ | .ldh _ | .ldb _ | .std _ | .stw _ | .sth _ | .stb _ | .ldc _ | .stc _ | .ldcr _ | .stcr _
  | .ccsrReadCinit _ | .ccsrWriteCinit _ => true

/-- How wide the field is that carries a CCSR number: the immediate's twelve bits, or a register field's five. -/
def EncRow.numberFits (row : EncRow) (n : Imm) : Bool :=
  match row.numberAt, row.hi with
  | .last, .i _ => true
  | _, _ => decide (n.toNat < 32)

/-- A CCSR number has room in the field the row carries it in; no number the tables list is refused by this. -/
def Instr.numberFits (row : EncRow) : Instr → Bool
  | .ccsrRead _ n => row.numberFits n
  | .ccsrWrite n _ => row.numberFits n
  | .ldd _ | .ldw _ | .ldh _ | .ldb _ | .std _ | .stw _ | .sth _ | .stb _ | .ldc _ | .stc _ | .ldcr _ | .stcr _
  | .ccsrReadCinit _ | .ccsrWriteCinit _ => true

/-- The row `ENC` has for a mnemonic. -/
def Enc.rowOf (enc : Enc) (m : Mnemonic) : Option EncRow :=
  enc.find? (fun row => decide (row.mnem = m))

/-- An instruction is well formed under `ENC` when `ENC` has a row for it that admits its operands, a CCSR number has room in its
field, and one that has a constructor of its own stands in that constructor. -/
def Instr.wf (enc : Enc) (i : Instr) : Bool :=
  match enc.rowOf i.mnemonic with
  | none => false
  | some row => row.accepts (i.formIn row) && i.numberOk && i.numberFits row

/-- No value of `w[31:20]` matches both patterns. -/
def HiPattern.disjoint : HiPattern → HiPattern → Bool
  | .r f a, .r g b => decide (f ≠ g) || fixedConflict a b
  | .i a, .i b => fixedConflict a b
  | .r f a, .i (some m) => decide (m.extractLsb' 5 7 ≠ f) || fixedConflict a (some (m.extractLsb' 0 5).toFin)
  | .i (some m), .r f a => decide (m.extractLsb' 5 7 ≠ f) || fixedConflict a (some (m.extractLsb' 0 5).toFin)
  | .r _ _, .i none => false
  | .i none, .r _ _ => false

/-- No word matches both rows. -/
def EncRow.disjoint (a b : EncRow) : Bool :=
  decide (a.funct3 ≠ b.funct3) || fixedConflict a.rs1 b.rs1 || fixedConflict a.rd b.rd || a.hi.disjoint b.hi

/-- A CCSR row, of either format (R110), carries the number in another field than the register operand of its name. -/
def EncRow.shapeOk (row : EncRow) : Bool :=
  match row.mnem, row.numberAt with
  | .ccsrRead, .rd => false
  | .ccsrWrite, .rs1 => false
  | _, _ => true

/-- "`ENC` must be unambiguous: no word matches two instructions" (R89). -/
def Enc.wf (enc : Enc) : Bool :=
  decide (enc.Pairwise fun a b => a.disjoint b = true) && enc.all EncRow.shapeOk

/-- `0 <= SBASE <= SEND <= 2^XLEN`, both multiples of `CLENBYTES` (R5; premise `LaunchConfig` of R138). -/
def Variant.wf : Variant → Bool
  | .pure => true
  | .hybrid sbase send => decide (sbase.toNat ≤ send.val ∧ sbase.toNat % clenBytes = 0 ∧ send.val % clenBytes = 0)

end Sys2Proof
end

