-- ==== Sys2Proof/Decode.lean ====
section
/-! DEFINITION. Decoding and encoding (spec/30_encoding.md rules R82 to R92), the test encoding T0 of spec/95_test_vectors.md
section 4 and the model's own encoding and configuration. -/

namespace Sys2Proof

/-- `custom-2`, the opcode of every instruction of the extension (R84). -/
abbrev custom2 : BitVec 7 := 0b1011011#7

/-! Fields of a word: the layouts of R86 and R87 (PRESUMED, the spec marks them as the RISC-V family's; notes/assumptions/5.md). -/

def opcodeOf (w : InstrWord) : BitVec 7 := w.extractLsb' 0 7
def rdOf (w : InstrWord) : RegIdx := (w.extractLsb' 7 5).toFin
def funct3Of (w : InstrWord) : BitVec 3 := w.extractLsb' 12 3
def rs1Of (w : InstrWord) : RegIdx := (w.extractLsb' 15 5).toFin
def rs2Of (w : InstrWord) : RegIdx := (w.extractLsb' 20 5).toFin
def funct7Of (w : InstrWord) : BitVec 7 := w.extractLsb' 25 7
def immOf (w : InstrWord) : Imm := w.extractLsb' 20 12

/-- The word with these fields: `w[31:20] ++ rs1 ++ funct3 ++ rd ++ opcode` (R86, R87). -/
def mkWord (hi : BitVec 12) (rs1 : RegIdx) (funct3 : BitVec 3) (rd : RegIdx) : InstrWord :=
  hi ++ (BitVec.ofFin rs1 : BitVec 5) ++ funct3 ++ (BitVec.ofFin rd : BitVec 5) ++ custom2

/-- The high bits of a word match a row's. -/
def HiPattern.accepts (p : HiPattern) (w : InstrWord) : Bool :=
  match p with
  | .r f7 frs2 => decide (funct7Of w = f7) && fixedAgrees frs2 (rs2Of w)
  | .i fimm => fixedAgrees fimm (immOf w)

/-- `w matches ENC[m]` (R90). -/
def EncRow.matchesWord (row : EncRow) (w : InstrWord) : Bool :=
  decide (funct3Of w = row.funct3) && fixedAgrees row.rs1 (rs1Of w) && fixedAgrees row.rd (rdOf w) && row.hi.accepts w

/-- The operands in the row's format (R90). -/
def EncRow.operands (row : EncRow) (w : InstrWord) : OperandForm :=
  match row.hi with
  | .r _ _ => .r (rdOf w) (rs1Of w) (rs2Of w)
  | .i _ => .i (rdOf w) (rs1Of w) (immOf w)

/-- The `rd` field of an operand form. -/
def OperandForm.rdField : OperandForm → RegIdx
  | .r rd _ _ => rd
  | .i rd _ _ => rd

/-- The `rs1` field of an operand form. -/
def OperandForm.rs1Field : OperandForm → RegIdx
  | .r _ rs1 _ => rs1
  | .i _ rs1 _ => rs1

/-- The CCSR number an operand form carries at a place (R89, R110; notes/assumptions/4.md). -/
def OperandForm.numberIn (ops : OperandForm) : NumberAt → Imm
  | .rd => fieldNumber ops.rdField
  | .rs1 => fieldNumber ops.rs1Field
  | .last =>
    match ops with
    | .r _ _ rs2 => fieldNumber rs2
    | .i _ _ imm => imm

/-- `CCSR.READ` of a number; `cinit`'s selects its own case (R112, R114). -/
def ccsrReadOf (rd : RegIdx) (n : Imm) : Instr := if n = cinitNumber then .ccsrReadCinit rd else .ccsrRead rd n

/-- `CCSR.WRITE` of a number; `cinit`'s selects its own case (R113, R115). -/
def ccsrWriteOf (n : Imm) (rs1 : RegIdx) : Instr := if n = cinitNumber then .ccsrWriteCinit rs1 else .ccsrWrite n rs1

/-- The instruction of a mnemonic and its operands (R90); total, since a word that matches a row of either format is that row's
instruction. The last argument says where a CCSR number stands. -/
def instrOf : Mnemonic → OperandForm → NumberAt → Instr
  | .ldd, ops, _ => .ldd ops
  | .ldw, ops, _ => .ldw ops
  | .ldh, ops, _ => .ldh ops
  | .ldb, ops, _ => .ldb ops
  | .std, ops, _ => .std ops
  | .stw, ops, _ => .stw ops
  | .sth, ops, _ => .sth ops
  | .stb, ops, _ => .stb ops
  | .ldc, ops, _ => .ldc ops
  | .stc, ops, _ => .stc ops
  | .ldcr, ops, _ => .ldcr ops
  | .stcr, ops, _ => .stcr ops
  | .ccsrRead, ops, num => ccsrReadOf ops.rdField (ops.numberIn num)
  | .ccsrWrite, ops, num => ccsrWriteOf (ops.numberIn num) ops.rs1Field

/-- Why a word is not an instruction of the model (R91, R92). -/
inductive DecodeRefusal where
  /-- the opcode is not the extension's (R91) -/
  | baseIsa (w : InstrWord)
  /-- the extension's opcode, but no row of `ENC` (R92) -/
  | unknownCustom2 (w : InstrWord)
  /-- fewer than four bytes: every instruction is one 32-bit word (R82) -/
  | truncated
deriving DecidableEq, Repr

/-- `Decode(w)` under `ENC` (R90). Under an `ENC` that is not unambiguous the first matching row is taken
(notes/assumptions/3.md). -/
def decode (enc : Enc) (w : InstrWord) : Except DecodeRefusal Instr :=
  if opcodeOf w = custom2 then
    match enc.find? (fun row => row.matchesWord w) with
    | none => .error (.unknownCustom2 w)
    | some row => .ok (instrOf row.mnem (row.operands w) row.numberAt)
  else .error (.baseIsa w)

/-- Bytes in memory order, lowest address first, as a little-endian number (R70, R79). -/
def natOfBytes : List Byte → Nat
  | [] => 0
  | b :: bs => b.toNat + 256 * natOfBytes bs

/-- The `n` bytes of a number, lowest address first (R70, R79). -/
def bytesOfNat : Nat → Nat → List Byte
  | 0, _ => []
  | n + 1, v => BitVec.ofNat 8 v :: bytesOfNat n (v / 256)

/-- Decode the instruction at the head of a list of bytes and give the bytes after it; total on any bytes (R70, R82, R90). -/
def decodeBytes (enc : Enc) : List Byte → Except DecodeRefusal (Instr × List Byte)
  | b0 :: b1 :: b2 :: b3 :: rest =>
    match decode enc (BitVec.ofNat 32 (natOfBytes [b0, b1, b2, b3])) with
    | .ok i => .ok (i, rest)
    | .error e => .error e
  | _ => .error .truncated

/-- The high bits of the word that encodes these operands under a row. -/
def HiPattern.encode (p : HiPattern) (ops : OperandForm) : BitVec 12 :=
  match p, ops with
  | .r f7 _, .r _ _ rs2 => f7 ++ (BitVec.ofFin rs2 : BitVec 5)
  | .i _, .i _ _ imm => imm
  | .r f7 _, .i _ _ _ => f7 ++ (0#5)
  | .i _, .r _ _ _ => 0#12

/-- The word of an instruction under a row. -/
def EncRow.encode (row : EncRow) (i : Instr) : InstrWord :=
  mkWord (row.hi.encode (i.formIn row)) (i.formIn row).rs1Field row.funct3 (i.formIn row).rdField

/-- The word of an instruction under `ENC`; every well-formed instruction has one. -/
def encode (enc : Enc) (i : Instr) : Option InstrWord :=
  (enc.rowOf i.mnemonic).map (fun row => row.encode i)

/-- T0's row for `CCSR.READ rd, r` (spec/95_test_vectors.md section 4). -/
def Enc.t0Read : EncRow := { mnem := .ccsrRead, hi := .i none, funct3 := 0b000#3, rs1 := some 0, rd := none }

/-- T0's row for `CCSR.WRITE r, rs1` (spec/95_test_vectors.md section 4). -/
def Enc.t0Write : EncRow := { mnem := .ccsrWrite, hi := .i none, funct3 := 0b001#3, rs1 := none, rd := some 0 }

/-- The spec's test configuration T0, "not the hardware's encoding" (D29). -/
def Enc.t0 : Enc := [Enc.t0Read, Enc.t0Write]

/-- An R-type row with `funct3 = 010`, and no fixed operand. -/
def Enc.rRow (m : Mnemonic) (funct7 : BitVec 7) : EncRow :=
  { mnem := m, hi := .r funct7 none, funct3 := 0b010#3, rs1 := none, rd := none }

/-- An I-type row with no fixed operand. -/
def Enc.iRow (m : Mnemonic) (funct3 : BitVec 3) : EncRow :=
  { mnem := m, hi := .i none, funct3 := funct3, rs1 := none, rd := none }

/-- T0 and twelve rows of the MODEL's own for the instructions T0 leaves out, so that every instruction has a word
(DESIGN CHOICE, unsafe as a claim about the hardware; notes/assumptions/3.md). Only the statement
`ConfiguredEncodingsAreUnambiguous` speaks of these rows. -/
def Enc.model : Enc :=
  Enc.t0 ++
  [Enc.iRow .ldd 0b011#3, Enc.iRow .ldw 0b100#3, Enc.iRow .ldh 0b101#3, Enc.iRow .ldb 0b110#3] ++
  [Enc.rRow .std 0#7, Enc.rRow .stw 1#7, Enc.rRow .sth 2#7, Enc.rRow .stb 3#7] ++
  [Enc.rRow .ldc 4#7, Enc.rRow .stc 5#7, Enc.rRow .ldcr 6#7, Enc.rRow .stcr 7#7]

/-- Every name `SEM` can be supplied for (R94). -/
def allMnemonics : List Mnemonic :=
  [.ldd, .ldw, .ldh, .ldb, .std, .stw, .sth, .stb, .ldc, .stc, .ldcr, .stcr, .ccsrRead, .ccsrWrite]

/-- The spec's own default: encoding T0 and no `SEM` supplied (D22, D29). -/
def Config.t0 (v : Variant) : Config := { variant := v, enc := Enc.t0, semSupplied := [] }

/-- The configuration of `State.reset`: pure, the encoding `Enc.model`, `SEM` supplied (by the free values) for every
instruction (DESIGN CHOICE, notes/assumptions/1.md, 3.md and 7.md). -/
def Config.model : Config := { variant := .pure, enc := Enc.model, semSupplied := allMnemonics }

/-- The instruction the decoder reads, under the model's encoding, from an instruction of `nbits` bits `w`: the four bytes of the
word as they lie in memory (R70). -/
def decodeTableWord (nbits w : Nat) : Option Instr :=
  match decodeBytes Enc.model (bytesOfNat 4 (w % 2 ^ nbits)) with
  | .ok (i, _) => some i
  | .error _ => none

end Sys2Proof
end

