-- ==== Sys2Proof/Machine/Capability.lean ====
section
/-! DEFINITION. Capability values and cells (spec/10_state.md section 1, rules R6 to R22, and the cells of R23, R28, R36), the
permission order, aliasing, creation order, and the capabilities the machine starts with (R26, R40). -/

namespace Sys2Proof.Machine

open Sys2Proof

/-- The seven values of the `type` field (R8); there is no eighth (D31). -/
inductive CapType where
  | linear | nonLinear | revocation | uninitialised | sealed | sealedReturn | exit
deriving DecidableEq, Repr

/-- The three values of the `async` field (R13); there is no fourth (D31). -/
inductive Async where
  | synchronous | uponException | uponInterrupt
deriving DecidableEq, Repr

/-- A capability: the eight architectural fields (R6), each at full range and present whatever the type (D3, D4), and the hidden
creation stamp of a revocation capability (R20, D5). `limit` is the spec's `end`. -/
structure Cap where
  valid  : Bool
  ctype  : CapType
  cursor : Word
  base   : Word
  limit  : EndAddr
  perms  : Perms
  async  : Async
  reg    : RegIdx
  stamp  : Nat
deriving DecidableEq, Repr

/-- A place that holds an integer or a capability and remembers which (R23, R24). -/
inductive Cell where
  | int (v : Word)
  | cap (c : Cap)
deriving DecidableEq, Repr

/-- The cell holds a capability, valid or not (R53, R56; spec/90_conflicts.md C7). -/
def Cell.isCap : Cell → Bool
  | .cap _ => true
  | .int _ => false

/-- The number of a type (R8). -/
def CapType.code : CapType → Nat
  | .linear => 0
  | .nonLinear => 1
  | .revocation => 2
  | .uninitialised => 3
  | .sealed => 4
  | .sealedReturn => 5
  | .exit => 6

/-- The number of an `async` value (R13). -/
def Async.code : Async → Nat
  | .synchronous => 0
  | .uponException => 1
  | .uponInterrupt => 2

/-- The architectural fields (R6). -/
inductive CapField where
  | valid | ctype | cursor | base | limit | perms | async | reg
deriving DecidableEq, Repr

/-- Which fields are applicable to which type (R7 to R15; the exit row by spec/90_conflicts.md C6). -/
def CapType.uses (t : CapType) : CapField → Bool
  | .valid => true
  | .ctype => true
  | .cursor => decide (t.code = 0 ∨ t.code = 1 ∨ t.code = 3)
  | .base => decide (t.code ≠ 6)
  | .limit => decide (t.code ≤ 3)
  | .perms => decide (t.code ≤ 3)
  | .async => decide (t.code = 4 ∨ t.code = 5)
  | .reg => decide (t.code = 5)

/-- The 27 pairs of the permission order, as the source lists them (R16). -/
def permPairs : List (Nat × Nat) :=
  [(0, 0), (0, 1), (0, 2), (0, 3), (0, 4), (0, 5), (0, 6), (0, 7)] ++
  [(1, 1), (1, 3), (1, 5), (1, 7)] ++
  [(2, 2), (2, 3), (2, 6), (2, 7)] ++
  [(3, 3), (3, 7)] ++
  [(4, 4), (4, 5), (4, 6), (4, 7)] ++
  [(5, 5), (5, 7)] ++ [(6, 6), (6, 7)] ++ [(7, 7)]

/-- `a <=p b` (R16). -/
def permLe (a b : Perms) : Bool := permPairs.contains (a.toNat, b.toNat)

/-- `1 <=p p` (R17). -/
def executable (p : Perms) : Bool := permLe 1#3 p

/-- `2 <=p p` (R17). -/
def writable (p : Perms) : Bool := permLe 2#3 p

/-- `4 <=p p` (R17). -/
def readable (p : Perms) : Bool := permLe 4#3 p

/-- Aliasing: the regions `[base, end)` intersect (R18). It has a meaning for types 0 to 3 only. -/
def Cap.aliases (c d : Cap) : Bool :=
  decide (max c.base.toNat d.base.toNat < min c.limit.val d.limit.val)

/-- `c <t d`, defined for two revocation capabilities only (R19): they alias and `c` was created earlier (R20). -/
def Cap.createdBefore (c d : Cap) : Option Bool :=
  if c.ctype = .revocation ∧ d.ctype = .revocation then some (c.aliases d && decide (c.stamp < d.stamp)) else none

/-- The value of `c0`, the `cnull` of R26. The fields not applicable to a linear capability are the model's zeros
(notes/assumptions/30.md). -/
def cnull : Cap :=
  { valid := false, ctype := .linear, cursor := 0#64, base := 0#64, limit := 0, perms := 0#3,
    async := .synchronous, reg := 0, stamp := 0 }

/-- The initial capability of `cinit` (R40 with spec/90_conflicts.md C3, C4, C5). -/
def initialCap : Variant → Cap
  | .pure => { cnull with valid := true, limit := Fin.last addrSpace, perms := 7#3 }
  | .hybrid sbase send =>
    { cnull with valid := true, cursor := sbase, base := sbase, limit := send, perms := 7#3 }

/-- The capability the model has in `pc` at reset, and where `withFetchWord` needs one: the spec's launch parameter `LAUNCH_PC`
(R137; DESIGN CHOICE, unsafe, notes/assumptions/15.md). -/
def launchPc (v : Variant) : Cap :=
  { initialCap v with ctype := .nonLinear, perms := 5#3 }

end Sys2Proof.Machine
end

