-- ==== Sys2Proof/Machine/AddedRegs.lean ====
section
/-! DEFINITION. The added registers, their numbers and in which variant they exist (spec/10_state.md rules R34, R35, R59), and
the assembler's register aliases (R25). -/

namespace Sys2Proof.Machine

open Sys2Proof

/-- The fourteen added registers (R34, R35). -/
inductive AddedReg where
  | ceh | deh | cih | epc | cinit | switchCap
  | cis | tval | cause
  | cwrld | normalPc | normalSp | switchReg | exitReg
deriving DecidableEq, Repr

/-- Reading or writing, as the constraint tables have them (R51 to R56). -/
inductive Access where
  | read | write
deriving DecidableEq, Repr

/-- The register exists in the variant (R34, R35; spec/90_conflicts.md C9). -/
def AddedReg.existsIn (r : AddedReg) : Variant → Bool
  | .pure =>
    match r with
    | .ceh | .deh | .cih | .epc | .cinit | .cis | .tval | .cause => true
    | .switchCap | .cwrld | .normalPc | .normalSp | .switchReg | .exitReg => false
  | .hybrid _ _ =>
    match r with
    | .ceh | .deh | .epc | .cinit | .cwrld | .normalPc | .normalSp | .switchReg | .switchCap | .exitReg | .tval | .cause => true
    | .cih | .cis => false

/-- The CCSR encoding of a register, where it has one (R34, R35). -/
def AddedReg.ccsrNumber : AddedReg → Option Imm
  | .ceh => some 0x000#12
  | .deh => some 0x001#12
  | .cih => some 0x002#12
  | .epc => some 0x003#12
  | .switchCap => some 0x005#12
  | .cinit => some 0x010#12
  | .cis | .tval | .cause | .cwrld | .normalPc | .normalSp | .switchReg | .exitReg => none

/-- The CSR encoding of a register, where it has one: a number space of its own (R34, R35, R59). -/
def AddedReg.csrNumber : AddedReg → Option Imm
  | .cis => some 0x000#12
  | .tval => some 0x001#12
  | .cause => some 0x002#12
  | .ceh | .deh | .cih | .epc | .cinit | .switchCap | .cwrld | .normalPc | .normalSp | .switchReg | .exitReg => none

/-- All of them, in the order of the tables. -/
def allAddedRegs : List AddedReg :=
  [.ceh, .deh, .cih, .epc, .cinit, .switchCap, .cis, .tval, .cause] ++
  [.cwrld, .normalPc, .normalSp, .switchReg, .exitReg]

/-- The CCSR a number names in a variant; none where the number is reserved (R59, R111). -/
def ccsrNamed (v : Variant) (n : Imm) : Option AddedReg :=
  allAddedRegs.find? (fun r => r.existsIn v && decide (r.ccsrNumber = some n))

/-- The CSR a number names in a variant (R59, R116). -/
def csrNamed (v : Variant) (n : Imm) : Option AddedReg :=
  allAddedRegs.find? (fun r => r.existsIn v && decide (r.csrNumber = some n))

/-- The alias stems of the registers from index 1 on: index 8 has a second one, `fp` (R25). -/
def aliasStems : List String :=
  ["zero", "ra", "sp", "gp", "tp", "t0", "t1", "t2"] ++
  ["s0", "s1", "a0", "a1", "a2", "a3", "a4", "a5"] ++
  ["a6", "a7", "s2", "s3", "s4", "s5", "s6", "s7"] ++
  ["s8", "s9", "s10", "s11", "t3", "t4", "t5", "t6"]

/-- The integer aliases of an index (R25). -/
def intAliases (i : RegIdx) : List String :=
  ["x" ++ toString i.val, aliasStems.getD i.val ""] ++ (if i = 8 then ["fp"] else [])

/-- The capability aliases of an index (R25). -/
def capAliases (i : RegIdx) : List String :=
  ["c" ++ toString i.val, if i = 0 then "cnull" else "c" ++ aliasStems.getD i.val ""] ++ (if i = 8 then ["cfp"] else [])

end Sys2Proof.Machine
end

