-- ==== Sys2Proof/Machine/State.lean ====
section
/-! DEFINITION. The machine's state as plain data, the reasons a step stops, and the state after reset (spec/10_state.md,
spec/20_memory.md rule R66, spec/60_exceptions.md, spec/00_scope.md section 5.4). -/

namespace Sys2Proof.Machine

open Sys2Proof

/-- The two worlds of the hybrid variant (R44). -/
inductive World where
  | normal | secure
deriving DecidableEq, Repr

/-- The content of a granule: sixteen raw bytes (lowest address first) or one capability (R66). -/
inductive Granule where
  | raw (bytes : List Byte)
  | cap (c : Cap)
deriving DecidableEq, Repr

/-- Memory (R66): the raw bytes that are not zero and the granules that hold a capability (the key is the granule's index, the
address divided by 16), each list with strictly rising keys. An unlisted byte reads as zero (DESIGN CHOICE, unsafe,
notes/assumptions/13.md). -/
structure Memory where
  bytes : List Host.Cell
  caps  : List (Nat × Cap)
deriving DecidableEq, Repr

/-- The canonical form: both lists have strictly rising keys inside the address space, no listed byte is zero, and a granule that
holds a capability has no bytes (R66). -/
abbrev Memory.wf (m : Memory) : Prop :=
  m.bytes.Pairwise (fun a b => a.1 < b.1) ∧
  (∀ e ∈ m.bytes, e.2 ≠ 0#8 ∧ e.1 < addrSpace) ∧
  m.caps.Pairwise (fun a b => a.1 < b.1) ∧
  (∀ e ∈ m.caps, e.1 < addrSpace / clenBytes) ∧
  (∀ e ∈ m.bytes, ∀ k ∈ m.caps, e.1 / clenBytes ≠ k.1)

/-- Everything the spec gives the machine (INVENTORY.md), with the model's own `sem` and `semTick`. -/
structure State where
  /-- configuration, never changed by a step (R3, R5, R89, R94) -/
  cfg       : Config
  /-- x[1] to x[31]; x[0] has no storage (R23, R26) -/
  regs      : Vector Cell 31
  /-- the program counter (R28) -/
  pc        : Cell
  /-- CCSR 0x000 (R36) -/
  ceh       : Cell
  /-- CCSR 0x001 (R37) -/
  deh       : Cell
  /-- CCSR 0x002, pure variant (R38) -/
  cih       : Cell
  /-- CCSR 0x003 (R39) -/
  epc       : Cell
  /-- CCSR 0x010 (R40) -/
  cinit     : Cap
  /-- hidden: `cinit` has been read (R61) -/
  cinitRead : Bool
  /-- CCSR 0x005, hybrid variant (R48) -/
  switchCap : Cap
  /-- CSR 0x000, pure variant (R41) -/
  cis       : Word
  /-- CSR 0x001 (R42) -/
  tval      : Word
  /-- CSR 0x002 (R43) -/
  cause     : Word
  /-- hybrid variant (R44) -/
  cwrld     : World
  /-- hybrid variant (R45) -/
  normalPc  : Word
  /-- hybrid variant (R46) -/
  normalSp  : Word
  /-- hybrid variant (R47) -/
  switchReg : RegIdx
  /-- hybrid variant (R49) -/
  exitReg   : RegIdx
  /-- memory (R63 to R66) -/
  mem       : Memory
  /-- hidden: the machine-wide creation counter (R20, R61) -/
  created   : Nat
  /-- the MODEL's: the answer of `SEM` to the next instruction whose section is lost (notes/assumptions/6.md) -/
  sem       : SemAnswer
  /-- the MODEL's: the tick at which the next answer is drawn (notes/assumptions/6.md) -/
  semTick   : Nat
deriving DecidableEq, Repr

/-- The two exceptions the source defines (R123, R124, R125). -/
inductive ExcName where
  | instructionAddressMisaligned
  | instructionAccessFault
deriving DecidableEq, Repr

/-- What the model keeps of a raised exception: name, cause code and the whole `pc` at the check (R126). -/
structure ExcRecord where
  name  : ExcName
  cause : Nat
  pc    : Cap
deriving DecidableEq, Repr

/-- The faults of a step. -/
inductive Fault where
  /-- an architectural exception of the fetch check, terminal (R123, R124, R128). Raised by `raiseException`. Safe: the hardware
  goes on in a handler, by means the source does not give (D14). -/
  | exception (record : ExcRecord)
  /-- a register holds the other kind of value (R24). Raised by `State.xint`, `State.xcap` and a CCSR write. Safe (D6). -/
  | regTypeConfusion (i : RegIdx)
  /-- a raw access touches a granule that holds a capability, or a capability read finds a raw granule (R65, R79, R80). Raised by
  the load and store families. Safe (D7). -/
  | memTypeConfusion (addr : Word)
  /-- an instruction fetch from a granule that holds a capability (R81). Raised by `State.fetch`. Safe (D9). -/
  | fetchTypeConfusion (addr : Word)
  /-- a CCSR or CSR access its constraint forbids (R51 to R56, R111, R117). Raised by the CCSR and CSR operations. Safe (D24). -/
  | ccsrConstraint (r : AddedReg) (a : Access)
  /-- a check of a lost instruction section failed: which exception that raises, with which code, is not in the source (R95,
  R125). Raised by the load and store families where the free answer of `SEM` says so, and where the authorising capability is invalid
  (notes/assumptions/39.md). Safe (notes/assumptions/11.md). -/
  | accessCheck (m : Mnemonic)
deriving DecidableEq, Repr

/-- What an `UnknownCustom2` refusal is about: a word (R92) or a register number the variant does not have (R112, R113, D31). -/
inductive Unknown where
  | word (w : InstrWord)
  | ccsrNumber (n : Imm)
  | csrNumber (n : Imm)
deriving DecidableEq, Repr

/-- The refusals of a step. -/
inductive Refusal where
  /-- an instruction the model has no meaning for; raised by `exec`'s own arms only. Safe. -/
  | notModelled (mnemonic : String)
  /-- `pc.cursor + 4` is past `2^XLEN - 1` (R31). Raised by `State.advancePc`. Safe (D11). -/
  | pcWrap
  /-- `pc` holds an integer: the base ISA's fetch (R32). Raised by `State.fetch`. Safe (D12). -/
  | baseIsaFetch
  /-- hybrid variant: a fetch outside `[SBASE, SEND)` (R32). Raised by `State.fetch`. Safe (D13). -/
  | fetchOutsideSecure
  /-- a word that is not the extension's (R91). Raised by `step` from the decoder. Safe (D21). -/
  | baseIsaNotInScope (w : InstrWord)
  /-- a word of the extension's opcode that `ENC` does not know, or a reserved register number (R92, R111). Raised by `step` from
  the decoder and by the CCSR and CSR operations. Safe (D21, D31). -/
  | unknownCustom2 (u : Unknown)
  /-- `SEM` is not supplied for the mnemonic (R94, R107). Raised by every instruction of a lost section. Safe (D22). -/
  | semNotSupplied (m : Mnemonic)
  /-- an access to `epc`, `tval` or `cause` (R57). Raised by the CCSR and CSR operations. Safe (D26). -/
  | csrAccessNotInSource (r : AddedReg)
  /-- the address is in memory the instruction may not reach (R67, R68, R79, R95, R104, R107). Raised by the load and store
  families. Safe (notes/assumptions/12.md). -/
  | outsideReach (m : Mnemonic) (addr : Word)
  /-- a capability access at an address that is no multiple of 16 (R72, R104, R107). Raised by LDC, STC, LDCR, STCR. Safe
  (notes/assumptions/12.md). -/
  | capAlignment (m : Mnemonic) (addr : Word)
deriving DecidableEq, Repr

/-- The outcome of a step or of an instruction. -/
abbrev Result := Host.Outcome State Fault Refusal

/-- The machine after reset under a configuration (R62, R136, R137). The values the spec does not state are the model's
(DESIGN CHOICE, unsafe, notes/assumptions/14.md and 15.md). -/
def State.resetWith (cfg : Config) : State :=
  { cfg := cfg
    regs := Vector.replicate 31 (.int 0#64)
    pc := .cap (launchPc cfg.variant)
    ceh := .int 0#64
    deh := .int 0#64
    cih := .int 0#64
    epc := .int 0#64
    cinit := initialCap cfg.variant
    cinitRead := false
    switchCap := cnull
    cis := 0#64
    tval := 0#64
    cause := 0#64
    cwrld := .normal
    normalPc := 0#64
    normalSp := 0#64
    switchReg := 0
    exitReg := 0
    mem := { bytes := [], caps := [] }
    created := 0
    sem := Config.semAnswer 0
    semTick := 1 }

/-- The machine after reset (notes/assumptions/1.md). -/
def State.reset : State := State.resetWith Config.model

end Sys2Proof.Machine
end

