-- ==== Sys2Proof/Machine/Operands.lean ====
section
/-! DEFINITION. Reading operands: the register file's read side with `x0`/`c0` (spec/10_state.md rules R23 to R27), which operand
field a role stands in, and the extension of a loaded value. -/

namespace Sys2Proof.Machine

open Sys2Proof

/-- The storage of `x[i]`; there is none for `i = 0` (R23, R26). -/
def State.regCell (s : State) (i : RegIdx) : Option Cell :=
  if h : i.val = 0 then none else some (s.regs[i.val - 1]'(by omega))

/-- Read `x[i]` as an integer (`xint`, R24, R26). -/
def State.xint (s : State) (i : RegIdx) : Except Fault Word :=
  match s.regCell i with
  | none => .ok 0#64
  | some (.int v) => .ok v
  | some (.cap _) => .error (.regTypeConfusion i)

/-- Read `x[i]` as a capability (`xcap`, R24, R26). -/
def State.xcap (s : State) (i : RegIdx) : Except Fault Cap :=
  match s.regCell i with
  | none => .ok cnull
  | some (.cap c) => .ok c
  | some (.int _) => .error (.regTypeConfusion i)

/-- Read `x[i]` as whatever it holds; `x0` reads "as an integer and as a capability, depending on the context" (R26), and the
caller says which. -/
def State.content (s : State) (i : RegIdx) (zeroAsCap : Bool) : Cell :=
  match s.regCell i with
  | none => if zeroAsCap then .cap cnull else .int 0#64
  | some v => v

/-- The register in an operand position. An I-type word has two register operands (R85); a role that the free answer puts in the
third falls on `rs1` there (notes/assumptions/8.md). -/
def operandReg (ops : OperandForm) (slot : Slot) : RegIdx :=
  match ops, slot with
  | .r rd _ _, .rd => rd
  | .r _ rs1 _, .rs1 => rs1
  | .r _ _ rs2, .rs2 => rs2
  | .i rd _ _, .rd => rd
  | .i _ rs1 _, .rs1 => rs1
  | .i _ rs1 _, .rs2 => rs1

/-- A loaded value of `n` bytes widened to `XLEN` bits: sign or zero extension is not in the source (R97 to R99), so the free
answer says which. -/
def extendLoaded (n : Nat) (signed : Bool) (v : Nat) : Word :=
  if signed then (BitVec.ofNat (8 * n) v).signExtend 64 else BitVec.ofNat 64 v

end Sys2Proof.Machine
end

