-- ==== Sys2Proof/Machine/Flags.lean ====
section
/-! DEFINITION. The machine has no status flag (spec/10_state.md rule R33); here stand the conditions its rules test instead: the
fetch check (R29), the memory regions (spec/20_memory.md rules R67, R68) and the manipulation constraints of the added registers
(R51 to R56). -/

namespace Sys2Proof.Machine

open Sys2Proof

/-- The cause code of an exception (R123, R124). -/
def ExcName.cause : ExcName → Nat
  | .instructionAddressMisaligned => 0
  | .instructionAccessFault => 1

/-- `pc.cursor` is in `[pc.base, pc.end - 4]`, computed in the integers (R29 (d), R31). -/
def Cap.cursorInFetchRange (c : Cap) : Bool :=
  decide (c.base.toNat ≤ c.cursor.toNat ∧ c.cursor.toNat + 4 ≤ c.limit.val)

/-- The check before each fetch, in priority order (R29, R127; the third condition by spec/90_conflicts.md C2). -/
def fetchCheck (c : Cap) : Option ExcName :=
  if c.valid = false then some .instructionAccessFault
  else if c.ctype ≠ .linear ∧ c.ctype ≠ .nonLinear then some .instructionAccessFault
  else if executable c.perms = false then some .instructionAccessFault
  else if c.cursorInFetchRange = false then some .instructionAccessFault
  else if c.cursor.toNat % 4 ≠ 0 then some .instructionAddressMisaligned
  else none

/-- The `n` bytes at `a` are memory that is reached through capabilities: all of the address space (pure, R67), or the secure
memory `[SBASE, SEND)` (hybrid, R68). -/
def capReach (v : Variant) (a n : Nat) : Bool :=
  match v with
  | .pure => decide (a + n ≤ addrSpace)
  | .hybrid sbase send => decide (sbase.toNat ≤ a ∧ a + n ≤ send.val)

/-- The `n` bytes at `a` are normal memory, reached through the MMU: hybrid variant only (R68, R107, R108). -/
def mmuReach (v : Variant) (a n : Nat) : Bool :=
  match v with
  | .pure => false
  | .hybrid sbase send => decide (a + n ≤ sbase.toNat ∨ (send.val ≤ a ∧ a + n ≤ addrSpace))

/-- The variant has a normal memory and an MMU (R107 (1)). -/
def hasMmu : Variant → Bool
  | .pure => false
  | .hybrid _ _ => true

/-- A fetch through a capability reaches its four bytes: no constraint in the pure variant, the secure memory in the hybrid
(R30, R32 (2)). -/
def fetchReach (v : Variant) (a : Nat) : Bool :=
  match v with
  | .pure => true
  | .hybrid sbase send => decide (sbase.toNat ≤ a ∧ a + 4 ≤ send.val)

/-- `VARIANT = pure or cwrld = 1` (R51, R52). -/
def State.pureOrSecure (s : State) : Bool :=
  match s.cfg.variant with
  | .pure => true
  | .hybrid _ _ => decide (s.cwrld = .secure)

/-- `VARIANT = hybrid and cwrld = 0` (R55). -/
def State.hybridNormal (s : State) : Bool :=
  match s.cfg.variant with
  | .pure => false
  | .hybrid _ _ => decide (s.cwrld = .normal)

/-- `VARIANT = pure or cwrld = 0` (R54). -/
def State.pureOrNormal (s : State) : Bool :=
  match s.cfg.variant with
  | .pure => true
  | .hybrid _ _ => decide (s.cwrld = .normal)

/-- The read constraint of a register (R51 to R56): `cih` is never readable, `cis` while `cih` is not a capability, `cinit` in the
world of R54. The registers without a row (R57, R58) are refused before this is asked. -/
def State.readAllowed (s : State) (r : AddedReg) : Bool :=
  match r with
  | .ceh | .deh => s.pureOrSecure
  | .switchCap => s.hybridNormal
  | .cinit => s.pureOrNormal
  | .cis => !s.cih.isCap
  | .cih | .epc | .tval | .cause | .cwrld | .normalPc | .normalSp | .switchReg | .exitReg => false

/-- The write constraint of a register (R51 to R56): `cih` while its original content is not a capability. -/
def State.writeAllowed (s : State) (r : AddedReg) : Bool :=
  match r with
  | .ceh | .deh => s.pureOrSecure
  | .cih => decide (s.cfg.variant = .pure) && !s.cih.isCap
  | .switchCap => s.hybridNormal
  | .cis => !s.cih.isCap
  | .cinit | .epc | .tval | .cause | .cwrld | .normalPc | .normalSp | .switchReg | .exitReg => false

end Sys2Proof.Machine
end

