-- ==== Sys2Proof/Machine/Ops.lean ====
section
/-! DEFINITION. The named operations every instruction is written over: memory (spec/20_memory.md rules R66, R79 to R81), the
register file's write side (R27), the fetch and the advance of `pc` (R29 to R32), taking an exception (R126, R128), the free
answers of `SEM` (R94) and the shared bodies of the load, store and CCSR families. -/

namespace Sys2Proof.Machine

open Sys2Proof

/-! ## Sorted association lists -/

/-- The value listed at a key. -/
def assocGet {α : Type} : List (Nat × α) → Nat → Option α
  | [], _ => none
  | e :: es, k => if e.1 = k then some e.2 else assocGet es k

/-- List a value at a key, keeping the keys rising. -/
def assocSet {α : Type} : List (Nat × α) → Nat → α → List (Nat × α)
  | [], k, v => [(k, v)]
  | e :: es, k, v =>
    if k < e.1 then (k, v) :: e :: es
    else if k = e.1 then (k, v) :: es
    else e :: assocSet es k v

/-- Unlist a key. -/
def assocErase {α : Type} (l : List (Nat × α)) (k : Nat) : List (Nat × α) :=
  l.filter (fun e => decide (e.1 ≠ k))

/-! ## Memory -/

/-- What a raw byte that is not listed reads as (DESIGN CHOICE, unsafe, notes/assumptions/13.md). -/
def unlistedByte : Byte := 0#8

/-- The raw byte at an address (R63, R66). -/
def byteOf (l : List Host.Cell) (a : Nat) : Byte := (assocGet l a).getD unlistedByte

/-- Set the raw byte at an address, keeping the canonical form. -/
def setByte (l : List Host.Cell) (a : Nat) (b : Byte) : List Host.Cell :=
  if b = unlistedByte then assocErase l a else assocSet l a b

/-- The `n` bytes at `a` as a little-endian number (R79). -/
def readLE (l : List Host.Cell) (a : Nat) : Nat → Nat
  | 0 => 0
  | n + 1 => (byteOf l a).toNat + 256 * readLE l (a + 1) n

/-- Set the `n` bytes at `a` to a number's low bytes, little-endian (R79). -/
def writeLE (l : List Host.Cell) (a : Nat) : Nat → Nat → List Host.Cell
  | 0, _ => l
  | n + 1, v => setByte (writeLE l (a + 1) n (v / 256)) a (BitVec.ofNat 8 v)

/-- The capability the granule of index `g` holds, if it holds one (R66). -/
def Memory.capAt (m : Memory) (g : Nat) : Option Cap := assocGet m.caps g

/-- The raw byte at an address, where its granule is raw; a granule that holds a capability has no bytes (R66). -/
def Memory.byteAt (m : Memory) (a : Nat) : Option Byte :=
  match m.capAt (a / clenBytes) with
  | some _ => none
  | none => some (byteOf m.bytes a)

/-- The content of a granule (R66). -/
def Memory.granule (m : Memory) (g : Nat) : Granule :=
  match m.capAt g with
  | some c => .cap c
  | none => .raw ((List.range clenBytes).map (fun k => byteOf m.bytes (clenBytes * g + k)))

/-- One of the `n` bytes at `a` lies in a granule that holds a capability: "they lie in one granule or two" (R79). -/
def Memory.touchesCap (m : Memory) (a n : Nat) : Bool :=
  (m.capAt (a / clenBytes)).isSome || (m.capAt ((a + n - 1) / clenBytes)).isSome

/-- `MemRead(addr, n)`; none is the confusion of type (R79). -/
def Memory.read (m : Memory) (a n : Nat) : Option Nat :=
  if m.touchesCap a n then none else some (readLE m.bytes a n)

/-- `MemWrite(addr, n, v)`; none is the confusion of type (R79). -/
def Memory.write (m : Memory) (a n v : Nat) : Option Memory :=
  if m.touchesCap a n then none else some { m with bytes := writeLE m.bytes a n v }

/-- `MemReadCap(addr)`; none is the confusion of type (R80). -/
def Memory.readCap (m : Memory) (a : Nat) : Option Cap := m.capAt (a / clenBytes)

/-- The raw bytes outside a granule. -/
def dropGranule (l : List Host.Cell) (g : Nat) : List Host.Cell :=
  l.filter (fun e => decide (e.1 / clenBytes ≠ g))

/-- `MemWriteCap(addr, c)`: the granule becomes a capability granule whatever it held (R80). -/
def Memory.writeCap (m : Memory) (a : Nat) (c : Cap) : Memory :=
  { bytes := dropGranule m.bytes (a / clenBytes), caps := assocSet m.caps (a / clenBytes) c }

/-- The granule of `a` becomes raw with these sixteen bytes. No primitive of the spec does this (R66); the free answer of `SEM` may
(R104 "clears the granule"; notes/assumptions/9.md), and a host that places raw bytes does. -/
def Memory.makeRaw (m : Memory) (a : Nat) (bytes : BitVec 128) : Memory :=
  { bytes := writeLE m.bytes (clenBytes * (a / clenBytes)) 16 bytes.toNat
    caps := assocErase m.caps (a / clenBytes) }

/-- What a granule holds after its capability was loaded (R104; notes/assumptions/9.md). -/
def Memory.leave (m : Memory) (a : Nat) (r : MemResidue) : Memory :=
  match r with
  | .kept => m
  | .raw bytes => m.makeRaw a bytes
  | .null => m.writeCap a cnull

/-- `FetchWord(addr)`; none is the confusion of type (R79, R81). -/
def Memory.fetchWord (m : Memory) (a : Nat) : Option InstrWord :=
  (m.read a 4).map (fun v => BitVec.ofNat 32 v)

/-! ## Registers -/

/-- `x[i] <- v`: no effect when `i = 0` (R27). -/
def State.writeReg (s : State) (i : RegIdx) (v : Cell) : State :=
  if h : i.val = 0 then s else { s with regs := s.regs.set (i.val - 1) v (by omega) }

/-- The capability in `x[i]` gets this `cursor`; anything else is left as it is (R95 "whether `cursor` is changed"). -/
def State.moveCursor (s : State) (i : RegIdx) (cursor : Option Word) : State :=
  match cursor, s.regCell i with
  | some a, some (.cap c) => s.writeReg i (.cap { c with cursor := a })
  | _, _ => s

/-- What a register holds after its capability was moved out (R104, R113; notes/assumptions/9.md). -/
def State.leaveReg (s : State) (i : RegIdx) (r : Residue) : State :=
  match r with
  | .kept => s
  | .int v => s.writeReg i (.int v)
  | .null => s.writeReg i (.cap cnull)

/-- The content of a CCSR (R36 to R40, R48). -/
def State.getCcsr (s : State) (r : AddedReg) : Cell :=
  match r with
  | .ceh => s.ceh
  | .deh => s.deh
  | .cih => s.cih
  | .epc => s.epc
  | .cinit => .cap s.cinit
  | .switchCap => .cap s.switchCap
  | .cis | .tval | .cause | .cwrld | .normalPc | .normalSp | .switchReg | .exitReg => .int 0#64

/-- Replace the content of a CCSR. `switch_cap` holds capabilities only (R48, R50), so an integer there is `cnull`; `cinit` is never
written (R54); `epc` is never written by a program (R57). -/
def State.setCcsr (s : State) (r : AddedReg) (v : Cell) : State :=
  match r, v with
  | .ceh, v => { s with ceh := v }
  | .deh, v => { s with deh := v }
  | .cih, v => { s with cih := v }
  | .switchCap, .cap c => { s with switchCap := c }
  | .switchCap, .int _ => { s with switchCap := cnull }
  | .epc, _ | .cinit, _ | .cis, _ | .tval, _ | .cause, _ | .cwrld, _ | .normalPc, _ | .normalSp, _ | .switchReg, _
  | .exitReg, _ => s

/-- What a CCSR holds after a capability was read out of it (R112; notes/assumptions/9.md). -/
def State.leaveCcsr (s : State) (r : AddedReg) (left : Residue) : State :=
  match left with
  | .kept => s
  | .int v => s.setCcsr r (.int v)
  | .null => s.setCcsr r (.cap cnull)

/-- The residue a moved value leaves: an integer is copied, only a capability may be moved out (R104, R112, R113;
notes/assumptions/9.md). -/
def residueOf (v : Cell) (left : Residue) : Residue :=
  match v with
  | .int _ => .kept
  | .cap _ => left

/-! ## Stops -/

/-- Why an operation stops. -/
inductive Stop where
  | fault (f : Fault)
  | refused (r : Refusal)
deriving DecidableEq, Repr

/-- A stop as the outcome of a step. -/
def Stop.outcome : Stop → Result
  | .fault f => .fault f
  | .refused r => .refused r

/-- TAKING AN EXCEPTION (R126, R128): "The model does not enter a handler. A raised exception is a terminal outcome of the run",
with the record of name, cause code and the whole `pc`. No register is written; the source describes no return (R130). -/
def raiseException (x : ExcName) (c : Cap) : Stop :=
  .fault (.exception { name := x, cause := x.cause, pc := c })

/-! ## Fetch and advance -/

/-- Check and fetch (R29, R30, R32, R81): the capability in `pc` and the word it points to. -/
def State.fetch (s : State) : Except Stop (Cap × InstrWord) :=
  match s.pc with
  | .int _ => .error (.refused .baseIsaFetch)
  | .cap c =>
    match fetchCheck c with
    | some x => .error (raiseException x c)
    | none =>
      if fetchReach s.cfg.variant c.cursor.toNat then
        match s.mem.fetchWord c.cursor.toNat with
        | none => .error (.fault (.fetchTypeConfusion c.cursor))
        | some w => .ok (c, w)
      else .error (.refused .fetchOutsideSecure)

/-- `pc.cursor <- pc.cursor + 4`, every other field unchanged, after the instruction has executed (R30); past `2^XLEN - 1` the step
is refused (R31). -/
def State.advancePc (s : State) (c : Cap) : Result :=
  if c.cursor.toNat + 4 < addrSpace then .next { s with pc := .cap { c with cursor := c.cursor + 4#64 } }
  else .refused .pcWrap

/-- The refusal a word the decoder does not read stands for (R91, R92). -/
def refusalOf : DecodeRefusal → Refusal
  | .baseIsa w => .baseIsaNotInScope w
  | .unknownCustom2 w => .unknownCustom2 (.word w)
  | .truncated => .baseIsaNotInScope 0#32

/-- Decode a fetched word under the machine's `ENC` (R90). -/
def State.decoded (s : State) (w : InstrWord) : Except Stop Instr :=
  match decode s.cfg.enc w with
  | .ok i => .ok i
  | .error e => .error (.refused (refusalOf e))

/-- The capability in `pc` where an instruction can be fetched and stepped over through it, else the launch capability. -/
def State.fetchablePc (s : State) : Cap :=
  match s.pc with
  | .int _ => launchPc s.cfg.variant
  | .cap c =>
    if fetchCheck c = none ∧ fetchReach s.cfg.variant c.cursor.toNat = true ∧ c.cursor.toNat + 4 < addrSpace then c
    else launchPc s.cfg.variant

/-- Place an instruction word as raw bytes where `c` points, and `c` in `pc`. The granule becomes raw if it held a capability. -/
def State.placeWord (s : State) (c : Cap) (w : Nat) : State :=
  { s with
    pc := .cap c
    mem := { bytes := writeLE s.mem.bytes c.cursor.toNat 4 w
             caps := assocErase s.mem.caps (c.cursor.toNat / clenBytes) } }

/-! ## The free answers of SEM -/

/-- `SEM` is supplied for a mnemonic (R94). -/
def State.supplied (s : State) (m : Mnemonic) : Bool := decide (m ∈ s.cfg.semSupplied)

/-- Draw the next free answer: the one in `sem` has been used (notes/assumptions/6.md). -/
def State.redraw (s : State) : State :=
  { s with sem := Config.semAnswer s.semTick, semTick := s.semTick + 1 }

/-- Two tests in a row: the first that fails is reported (R127: "the first `raise` reached by the pseudocode of its rule"). -/
def firstStop (g h : Except Stop Unit) : Except Stop Unit :=
  match g with
  | .error e => .error e
  | .ok () => h

/-- What every access through a capability asks first (R94, R95 (1), R104 (3)): `SEM` is supplied, the operand that supplies the
authority holds a capability, that capability is valid (R139 with R62: no memory is accessed before a program holds one; DEDUCED,
notes/assumptions/39.md) and the lost checks pass. That these are tested in this order and before the others is the model's choice
(DESIGN CHOICE, notes/assumptions/38.md), but for `SEM`, which R95's skeleton puts first. -/
def State.authGate (s : State) (m : Mnemonic) (ops : OperandForm) : Except Stop Unit :=
  if s.supplied m then
    match s.xcap (operandReg ops s.sem.auth) with
    | .error f => .error (.fault f)
    | .ok c => if c.valid && s.sem.completes then .ok () else .error (.fault (.accessCheck m))
  else .error (.refused (.semNotSupplied m))

/-- Every byte of an access of `n` bytes is memory that an access through a capability may reach (R95 (2), R104 (4)). -/
def State.reachGate (s : State) (m : Mnemonic) (n : Nat) : Except Stop Unit :=
  if capReach s.cfg.variant s.sem.addr.toNat n then .ok () else .error (.refused (.outsideReach m s.sem.addr))

/-- A capability access is at a multiple of 16 (R64, R104 (2), R107 (4)). -/
def State.alignGate (s : State) (m : Mnemonic) : Except Stop Unit :=
  if s.sem.addr.toNat % clenBytes = 0 then .ok () else .error (.refused (.capAlignment m s.sem.addr))

/-- The gate of an access to `n` raw bytes through a capability (R94, R95): authority, then reach (the order is the model's choice,
notes/assumptions/38.md). -/
def State.capGate (s : State) (m : Mnemonic) (ops : OperandForm) (n : Nat) : Except Stop Unit :=
  firstStop (s.authGate m ops) (s.reachGate m n)

/-- The gate of an access to a granule's capability through a capability (R104): authority (the model's choice,
notes/assumptions/38.md), then alignment and reach, as the pseudocode of R105 and R106 lists them. -/
def State.granuleGate (s : State) (m : Mnemonic) (ops : OperandForm) : Except Stop Unit :=
  firstStop (s.authGate m ops) (firstStop (s.alignGate m) (s.reachGate m clenBytes))

/-- The gate of an access to normal memory by an integer address (R107): hybrid variant, `SEM` supplied, the address operand holds
an integer, the MMU's checks pass, and every byte is normal memory. That the address's kind, the MMU and the reach are tested in
this order is the model's choice (DESIGN CHOICE, notes/assumptions/38.md). -/
def State.mmuGate (s : State) (m : Mnemonic) (ops : OperandForm) (n : Nat) : Except Stop Unit :=
  if hasMmu s.cfg.variant && s.supplied m then
    match s.xint (operandReg ops s.sem.auth) with
    | .error f => .error (.fault f)
    | .ok _ =>
      if s.sem.completes then
        if mmuReach s.cfg.variant s.sem.addr.toNat n then .ok ()
        else .error (.refused (.outsideReach m s.sem.addr))
      else .error (.fault (.accessCheck m))
  else .error (.refused (.semNotSupplied m))

/-! ## The shared bodies of the instruction families -/

/-- The state after a load through a capability delivered `v` to `x[rd]`: the authorising capability's cursor as the free answer has
it, then the register write (R95). -/
def State.afterLoad (s : State) (ops : OperandForm) (v : Cell) : State :=
  (s.redraw.moveCursor (operandReg ops s.sem.auth) s.sem.cursorAfter).writeReg ops.rdField v

/-- LDD, LDW, LDH, LDB: `n` raw bytes through a capability into `x[rd]` as an integer (R95, the `LDx` skeleton). The granules' kind
is tested after the gate, as the skeleton lists it (notes/assumptions/38.md). -/
def State.loadData (s : State) (m : Mnemonic) (n : Nat) (ops : OperandForm) : Result :=
  match s.capGate m ops n with
  | .error e => e.outcome
  | .ok () =>
    match s.mem.read s.sem.addr.toNat n with
    | none => .fault (.memTypeConfusion s.sem.addr)
    | some v => .next (s.afterLoad ops (.int (extendLoaded n s.sem.signed v)))

/-- STD, STW, STH, STB: the low `n` bytes of an integer register through a capability (R95, the `STx` skeleton). After the gate, the
data register's kind is tested before the granules', as the skeleton lists them (notes/assumptions/38.md). -/
def State.storeData (s : State) (m : Mnemonic) (n : Nat) (ops : OperandForm) : Result :=
  match s.capGate m ops n with
  | .error e => e.outcome
  | .ok () =>
    match s.xint (operandReg ops s.sem.data) with
    | .error f => .fault f
    | .ok v =>
      match s.mem.write s.sem.addr.toNat n v.toNat with
      | none => .fault (.memTypeConfusion s.sem.addr)
      | some mem => .next { s.redraw.moveCursor (operandReg ops s.sem.auth) s.sem.cursorAfter with mem := mem }

/-- LDC: the capability at a granule into `x[rd]`, every field and the stamp preserved (R104, R105). The granule's kind is tested after
the gate, as R105's pseudocode lists it (notes/assumptions/38.md). -/
def State.loadCap (s : State) (m : Mnemonic) (ops : OperandForm) : Result :=
  match s.granuleGate m ops with
  | .error e => e.outcome
  | .ok () =>
    match s.mem.readCap s.sem.addr.toNat with
    | none => .fault (.memTypeConfusion s.sem.addr)
    | some c => .next { s.afterLoad ops (.cap c) with mem := s.mem.leave s.sem.addr.toNat s.sem.memLeft }

/-- STC: the capability in a register into a granule, whatever it held (R104, R106). The data register's kind is tested after the gate,
as R106's pseudocode lists it (notes/assumptions/38.md). -/
def State.storeCap (s : State) (m : Mnemonic) (ops : OperandForm) : Result :=
  match s.granuleGate m ops with
  | .error e => e.outcome
  | .ok () =>
    match s.xcap (operandReg ops s.sem.data) with
    | .error f => .fault f
    | .ok c =>
      .next { (s.redraw.moveCursor (operandReg ops s.sem.auth) s.sem.cursorAfter).leaveReg
                (operandReg ops s.sem.data) s.sem.regLeft with
              mem := s.mem.writeCap s.sem.addr.toNat c }

/-- LDCR: the capability at a granule of the normal memory into `x[rd]` (R107, R108; that it keeps its kind there:
notes/assumptions/33.md). That the gate, the alignment and the granule's kind are tested in this order is the model's choice
(DESIGN CHOICE, notes/assumptions/38.md). -/
def State.loadCapRaw (s : State) (m : Mnemonic) (ops : OperandForm) : Result :=
  match s.mmuGate m ops clenBytes with
  | .error e => e.outcome
  | .ok () =>
    match s.alignGate m with
    | .error e => e.outcome
    | .ok () =>
      match s.mem.readCap s.sem.addr.toNat with
      | none => .fault (.memTypeConfusion s.sem.addr)
      | some c =>
        .next { s.redraw.writeReg ops.rdField (.cap c) with mem := s.mem.leave s.sem.addr.toNat s.sem.memLeft }

/-- STCR: the capability in a register into a granule of the normal memory (R107, R109; that it keeps its kind there:
notes/assumptions/33.md). The register's kind is tested after the reach, as R109's pseudocode lists it; that the alignment is tested
between them is the model's choice (DESIGN CHOICE, notes/assumptions/38.md). -/
def State.storeCapRaw (s : State) (m : Mnemonic) (ops : OperandForm) : Result :=
  match s.mmuGate m ops clenBytes with
  | .error e => e.outcome
  | .ok () =>
    match s.alignGate m with
    | .error e => e.outcome
    | .ok () =>
      match s.xcap (operandReg ops s.sem.data) with
      | .error f => .fault f
      | .ok c =>
        .next { s.redraw.leaveReg (operandReg ops s.sem.data) s.sem.regLeft with
                mem := s.mem.writeCap s.sem.addr.toNat c }

/-- `CCSR.READ rd, cinit` (R114): once, the initial capability goes to `x[rd]`; later, nothing. -/
def State.readCinit (s : State) (rd : RegIdx) : Result :=
  if s.cinitRead then .next s
  else if s.readAllowed .cinit then .next { s.writeReg rd (.cap s.cinit) with cinitRead := true }
  else .fault (.ccsrConstraint .cinit .read)

/-- `CCSR.WRITE cinit, rs1` (R115): silently ignored, always; `x[rs1]` is not read. -/
def State.writeCinit (s : State) (_rs1 : RegIdx) : Result := .next s

/-- The state after a CCSR's content went to `x[rd]` (R112). -/
def State.afterCcsrRead (s : State) (rd : RegIdx) (r : AddedReg) : State :=
  (s.redraw.leaveCcsr r (residueOf (s.getCcsr r) s.sem.regLeft)).writeReg rd (s.getCcsr r)

/-- The state after `x[rs1]`'s content `v` went to a CCSR (R113). -/
def State.afterCcsrWrite (s : State) (r : AddedReg) (rs1 : RegIdx) (v : Cell) : State :=
  (s.redraw.leaveReg rs1 (residueOf v s.sem.regLeft)).setCcsr r v

/-- `CCSR.READ rd, r` for `r` other than `cinit`, in the order of R112's tests. -/
def State.readCcsr (s : State) (rd : RegIdx) (n : Imm) : Result :=
  match ccsrNamed s.cfg.variant n with
  | none => .refused (.unknownCustom2 (.ccsrNumber n))
  | some r =>
    if r = .cinit then s.readCinit rd
    else if r = .epc then .refused (.csrAccessNotInSource .epc)
    else if s.readAllowed r then
      if s.supplied .ccsrRead then .next (s.afterCcsrRead rd r)
      else .refused (.semNotSupplied .ccsrRead)
    else .fault (.ccsrConstraint r .read)

/-- What `CCSR.WRITE r, rs1` takes from `x[rs1]`: a capability for `switch_cap`, which is "described only as a capability" (R113,
R48), whatever the register holds for the others (notes/assumptions/25.md). -/
def State.ccsrSource (s : State) (r : AddedReg) (rs1 : RegIdx) : Except Fault Cell :=
  if r = .switchCap then
    match s.xcap rs1 with
    | .error f => .error f
    | .ok c => .ok (.cap c)
  else .ok (s.content rs1 s.sem.x0AsCap)

/-- `CCSR.WRITE r, rs1` for `r` other than `cinit`, in the order of R113's tests. -/
def State.writeCcsr (s : State) (n : Imm) (rs1 : RegIdx) : Result :=
  match ccsrNamed s.cfg.variant n with
  | none => .refused (.unknownCustom2 (.ccsrNumber n))
  | some r =>
    if r = .cinit then s.writeCinit rs1
    else if r = .epc then .refused (.csrAccessNotInSource .epc)
    else if s.writeAllowed r then
      if s.supplied .ccsrWrite then
        match s.ccsrSource r rs1 with
        | .error f => .fault f
        | .ok v => .next (s.afterCcsrWrite r rs1 v)
      else .refused (.semNotSupplied .ccsrWrite)
    else .fault (.ccsrConstraint r .write)

/-! ## The combined CCSR access: an abstract operation that no decoded word performs (R110) -/

/-- A combined CCSR instruction, "the read part followed by the write part, each under its own constraint" (R110). The write part takes
`x[rs1]` as the read part left it, and a stop of either part is the whole's (DESIGN CHOICE, notes/assumptions/40.md). -/
def State.combinedCcsr (s : State) (rd : RegIdx) (n : Imm) (rs1 : RegIdx) : Result :=
  match s.readCcsr rd n with
  | .next t => t.writeCcsr n rs1
  | .fault f => .fault f
  | .refused r => .refused r

/-! ## The added CSRs: abstract operations that no decoded word performs (R116) -/

/-- `CSR.READ rd, n` (R117): `cis` while `cih` is not a capability; `tval` and `cause` are refused (R57). -/
def State.csrRead (s : State) (rd : RegIdx) (n : Imm) : Result :=
  match csrNamed s.cfg.variant n with
  | none => .refused (.unknownCustom2 (.csrNumber n))
  | some r =>
    if r = .cis then
      if s.readAllowed .cis then .next (s.writeReg rd (.int s.cis)) else .fault (.ccsrConstraint .cis .read)
    else .refused (.csrAccessNotInSource r)

/-- `CSR.WRITE n, rs1` (R117): `cis` while `cih` is not a capability, from an integer register (notes/assumptions/28.md). -/
def State.csrWrite (s : State) (n : Imm) (rs1 : RegIdx) : Result :=
  match csrNamed s.cfg.variant n with
  | none => .refused (.unknownCustom2 (.csrNumber n))
  | some r =>
    if r = .cis then
      if s.writeAllowed .cis then
        match s.xint rs1 with
        | .error f => .fault f
        | .ok v => .next { s with cis := v }
      else .fault (.ccsrConstraint .cis .write)
    else .refused (.csrAccessNotInSource r)

end Sys2Proof.Machine
end

