-- ==== Sys2Proof/Machine/CapAccess.lean ====
section
/-! DEFINITION. Loads and stores of capabilities through a capability (spec/41_cap_load_store.md). -/

namespace Sys2Proof.Machine

open Sys2Proof

/-- LDC: load a capability (R105). -/
def execLdc (ops : OperandForm) (s : State) : Result := s.loadCap .ldc ops

/-- STC: store a capability (R106). -/
def execStc (ops : OperandForm) (s : State) : Result := s.storeCap .stc ops

end Sys2Proof.Machine
end

