-- ==== Sys2Proof/Machine/CcsrAccess.lean ====
section
/-! DEFINITION. The CCSR manipulation instructions (spec/43_ccsr_csr_access.md). -/

namespace Sys2Proof.Machine

open Sys2Proof

/-- `CCSR.READ rd, r`, for `r` other than `cinit` (R112). -/
def execCcsrRead (rd : RegIdx) (number : Imm) (s : State) : Result := s.readCcsr rd number

/-- `CCSR.READ rd, cinit` (R114). -/
def execCcsrReadCinit (rd : RegIdx) (s : State) : Result := s.readCinit rd

/-- `CCSR.WRITE r, rs1`, for `r` other than `cinit` (R113). -/
def execCcsrWrite (number : Imm) (rs1 : RegIdx) (s : State) : Result := s.writeCcsr number rs1

/-- `CCSR.WRITE cinit, rs1` (R115). -/
def execCcsrWriteCinit (rs1 : RegIdx) (s : State) : Result := s.writeCinit rs1

end Sys2Proof.Machine
end

