-- ==== Sys2Proof/Machine/DataAccess.lean ====
section
/-! DEFINITION. Loads and stores of raw data through a capability (spec/40_mem_access_with_cap.md rules R95 to R103). The widths 8,
4, 2, 1 are read from the mnemonics (PRESUMED, notes/assumptions/29.md). -/

namespace Sys2Proof.Machine

open Sys2Proof

/-- LDD: load 8 bytes (R96). -/
def execLdd (ops : OperandForm) (s : State) : Result := s.loadData .ldd 8 ops

/-- LDW: load 4 bytes (R97). -/
def execLdw (ops : OperandForm) (s : State) : Result := s.loadData .ldw 4 ops

/-- LDH: load 2 bytes (R98). -/
def execLdh (ops : OperandForm) (s : State) : Result := s.loadData .ldh 2 ops

/-- LDB: load 1 byte (R99). -/
def execLdb (ops : OperandForm) (s : State) : Result := s.loadData .ldb 1 ops

/-- STD: store 8 bytes (R100). -/
def execStd (ops : OperandForm) (s : State) : Result := s.storeData .std 8 ops

/-- STW: store 4 bytes (R101). -/
def execStw (ops : OperandForm) (s : State) : Result := s.storeData .stw 4 ops

/-- STH: store 2 bytes (R102). -/
def execSth (ops : OperandForm) (s : State) : Result := s.storeData .sth 2 ops

/-- STB: store 1 byte (R103). -/
def execStb (ops : OperandForm) (s : State) : Result := s.storeData .stb 1 ops

end Sys2Proof.Machine
end

