-- ==== Sys2Proof/Machine/RawCapAccess.lean ====
section
/-! DEFINITION. Raw loads and stores of capabilities in the hybrid variant's normal memory (spec/42_raw_cap_load_store.md;
notes/assumptions/33.md). -/

namespace Sys2Proof.Machine

open Sys2Proof

/-- LDCR: load a capability by integer address (R108). -/
def execLdcr (ops : OperandForm) (s : State) : Result := s.loadCapRaw .ldcr ops

/-- STCR: store a capability by integer address (R109). -/
def execStcr (ops : OperandForm) (s : State) : Result := s.storeCapRaw .stcr ops

end Sys2Proof.Machine
end

