-- ==== Sys2Proof/Machine/Dispatch.lean ====
section
/-! DEFINITION. `Execute` of spec/30_encoding.md rule R90: one arm per instruction. -/

namespace Sys2Proof.Machine

open Sys2Proof

def exec (i : Instr) (s : State) : Host.Outcome State Fault Refusal :=
  match i with
  | .ldd ops => Sys2Proof.Machine.execLdd ops s
  | .ldw ops => Sys2Proof.Machine.execLdw ops s
  | .ldh ops => Sys2Proof.Machine.execLdh ops s
  | .ldb ops => Sys2Proof.Machine.execLdb ops s
  | .std ops => Sys2Proof.Machine.execStd ops s
  | .stw ops => Sys2Proof.Machine.execStw ops s
  | .sth ops => Sys2Proof.Machine.execSth ops s
  | .stb ops => Sys2Proof.Machine.execStb ops s
  | .ldc ops => Sys2Proof.Machine.execLdc ops s
  | .stc ops => Sys2Proof.Machine.execStc ops s
  | .ldcr ops => Sys2Proof.Machine.execLdcr ops s
  | .stcr ops => Sys2Proof.Machine.execStcr ops s
  | .ccsrRead rd number => Sys2Proof.Machine.execCcsrRead rd number s
  | .ccsrReadCinit rd => Sys2Proof.Machine.execCcsrReadCinit rd s
  | .ccsrWrite number rs1 => Sys2Proof.Machine.execCcsrWrite number rs1 s
  | .ccsrWriteCinit rs1 => Sys2Proof.Machine.execCcsrWriteCinit rs1 s

end Sys2Proof.Machine
end

