-- ==== Sys2Proof/Machine/Step.lean ====
section
/-! DEFINITION. One step of the machine (spec/10_state.md rule R30) and the placing of an instruction where the next step fetches
it. -/

namespace Sys2Proof.Machine

open Sys2Proof

/-- `Step()` of R30: check and fetch, decode, execute, then advance `pc`. -/
def step (s : State) : Host.Outcome State Fault Refusal :=
  match s.fetch with
  | .error e => e.outcome
  | .ok (c, w) =>
    match s.decoded w with
    | .error e => e.outcome
    | .ok i =>
      match exec i s with
      | .next t => t.advancePc c
      | .fault f => .fault f
      | .refused r => .refused r

/-- The state with an instruction of `nbits` bits `w` stored, as four bytes lowest first, where `step` fetches its next
instruction; `pc` is replaced by `launchPc` only where a fetch through it could not be stepped over (notes/assumptions/15.md). -/
def State.withFetchWord (s : State) (nbits w : Nat) : State :=
  s.placeWord (s.fetchablePc) (w % 2 ^ nbits % 2 ^ 32)

end Sys2Proof.Machine
end

