-- ==== Sys2Proof/Safety.lean ====
section
/-! DEFINITION. What counts as a safe run, and the launch premises and invariants that claims are stated with
(spec/70_reset_and_hazards.md rules R138 and R140). -/

namespace Sys2Proof.Machine

open Sys2Proof

/-- The step has a next state: neither an exception, nor a model fault, nor a refusal (R140). -/
def stepsOn (r : Result) : Prop := ∃ t, r = .next t

/-- Premise `LaunchWellFormed` (R138): the field ranges hold by type; memory is in its canonical form; in the pure variant `pc` is
a capability (R28). -/
abbrev State.wellFormed (s : State) : Prop :=
  s.mem.wf ∧ (s.cfg.variant = .pure → s.pc.isCap = true)

/-- Premise `LaunchConfig` (R138, R5), and an unambiguous `ENC` (R89). -/
abbrev State.launchConfig (s : State) : Prop :=
  s.cfg.variant.wf = true ∧ Enc.wf s.cfg.enc = true

/-- The capability stands somewhere in the state: in `pc`, a general-purpose register, a CCSR or memory. -/
def State.holds (s : State) (c : Cap) : Prop :=
  s.pc = .cap c ∨ (∃ i, s.regCell i = some (.cap c)) ∨
  s.ceh = .cap c ∨ s.deh = .cap c ∨ s.cih = .cap c ∨ s.epc = .cap c ∨
  s.cinit = c ∨ s.switchCap = c ∨ (∃ g, s.mem.capAt g = some c)

/-- The capability lies inside the secure memory: what premise `LaunchSecureCaps` asks of one capability (R138). -/
def Cap.insideSecure (c : Cap) : Variant → Prop
  | .pure => True
  | .hybrid sbase send =>
    c.valid = true → c.ctype.code ≤ 3 → sbase.toNat ≤ c.base.toNat ∧ c.limit.val ≤ send.val

/-- Premise `LaunchSecureCaps` (R138). -/
def State.secureCaps (s : State) : Prop := ∀ c, s.holds c → c.insideSecure s.cfg.variant

/-- Premise `AtReset` (R138, R62): `pc` is excepted (spec/90_conflicts.md C11). -/
def State.atReset (s : State) : Prop :=
  s.cinit = initialCap s.cfg.variant ∧ s.cinitRead = false ∧ s.cih.isCap = false ∧ s.cwrld = .normal ∧
  s.mem.caps = [] ∧ s.created = 0 ∧
  (∀ i c, s.regCell i = some (.cap c) → c.valid = false) ∧
  (∀ c, s.ceh = .cap c ∨ s.deh = .cap c ∨ s.epc = .cap c ∨ s.switchCap = c → c.valid = false)

/-- No capability a program can reach (in a general-purpose register, an added register but `cinit`, or memory) is valid: what R139 (1)
says of the time before `cinit` is read. `pc` is excepted (spec/90_conflicts.md C11). -/
def State.noProgramCap (s : State) : Prop :=
  (∀ i c, s.regCell i = some (.cap c) → c.valid = false) ∧
  (∀ c, s.ceh = .cap c ∨ s.deh = .cap c ∨ s.cih = .cap c ∨ s.epc = .cap c ∨ s.switchCap = c → c.valid = false) ∧
  (∀ g c, s.mem.capAt g = some c → c.valid = false)

/-- Equal in every field but `cursor`: the same authority. -/
def Cap.sameAuthority (c d : Cap) : Prop := { c with cursor := d.cursor } = d

/-- What no instruction of the extension writes: the configuration, the registers without a number (R58), `epc`, `tval`, `cause`
(R57), `cis` (R132), `cinit` (R54) and the creation counter (R20). -/
def State.sameBackground (s t : State) : Prop :=
  t.cfg = s.cfg ∧ t.epc = s.epc ∧ t.cinit = s.cinit ∧ t.cis = s.cis ∧ t.tval = s.tval ∧ t.cause = s.cause ∧
  t.cwrld = s.cwrld ∧ t.normalPc = s.normalPc ∧ t.normalSp = s.normalSp ∧ t.switchReg = s.switchReg ∧
  t.exitReg = s.exitReg ∧ t.created = s.created

/-- The CCSRs a program can write are as before. -/
def State.sameCcsrs (s t : State) : Prop :=
  t.ceh = s.ceh ∧ t.deh = s.deh ∧ t.cih = s.cih ∧ t.switchCap = s.switchCap

/-- Every register but the listed ones is as before. -/
def State.sameRegsBut (s t : State) (changed : List RegIdx) : Prop :=
  ∀ i, i ∉ changed → t.regCell i = s.regCell i

/-- Every byte and every capability of memory is as before. -/
def State.sameMemory (s t : State) : Prop :=
  (∀ a, t.mem.byteAt a = s.mem.byteAt a) ∧ (∀ g, t.mem.capAt g = s.mem.capAt g)

/-! ## Groups of instructions of one shape, and when an access can complete -/

/-- The loads of raw data: name, width in bytes, constructor (R96 to R99). -/
def dataLoads : List (Mnemonic × Nat × (OperandForm → Instr)) :=
  [(.ldd, 8, .ldd), (.ldw, 4, .ldw), (.ldh, 2, .ldh), (.ldb, 1, .ldb)]

/-- The stores of raw data: name, width in bytes, constructor (R100 to R103). -/
def dataStores : List (Mnemonic × Nat × (OperandForm → Instr)) :=
  [(.std, 8, .std), (.stw, 4, .stw), (.sth, 2, .sth), (.stb, 1, .stb)]

/-- The instructions that reach memory through capabilities (R67, R68). -/
def capInstrs : List (Mnemonic × Nat × (OperandForm → Instr)) :=
  dataLoads ++ dataStores ++ [(.ldc, 16, .ldc), (.stc, 16, .stc)]

/-- The instructions that reach the normal memory by raw address (R68, R107). -/
def rawInstrs : List (Mnemonic × (OperandForm → Instr)) := [(.ldcr, .ldcr), (.stcr, .stcr)]

/-- Everything the access of `n` bytes through a capability asks of the state before memory is touched (R94, R95, R104): `SEM` is
supplied, the operand that holds the authority holds a valid capability (notes/assumptions/39.md), the lost checks pass, the address
is in reach. -/
def State.canAccess (s : State) (m : Mnemonic) (ops : OperandForm) (n : Nat) : Prop :=
  s.supplied m = true ∧ (∃ c, s.xcap (operandReg ops s.sem.auth) = .ok c ∧ c.valid = true) ∧ s.sem.completes = true ∧
  capReach s.cfg.variant s.sem.addr.toNat n = true

/-- The same for LDCR and STCR (R94, R107): hybrid variant, and the address operand holds an integer. -/
def State.canAccessRaw (s : State) (m : Mnemonic) (ops : OperandForm) : Prop :=
  hasMmu s.cfg.variant = true ∧ s.supplied m = true ∧ (∃ v, s.xint (operandReg ops s.sem.auth) = .ok v) ∧
  s.sem.completes = true ∧ mmuReach s.cfg.variant s.sem.addr.toNat clenBytes = true

/-- What no load or store changes besides `sem`, `semTick`, registers and memory. -/
def State.sameControl (s t : State) : Prop :=
  s.sameBackground t ∧ s.sameCcsrs t ∧ t.cinitRead = s.cinitRead

end Sys2Proof.Machine
end

