-- ==== Sys2Proof/Certificates/Slice0/Obligations.lean ====
section
/-! DEFINITION. The statements for the provers. A statement that speaks of `s.sem` holds for EVERY value of that field: it is a free
value (notes/assumptions/6.md). -/

open Sys2Proof Sys2Proof.Machine

/-! ## Capability values -/

/-- R16, R17 (the predicates are the spec's own inference): the listed permission order is the subset order on 3-bit masks, a
partial order with least element 0 and greatest element 7, and `executable`, `writable`, `readable` are its bits 0, 1, 2. -/
def Obligations.PermissionOrderIsBitSubset : Prop :=
  (∀ a b : Perms, permLe a b = true ↔ a &&& b = a) ∧
  (∀ a : Perms, permLe a a = true ∧ permLe 0#3 a = true ∧ permLe a 7#3 = true) ∧
  (∀ a b : Perms, permLe a b = true → permLe b a = true → a = b) ∧
  (∀ a b c : Perms, permLe a b = true → permLe b c = true → permLe a c = true) ∧
  (∀ p : Perms, executable p = p.getLsbD 0 ∧ writable p = p.getLsbD 1 ∧ readable p = p.getLsbD 2)

/-- R18: aliasing is a non-empty intersection of the half-open regions; that it is symmetric, that an empty region aliases with
nothing and that regions that only touch do not alias are the consequences R18 marks as derived. R18 gives the relation a
meaning for types 0 to 3 only: that it reads the kept `base` and `end` of a capability of types 4 to 6 as well is the model's
choice (notes/assumptions/30.md). -/
def Obligations.AliasingIsRegionIntersection : Prop :=
  ∀ c d : Cap,
    (c.aliases d = true ↔
      ∃ a : Nat, (c.base.toNat ≤ a ∧ a < c.limit.val) ∧ (d.base.toNat ≤ a ∧ a < d.limit.val)) ∧
    (c.aliases d = true ↔ max c.base.toNat d.base.toNat < min c.limit.val d.limit.val) ∧
    c.aliases d = d.aliases c ∧
    (c.limit.val ≤ c.base.toNat → c.aliases d = false) ∧
    (c.limit.val = d.base.toNat → c.aliases d = false)

/-- R19, R20 with the spec's creation stamp (D5): `<t` is defined exactly for two revocation capabilities, holds there exactly where
they alias and the first has the smaller stamp, and is irreflexive and asymmetric. -/
def Obligations.CreationOrderIsStrict : Prop :=
  ∀ c d : Cap,
    ((c.createdBefore d).isSome = true ↔ c.ctype = .revocation ∧ d.ctype = .revocation) ∧
    (c.createdBefore d = some true ↔
      c.ctype = .revocation ∧ d.ctype = .revocation ∧ c.aliases d = true ∧ c.stamp < d.stamp) ∧
    (c.createdBefore d = some true → d.createdBefore c = some false) ∧
    (c.createdBefore c ≠ some true)

/-- R40 (with C3, C4, C5): the initial capability of each variant, field by field. -/
def Obligations.InitialCapabilityFields : Prop :=
  (let c := initialCap .pure
   c.valid = true ∧ c.ctype = .linear ∧ c.cursor = 0#64 ∧ c.base = 0#64 ∧ c.limit.val = 2 ^ 64 ∧ c.perms = 7#3) ∧
  (∀ (sbase : Word) (send : EndAddr),
    let c := initialCap (.hybrid sbase send)
    c.valid = true ∧ c.ctype = .linear ∧ c.cursor = sbase ∧ c.base = sbase ∧ c.limit = send ∧ c.perms = 7#3)

/-! ## Registers -/

/-- R26, R27: `x0`/`c0` reads as 0 and as `cnull`, and a write to it has no effect. That the other effects of the instruction
that attempted the write still happen is the inference R27 and R114 (2) mark as derived, shown on the first read of `cinit` in
the pure variant. -/
def Obligations.RegisterZeroIsHardwired : Prop :=
  ∀ s : State,
    s.xint 0 = .ok 0#64 ∧ s.xcap 0 = .ok cnull ∧
    (cnull.valid = false ∧ cnull.ctype = .linear ∧ cnull.cursor = 0#64 ∧ cnull.base = 0#64 ∧ cnull.limit.val = 0 ∧
      cnull.perms = 0#3) ∧
    (∀ v, s.writeReg 0 v = s) ∧
    (s.cinitRead = false → s.cfg.variant = .pure → exec (.ccsrReadCinit 0) s = .next { s with cinitRead := true })

/-- R23, R24: a register holds what was last written to it, kind included; reading it as the other kind is a confusion of type
(the fault is the spec's decision D6); other registers are unchanged. -/
def Obligations.RegisterKeepsItsKind : Prop :=
  ∀ (s : State) (i : RegIdx), i ≠ 0 →
    (∀ v, (s.writeReg i (.int v)).xint i = .ok v ∧ (s.writeReg i (.int v)).xcap i = .error (.regTypeConfusion i)) ∧
    (∀ c, (s.writeReg i (.cap c)).xcap i = .ok c ∧ (s.writeReg i (.cap c)).xint i = .error (.regTypeConfusion i)) ∧
    (∀ v j, j ≠ i → (s.writeReg i v).regCell j = s.regCell j)

/-! ## Fetch and step -/

/-- R29, R123, R124, R127: the two exceptions of the fetch check, their cause codes and their priority, as the outcome of the
step; the record is R126's. -/
def Obligations.FetchExceptionsInPriorityOrder : Prop :=
  ∀ (s : State) (c : Cap), s.pc = .cap c →
    ((c.valid = false ∨ (c.ctype ≠ .linear ∧ c.ctype ≠ .nonLinear) ∨ permLe 1#3 c.perms = false ∨
        ¬ (c.base.toNat ≤ c.cursor.toNat ∧ c.cursor.toNat + 4 ≤ c.limit.val)) →
      step s = .fault (.exception { name := .instructionAccessFault, cause := 1, pc := c })) ∧
    ((c.valid = true ∧ (c.ctype = .linear ∨ c.ctype = .nonLinear) ∧ permLe 1#3 c.perms = true ∧
        c.base.toNat ≤ c.cursor.toNat ∧ c.cursor.toNat + 4 ≤ c.limit.val ∧ c.cursor.toNat % 4 ≠ 0) →
      step s = .fault (.exception { name := .instructionAddressMisaligned, cause := 0, pc := c }))

/-- R30: a step runs the decoded instruction. Where the capability in `pc` passes the check and the bytes it points to decode to
`i`, the step is `exec i`, then `pc.cursor` advances by 4 (past `2^XLEN - 1`: refused, R31). -/
def Obligations.StepRunsDecodedInstruction : Prop :=
  ∀ (s : State) (c : Cap) (w : InstrWord) (i : Instr), s.pc = .cap c → fetchCheck c = none →
    fetchReach s.cfg.variant c.cursor.toNat = true → s.mem.fetchWord c.cursor.toNat = some w →
    decode s.cfg.enc w = .ok i →
    (∀ t, exec i s = .next t → c.cursor.toNat + 4 < 2 ^ 64 →
      step s = .next { t with pc := .cap { c with cursor := c.cursor + 4#64 } }) ∧
    (∀ t, exec i s = .next t → 2 ^ 64 ≤ c.cursor.toNat + 4 → step s = .refused .pcWrap) ∧
    (∀ f, exec i s = .fault f → step s = .fault f) ∧
    (∀ r, exec i s = .refused r → step s = .refused r)

/-- R30, R121: every step that goes on started from a capability in `pc` that passes the fetch check, and leaves the same
capability with `cursor` 4 higher, without wrapping. -/
def Obligations.EveryStepAdvancesCursorByFour : Prop :=
  ∀ s t : State, step s = .next t →
    ∃ c, s.pc = .cap c ∧ fetchCheck c = none ∧ t.pc = .cap { c with cursor := c.cursor + 4#64 } ∧
      (c.cursor + 4#64).toNat = c.cursor.toNat + 4

/-- R32 (decisions D12, D13): an integer in `pc` is refused as the base ISA's fetch; in the hybrid variant a fetch that passes
the check but leaves `[SBASE, SEND)` is refused. -/
def Obligations.HybridFetchRefusals : Prop :=
  (∀ (s : State) (v : Word), s.pc = .int v → step s = .refused .baseIsaFetch) ∧
  (∀ (s : State) (c : Cap) (sbase : Word) (send : EndAddr), s.cfg.variant = .hybrid sbase send → s.pc = .cap c →
    fetchCheck c = none → ¬ (sbase.toNat ≤ c.cursor.toNat ∧ c.cursor.toNat + 4 ≤ send.val) →
    step s = .refused .fetchOutsideSecure)

/-- R81 (decision D9): a fetch from a granule that holds a capability is the fault `FetchTypeConfusion`; a fetch that passes the
check touches one granule. -/
def Obligations.FetchFromCapabilityGranuleFaults : Prop :=
  ∀ (s : State) (c : Cap), s.pc = .cap c → fetchCheck c = none → fetchReach s.cfg.variant c.cursor.toNat = true →
    (c.cursor.toNat + 3) / 16 = c.cursor.toNat / 16 ∧
    ((s.mem.capAt (c.cursor.toNat / 16)).isSome = true → step s = .fault (.fetchTypeConfusion c.cursor))

/-- R84, R91, R92: a word whose low seven bits are not `1011011` is refused as the base ISA's; a word of the extension's opcode
that matches no row of `ENC` is refused as unknown. -/
def Obligations.WordsOutsideEncodingRefused : Prop :=
  ∀ (s : State) (c : Cap) (w : InstrWord), s.pc = .cap c → fetchCheck c = none →
    fetchReach s.cfg.variant c.cursor.toNat = true → s.mem.fetchWord c.cursor.toNat = some w →
    (w.toNat % 128 ≠ 0x5B → step s = .refused (.baseIsaNotInScope w)) ∧
    (w.toNat % 128 = 0x5B → (∀ row ∈ s.cfg.enc, row.matchesWord w = false) →
      step s = .refused (.unknownCustom2 (.word w)))

/-! ## Memory -/

/-- R70, R79: the instruction word at an address has its low byte there and its high byte three addresses on. -/
def Obligations.InstructionWordIsLittleEndian : Prop :=
  ∀ (m : Memory) (a : Nat) (b0 b1 b2 b3 : Byte), a % 4 = 0 →
    m.byteAt a = some b0 → m.byteAt (a + 1) = some b1 → m.byteAt (a + 2) = some b2 → m.byteAt (a + 3) = some b3 →
    ∃ w, m.fetchWord a = some w ∧ w.extractLsb' 0 8 = b0 ∧ w.extractLsb' 8 8 = b1 ∧ w.extractLsb' 16 8 = b2 ∧
      w.extractLsb' 24 8 = b3

/-- R79: a raw read after a raw write of the same bytes gives the low bytes of the value; every other byte and every capability is
as before; each byte written is the value's byte, little-endian (decision D8). -/
def Obligations.RawReadAfterWrite : Prop :=
  ∀ (m m' : Memory) (a n v : Nat), n ≤ 8 → m.write a n v = some m' →
    m'.read a n = some (v % 256 ^ n) ∧
    (∀ k, k < n → m'.byteAt (a + k) = some (BitVec.ofNat 8 (v / 256 ^ k))) ∧
    (∀ j, (j < a ∨ a + n ≤ j) → m'.byteAt j = m.byteAt j) ∧
    (∀ g, m'.capAt g = m.capAt g)

/-- R65, R79: a raw access of 1 to 8 bytes fails exactly when one of its bytes lies in a granule that holds a capability. -/
def Obligations.RawAccessOfCapabilityGranuleFails : Prop :=
  ∀ (m : Memory) (a n v : Nat), 1 ≤ n → n ≤ 8 →
    (m.read a n = none ↔ ∃ k, k < n ∧ (m.capAt ((a + k) / 16)).isSome = true) ∧
    (m.write a n v = none ↔ ∃ k, k < n ∧ (m.capAt ((a + k) / 16)).isSome = true)

/-- R80, R66: a capability written at an aligned address is read back in every field, the bytes of its granule are gone, and every
other granule is as before. -/
def Obligations.CapabilityWriteThenRead : Prop :=
  ∀ (m : Memory) (a : Nat) (c : Cap), a % 16 = 0 →
    (m.writeCap a c).readCap a = some c ∧
    (∀ k, k < 16 → (m.writeCap a c).byteAt (a + k) = none) ∧
    (∀ g, g ≠ a / 16 → (m.writeCap a c).capAt g = m.capAt g) ∧
    (∀ j, (j < a ∨ a + 16 ≤ j) → (m.writeCap a c).byteAt j = m.byteAt j)

/-! ## Loads and stores -/

/-- R95 to R99: LDD, LDW, LDH, LDB complete where the access can (`canAccess`) and no touched granule holds a capability. The
destination receives an integer built from the bytes read, sign- or zero-extended as the free answer says; only the destination
and the authorising register (its capability's `cursor` alone, to what the free answer says) may change; all of memory and every
other register is as before. What `SEM` would settle is the model's free answer (notes/assumptions/6.md), the widths are the
mnemonics' (29.md). -/
def Obligations.DataLoadsComplete : Prop :=
  ∀ x ∈ dataLoads, ∀ (s : State) (ops : OperandForm) (v : Nat), s.canAccess x.1 ops x.2.1 →
    s.mem.read s.sem.addr.toNat x.2.1 = some v →
    ∃ t, exec (x.2.2 ops) s = .next t ∧
      (ops.rdField ≠ 0 → t.xint ops.rdField = .ok (if s.sem.signed = true
        then (BitVec.ofNat (8 * x.2.1) v).signExtend 64 else BitVec.ofNat 64 v)) ∧
      s.sameRegsBut t [ops.rdField, operandReg ops s.sem.auth] ∧
      (∀ a, operandReg ops s.sem.auth ≠ ops.rdField → s.regCell (operandReg ops s.sem.auth) = some (.cap a) →
        t.regCell (operandReg ops s.sem.auth) = some (.cap { a with cursor := s.sem.cursorAfter.getD a.cursor })) ∧
      (s.sem.cursorAfter = none → s.sameRegsBut t [ops.rdField]) ∧
      s.sameMemory t ∧ s.sameControl t ∧ t.pc = s.pc

/-- R95, R100 to R103: STD, STW, STH, STB complete where the access can, the data operand holds an integer and no touched
granule holds a capability. Exactly the bytes at the address of the answer are written, little-endian; only the authorising
register may change (its capability's `cursor` alone). What `SEM` would settle is the model's free answer
(notes/assumptions/6.md), the widths and the byte order are 29.md's. -/
def Obligations.DataStoresComplete : Prop :=
  ∀ x ∈ dataStores, ∀ (s : State) (ops : OperandForm) (v : Word), s.canAccess x.1 ops x.2.1 →
    s.xint (operandReg ops s.sem.data) = .ok v → s.mem.touchesCap s.sem.addr.toNat x.2.1 = false →
    ∃ t, exec (x.2.2 ops) s = .next t ∧
      (∀ k, k < x.2.1 → t.mem.byteAt (s.sem.addr.toNat + k) = some (BitVec.ofNat 8 (v.toNat / 256 ^ k))) ∧
      (∀ j, (j < s.sem.addr.toNat ∨ s.sem.addr.toNat + x.2.1 ≤ j) → t.mem.byteAt j = s.mem.byteAt j) ∧
      (∀ g, t.mem.capAt g = s.mem.capAt g) ∧
      (∀ a, s.regCell (operandReg ops s.sem.auth) = some (.cap a) →
        t.regCell (operandReg ops s.sem.auth) = some (.cap { a with cursor := s.sem.cursorAfter.getD a.cursor })) ∧
      s.sameRegsBut t [operandReg ops s.sem.auth] ∧ (s.sem.cursorAfter = none → s.sameRegsBut t []) ∧
      s.sameControl t ∧ t.pc = s.pc

/-- R104, R105: LDC completes where the access can, the address is a multiple of 16 and the granule holds a capability. The
destination receives that capability in every field, hidden stamp included; the granule keeps the capability, holds `cnull` in
its place, or holds the sixteen raw bytes of the free answer, as that answer says (notes/assumptions/9.md); the authorising
capability may change its `cursor` alone; every other granule is as before. What `SEM` would settle is the model's free answer
(notes/assumptions/6.md). -/
def Obligations.LoadCapabilityCompletes : Prop :=
  ∀ (s : State) (ops : OperandForm) (c : Cap), s.canAccess .ldc ops 16 → s.sem.addr.toNat % 16 = 0 →
    s.mem.capAt (s.sem.addr.toNat / 16) = some c →
    ∃ t, exec (.ldc ops) s = .next t ∧
      (ops.rdField ≠ 0 → t.xcap ops.rdField = .ok c) ∧
      s.sameRegsBut t [ops.rdField, operandReg ops s.sem.auth] ∧
      (∀ a, operandReg ops s.sem.auth ≠ ops.rdField → s.regCell (operandReg ops s.sem.auth) = some (.cap a) →
        t.regCell (operandReg ops s.sem.auth) = some (.cap { a with cursor := s.sem.cursorAfter.getD a.cursor })) ∧
      (s.sem.memLeft = .kept → s.sameMemory t) ∧
      (s.sem.memLeft = .null → t.mem.capAt (s.sem.addr.toNat / 16) = some cnull ∧
        ∀ k, k < 16 → t.mem.byteAt (s.sem.addr.toNat + k) = none) ∧
      (∀ b, s.sem.memLeft = .raw b → t.mem.capAt (s.sem.addr.toNat / 16) = none ∧
        ∀ k, k < 16 → t.mem.byteAt (s.sem.addr.toNat + k) = some (BitVec.ofNat 8 (b.toNat / 256 ^ k))) ∧
      (∀ j, (j < s.sem.addr.toNat ∨ s.sem.addr.toNat + 16 ≤ j) → t.mem.byteAt j = s.mem.byteAt j) ∧
      (∀ g, g ≠ s.sem.addr.toNat / 16 → t.mem.capAt g = s.mem.capAt g) ∧
      s.sameControl t ∧ t.pc = s.pc

/-- R104, R106: STC completes where the access can, the address is a multiple of 16 and the data operand reads as a capability.
The granule holds that capability whatever it held; only the authorising register (its `cursor` alone) and the stored register
may change: that one keeps the capability, or holds an integer or `cnull`, as the free answer says (notes/assumptions/9.md). Where
the two are one register that keeps its capability, it holds that one with the authority's `cursor` (notes/assumptions/10.md). What `SEM` would settle is the model's free answer (notes/assumptions/6.md). -/
def Obligations.StoreCapabilityCompletes : Prop :=
  ∀ (s : State) (ops : OperandForm) (c : Cap), s.canAccess .stc ops 16 → s.sem.addr.toNat % 16 = 0 →
    s.xcap (operandReg ops s.sem.data) = .ok c →
    ∃ t, exec (.stc ops) s = .next t ∧
      t.mem.capAt (s.sem.addr.toNat / 16) = some c ∧
      (∀ k, k < 16 → t.mem.byteAt (s.sem.addr.toNat + k) = none) ∧
      (∀ j, (j < s.sem.addr.toNat ∨ s.sem.addr.toNat + 16 ≤ j) → t.mem.byteAt j = s.mem.byteAt j) ∧
      (∀ g, g ≠ s.sem.addr.toNat / 16 → t.mem.capAt g = s.mem.capAt g) ∧
      s.sameRegsBut t [operandReg ops s.sem.auth, operandReg ops s.sem.data] ∧
      (∀ a, (operandReg ops s.sem.auth ≠ operandReg ops s.sem.data ∨ s.sem.regLeft = .kept) →
        s.regCell (operandReg ops s.sem.auth) = some (.cap a) →
        t.regCell (operandReg ops s.sem.auth) = some (.cap { a with cursor := s.sem.cursorAfter.getD a.cursor })) ∧
      (s.sem.regLeft = .kept → s.sameRegsBut t [operandReg ops s.sem.auth]) ∧
      (operandReg ops s.sem.data ≠ 0 →
        (∀ v, s.sem.regLeft = .int v → t.regCell (operandReg ops s.sem.data) = some (.int v)) ∧
        (s.sem.regLeft = .null → t.regCell (operandReg ops s.sem.data) = some (.cap cnull))) ∧
      s.sameControl t ∧ t.pc = s.pc

/-- R107, R108: LDCR completes in the hybrid variant where the raw access can, the address is a multiple of 16 and the granule
of the normal memory holds a capability, which the destination receives in every field. That a capability in the normal memory
keeps its kind is the MODEL'S CHOICE between the two readings of R107 (3) (notes/assumptions/33.md). What `SEM` and the MMU
would settle, what the granule holds afterwards among it, is the model's free answer (notes/assumptions/6.md, 9.md). -/
def Obligations.RawLoadCapabilityCompletes : Prop :=
  ∀ (s : State) (ops : OperandForm) (c : Cap), s.canAccessRaw .ldcr ops → s.sem.addr.toNat % 16 = 0 →
    s.mem.capAt (s.sem.addr.toNat / 16) = some c →
    ∃ t, exec (.ldcr ops) s = .next t ∧
      (ops.rdField ≠ 0 → t.xcap ops.rdField = .ok c) ∧
      s.sameRegsBut t [ops.rdField] ∧
      (s.sem.memLeft = .kept → s.sameMemory t) ∧
      (s.sem.memLeft = .null → t.mem.capAt (s.sem.addr.toNat / 16) = some cnull ∧
        ∀ k, k < 16 → t.mem.byteAt (s.sem.addr.toNat + k) = none) ∧
      (∀ b, s.sem.memLeft = .raw b → t.mem.capAt (s.sem.addr.toNat / 16) = none ∧
        ∀ k, k < 16 → t.mem.byteAt (s.sem.addr.toNat + k) = some (BitVec.ofNat 8 (b.toNat / 256 ^ k))) ∧
      (∀ j, (j < s.sem.addr.toNat ∨ s.sem.addr.toNat + 16 ≤ j) → t.mem.byteAt j = s.mem.byteAt j) ∧
      (∀ g, g ≠ s.sem.addr.toNat / 16 → t.mem.capAt g = s.mem.capAt g) ∧
      s.sameControl t ∧ t.pc = s.pc

/-- R107, R109: STCR completes in the hybrid variant where the raw access can, the address is a multiple of 16 and the data
operand reads as a capability. That the granule of the normal memory then HOLDS that capability, and no raw bytes, is the
MODEL'S CHOICE between the two readings of R107 (3), no free answer (notes/assumptions/33.md). The address, the MMU's checks and
what the stored register holds afterwards are the model's free answer (notes/assumptions/6.md, 9.md). -/
def Obligations.RawStoreCapabilityCompletes : Prop :=
  ∀ (s : State) (ops : OperandForm) (c : Cap), s.canAccessRaw .stcr ops → s.sem.addr.toNat % 16 = 0 →
    s.xcap (operandReg ops s.sem.data) = .ok c →
    ∃ t, exec (.stcr ops) s = .next t ∧
      t.mem.capAt (s.sem.addr.toNat / 16) = some c ∧
      (∀ k, k < 16 → t.mem.byteAt (s.sem.addr.toNat + k) = none) ∧
      (∀ j, (j < s.sem.addr.toNat ∨ s.sem.addr.toNat + 16 ≤ j) → t.mem.byteAt j = s.mem.byteAt j) ∧
      (∀ g, g ≠ s.sem.addr.toNat / 16 → t.mem.capAt g = s.mem.capAt g) ∧
      s.sameRegsBut t [operandReg ops s.sem.data] ∧
      (s.sem.regLeft = .kept → s.sameRegsBut t []) ∧
      (operandReg ops s.sem.data ≠ 0 →
        (∀ v, s.sem.regLeft = .int v → t.regCell (operandReg ops s.sem.data) = some (.int v)) ∧
        (s.sem.regLeft = .null → t.regCell (operandReg ops s.sem.data) = some (.cap cnull))) ∧
      s.sameControl t ∧ t.pc = s.pc

/-- R104 (1), R22, R80 (V12 (d) of the test vectors): after an STC that completes, an LDC of the same address into a register other
than `c0` that completes delivers the stored capability in every field, stamp included, whatever else the free answers say. -/
def Obligations.StoredCapabilityLoadsUnchanged : Prop :=
  ∀ (s t u : State) (ops ops' : OperandForm) (ans : SemAnswer), exec (.stc ops) s = .next t →
    ans.addr = s.sem.addr → ops'.rdField ≠ 0 → exec (.ldc ops') { t with sem := ans } = .next u →
    ∃ c, s.xcap (operandReg ops s.sem.data) = .ok c ∧ u.xcap ops'.rdField = .ok c

/-- R94, R107 (1), R112, R113: where `SEM` is not supplied for a mnemonic the instruction is refused by that name, CCSR.READ and
CCSR.WRITE where their constraint is met; LDCR and STCR are so refused in the pure variant whatever is supplied. -/
def Obligations.WithoutSemInstructionsAreRefused : Prop :=
  (∀ x ∈ capInstrs, ∀ (s : State) (ops : OperandForm), s.supplied x.1 = false →
    exec (x.2.2 ops) s = .refused (.semNotSupplied x.1)) ∧
  (∀ x ∈ rawInstrs, ∀ (s : State) (ops : OperandForm), (s.cfg.variant = .pure ∨ s.supplied x.1 = false) →
    exec (x.2 ops) s = .refused (.semNotSupplied x.1)) ∧
  (∀ (s : State) (i : RegIdx) (n : Imm) (r : AddedReg), ccsrNamed s.cfg.variant n = some r → r ≠ .cinit → r ≠ .epc →
    (s.readAllowed r = true → s.supplied .ccsrRead = false →
      exec (.ccsrRead i n) s = .refused (.semNotSupplied .ccsrRead)) ∧
    (s.writeAllowed r = true → s.supplied .ccsrWrite = false →
      exec (.ccsrWrite n i) s = .refused (.semNotSupplied .ccsrWrite)))

/-- R24, R95 (1), R107 (2), R125, R139: with `SEM` supplied, an authorising operand that holds an integer is a confusion of type
(for LDCR and STCR: an address operand that holds a capability); where it holds the right kind and the authorising capability is
invalid or the lost checks fail, the instruction faults without a code. The fault is the model's `accessCheck`
(notes/assumptions/11.md), that an invalid capability authorises nothing is 39.md's, that these tests come before the others is
the model's choice (38.md). -/
def Obligations.AuthorityIsChecked : Prop :=
  (∀ x ∈ capInstrs, ∀ (s : State) (ops : OperandForm), s.supplied x.1 = true →
    (∀ v, s.regCell (operandReg ops s.sem.auth) = some (.int v) →
      exec (x.2.2 ops) s = .fault (.regTypeConfusion (operandReg ops s.sem.auth))) ∧
    (∀ c, s.xcap (operandReg ops s.sem.auth) = .ok c → (c.valid = false ∨ s.sem.completes = false) →
      exec (x.2.2 ops) s = .fault (.accessCheck x.1))) ∧
  (∀ x ∈ rawInstrs, ∀ (s : State) (ops : OperandForm), s.supplied x.1 = true → hasMmu s.cfg.variant = true →
    (∀ c, s.regCell (operandReg ops s.sem.auth) = some (.cap c) →
      exec (x.2 ops) s = .fault (.regTypeConfusion (operandReg ops s.sem.auth))) ∧
    (∀ v, s.xint (operandReg ops s.sem.auth) = .ok v → s.sem.completes = false →
      exec (x.2 ops) s = .fault (.accessCheck x.1)))

/-- R64, R65, R95 (3), (4), R100, R104 (2), (5) (V12 (c), (f)): a raw load or store that touches a capability granule does not
complete; a raw store of a register that holds a capability does not complete; LDC of a raw granule does not complete; LDC and STC
at an address that is no multiple of 16 do not complete; a capability store of an integer register does not complete. That LDCR of
a raw granule, and LDCR and STCR off a multiple of 16, do not complete is the MODEL'S CHOICE: it holds under the first of the two
readings of R107 (3), on which R107 (4) is conditional (notes/assumptions/33.md). That a raw store onto a capability granule does not
complete is decision D7's (32.md). The address and the operand roles are the model's free answer (6.md, 8.md). -/
def Obligations.ConfusedAccessesNeverComplete : Prop :=
  (∀ x ∈ dataLoads ++ dataStores, ∀ (s t : State) (ops : OperandForm) (k : Nat), k < x.2.1 →
    (s.mem.capAt ((s.sem.addr.toNat + k) / 16)).isSome = true → exec (x.2.2 ops) s ≠ .next t) ∧
  (∀ x ∈ dataStores, ∀ (s t : State) (ops : OperandForm) (c : Cap),
    s.regCell (operandReg ops s.sem.data) = some (.cap c) → exec (x.2.2 ops) s ≠ .next t) ∧
  (∀ (s t : State) (ops : OperandForm), s.mem.capAt (s.sem.addr.toNat / 16) = none →
    exec (.ldc ops) s ≠ .next t ∧ exec (.ldcr ops) s ≠ .next t) ∧
  (∀ (s t : State) (ops : OperandForm), s.sem.addr.toNat % 16 ≠ 0 →
    exec (.ldc ops) s ≠ .next t ∧ exec (.stc ops) s ≠ .next t ∧ exec (.ldcr ops) s ≠ .next t ∧
    exec (.stcr ops) s ≠ .next t) ∧
  (∀ (s t : State) (ops : OperandForm) (v : Word), s.regCell (operandReg ops s.sem.data) = some (.int v) →
    exec (.stc ops) s ≠ .next t ∧ exec (.stcr ops) s ≠ .next t)

/-- R67, R68, R95 (2), R104 (4), R107 (2) (V12 (a), (b)): an instruction that reaches memory through capabilities and completes
has every byte of its access in the memory it may reach, and LDCR and STCR complete outside the secure memory only. The address
is the model's free answer (notes/assumptions/6.md), the outcome outside the reach is 12.md's. -/
def Obligations.CompletedAccessesAreInReach : Prop :=
  (∀ x ∈ capInstrs, ∀ (s t : State) (ops : OperandForm), exec (x.2.2 ops) s = .next t →
    s.sem.addr.toNat + x.2.1 ≤ 2 ^ 64 ∧
    (∀ sbase send, s.cfg.variant = .hybrid sbase send →
      sbase.toNat ≤ s.sem.addr.toNat ∧ s.sem.addr.toNat + x.2.1 ≤ send.val)) ∧
  (∀ x ∈ rawInstrs, ∀ (s t : State) (ops : OperandForm), exec (x.2 ops) s = .next t →
    ∃ sbase send, s.cfg.variant = .hybrid sbase send ∧
      (s.sem.addr.toNat + 16 ≤ sbase.toNat ∨ (send.val ≤ s.sem.addr.toNat ∧ s.sem.addr.toNat + 16 ≤ 2 ^ 64)))

/-! ## CCSRs -/

/-- R114, R54, R40: the first read of `cinit`, in the pure variant or in the normal world, completes: the initial capability goes to
the destination, `cinit_read` is set, nothing else changes; into `c0` only `cinit_read` is set. -/
def Obligations.FirstCinitReadDelivers : Prop :=
  ∀ (s : State) (rd : RegIdx), s.cinitRead = false → (s.cfg.variant = .pure ∨ s.cwrld = .normal) →
    exec (.ccsrReadCinit rd) s = .next { s.writeReg rd (.cap s.cinit) with cinitRead := true } ∧
    (rd ≠ 0 → (s.writeReg rd (.cap s.cinit)).xcap rd = .ok s.cinit) ∧
    (∀ j, j ≠ rd → (s.writeReg rd (.cap s.cinit)).regCell j = s.regCell j) ∧
    (rd = 0 → exec (.ccsrReadCinit rd) s = .next { s with cinitRead := true })

/-- R54, R114, R115: "Any attempt to write `cinit` or read it for the second time will be silently ignored": both complete and
change nothing (that `rd` keeps its content is the spec's decision D25). -/
def Obligations.CinitWriteAndLaterReadIgnored : Prop :=
  ∀ (s : State) (r : RegIdx),
    exec (.ccsrWriteCinit r) s = .next s ∧ (s.cinitRead = true → exec (.ccsrReadCinit r) s = .next s)

/-- R114 (3) (decision D24): in the hybrid variant's secure world a first read of `cinit` is the fault `CcsrConstraint`. -/
def Obligations.SecureWorldFirstCinitReadFaults : Prop :=
  ∀ (s : State) (rd : RegIdx) (sbase : Word) (send : EndAddr), s.cfg.variant = .hybrid sbase send → s.cwrld = .secure →
    s.cinitRead = false → exec (.ccsrReadCinit rd) s = .fault (.ccsrConstraint .cinit .read)

/-- R115, R30: a step that fetches a write of `cinit` changes `pc` alone. -/
def Obligations.CinitWriteStepsAsNoOperation : Prop :=
  ∀ (s : State) (c : Cap) (w : InstrWord) (rs1 : RegIdx), s.fetch = .ok (c, w) →
    decode s.cfg.enc w = .ok (.ccsrWriteCinit rs1) → c.cursor.toNat + 4 < 2 ^ 64 →
    step s = .next { s with pc := .cap { c with cursor := c.cursor + 4#64 } }

/-- R112: a read of a CCSR other than `cinit` and `epc` whose constraint is met, with `SEM` supplied, completes: the content goes to
the destination, value preserved. An integer stays in the CCSR too; what `ceh` or `deh` holds after a capability was read out of it is
the free answer's (notes/assumptions/9.md). `switch_cap` keeps its capability or holds `cnull` there: `cnull` also where the free
answer leaves an integer, which is the MODEL'S CHOICE (25.md). Everything else is as before. -/
def Obligations.CcsrReadDeliversContent : Prop :=
  ∀ (s : State) (rd : RegIdx) (n : Imm) (r : AddedReg), ccsrNamed s.cfg.variant n = some r → r ≠ .cinit → r ≠ .epc →
    s.readAllowed r = true → s.supplied .ccsrRead = true →
    ∃ t, exec (.ccsrRead rd n) s = .next t ∧
      (rd ≠ 0 → t.regCell rd = some (s.getCcsr r)) ∧ s.sameRegsBut t [rd] ∧
      ((s.getCcsr r).isCap = false ∨ s.sem.regLeft = .kept → s.sameCcsrs t) ∧
      (∀ c, s.getCcsr r = .cap c →
        (∀ v, s.sem.regLeft = .int v → t.getCcsr r = if r = .switchCap then .cap cnull else .int v) ∧
        (s.sem.regLeft = .null → t.getCcsr r = .cap cnull)) ∧
      (r ≠ .ceh → t.ceh = s.ceh) ∧ (r ≠ .deh → t.deh = s.deh) ∧ t.cih = s.cih ∧ (r ≠ .switchCap → t.switchCap = s.switchCap) ∧
      s.sameMemory t ∧ s.sameBackground t ∧ t.cinitRead = s.cinitRead ∧ t.pc = s.pc

/-- R113: a write of `ceh`, `deh` or `cih` whose constraint is met, with `SEM` supplied, completes: the CCSR holds the content of the
source, value preserved (`x0` reads as an integer or as a capability, as the free answer says, R26). A source that holds an integer
keeps it; what a register holds after a capability was moved out of it is the free answer's (notes/assumptions/9.md). Everything
else is as before. -/
def Obligations.CcsrWriteStoresContent : Prop :=
  ∀ (s : State) (rs1 : RegIdx) (n : Imm) (r : AddedReg), ccsrNamed s.cfg.variant n = some r → r ≠ .cinit → r ≠ .epc →
    r ≠ .switchCap → s.writeAllowed r = true → s.supplied .ccsrWrite = true →
    ∃ t, exec (.ccsrWrite n rs1) s = .next t ∧
      t.getCcsr r = s.content rs1 s.sem.x0AsCap ∧ s.sameRegsBut t [rs1] ∧
      ((s.content rs1 s.sem.x0AsCap).isCap = false ∨ s.sem.regLeft = .kept → s.sameRegsBut t []) ∧
      (∀ c, rs1 ≠ 0 → s.content rs1 s.sem.x0AsCap = .cap c →
        (∀ v, s.sem.regLeft = .int v → t.regCell rs1 = some (.int v)) ∧
        (s.sem.regLeft = .null → t.regCell rs1 = some (.cap cnull))) ∧
      (r ≠ .ceh → t.ceh = s.ceh) ∧ (r ≠ .deh → t.deh = s.deh) ∧ (r ≠ .cih → t.cih = s.cih) ∧ t.switchCap = s.switchCap ∧
      s.sameMemory t ∧ s.sameBackground t ∧ t.cinitRead = s.cinitRead ∧ t.pc = s.pc

/-- R113, R48, R55: in the hybrid variant's normal world, with `SEM` supplied, a write of `switch_cap` (number 5) from a register that
reads as a capability completes and stores it; from a register that holds an integer it is a confusion of type (that `switch_cap`
takes capabilities only is the model's reading of "described only as a capability", notes/assumptions/25.md). What the source
register holds afterwards, the capability, an integer or `cnull`, is not in the source (R113): it is the model's free answer
(notes/assumptions/6.md, 9.md). -/
def Obligations.SwitchCapTakesCapabilities : Prop :=
  ∀ (s : State) (rs1 : RegIdx) (sbase : Word) (send : EndAddr), s.cfg.variant = .hybrid sbase send → s.cwrld = .normal →
    s.supplied .ccsrWrite = true →
    (∀ c, s.xcap rs1 = .ok c → ∃ t, exec (.ccsrWrite 5#12 rs1) s = .next t ∧ t.switchCap = c ∧
      s.sameRegsBut t [rs1] ∧ (s.sem.regLeft = .kept → s.sameRegsBut t []) ∧
      (rs1 ≠ 0 → (∀ v, s.sem.regLeft = .int v → t.regCell rs1 = some (.int v)) ∧
        (s.sem.regLeft = .null → t.regCell rs1 = some (.cap cnull))) ∧
      t.ceh = s.ceh ∧ t.deh = s.deh ∧ t.cih = s.cih ∧
      s.sameMemory t ∧ s.sameBackground t ∧ t.cinitRead = s.cinitRead ∧ t.pc = s.pc) ∧
    (∀ v, s.regCell rs1 = some (.int v) → exec (.ccsrWrite 5#12 rs1) s = .fault (.regTypeConfusion rs1))

/-- R111, R51 to R53, R55: the constraints of the CCSRs in the pure variant and in each world of the hybrid variant (`switch_cap` is
the hybrid variant's only, `cih` the pure variant's only). -/
def Obligations.CcsrConstraintsByVariantAndWorld : Prop :=
  ∀ s : State,
    (s.cfg.variant = .pure →
      s.readAllowed .ceh = true ∧ s.writeAllowed .ceh = true ∧ s.readAllowed .deh = true ∧ s.writeAllowed .deh = true ∧
      s.readAllowed .cih = false ∧ (s.writeAllowed .cih = true ↔ ∀ c, s.cih ≠ .cap c) ∧
      s.readAllowed .switchCap = false ∧ s.writeAllowed .switchCap = false) ∧
    (∀ sbase send, s.cfg.variant = .hybrid sbase send → s.cwrld = .normal →
      s.readAllowed .ceh = false ∧ s.writeAllowed .ceh = false ∧ s.readAllowed .deh = false ∧ s.writeAllowed .deh = false ∧
      s.readAllowed .switchCap = true ∧ s.writeAllowed .switchCap = true) ∧
    (∀ sbase send, s.cfg.variant = .hybrid sbase send → s.cwrld = .secure →
      s.readAllowed .ceh = true ∧ s.writeAllowed .ceh = true ∧ s.readAllowed .deh = true ∧ s.writeAllowed .deh = true ∧
      s.readAllowed .switchCap = false ∧ s.writeAllowed .switchCap = false)

/-- R111, R112, R113, R57 (decisions D24, D26, D31): a constraint that is not met is the fault `CcsrConstraint`, an access to `epc` is
refused, a number that names no register of the variant is refused. -/
def Obligations.ForbiddenCcsrAccessesStop : Prop :=
  ∀ (s : State) (n : Imm) (i : RegIdx),
    (∀ r, ccsrNamed s.cfg.variant n = some r → r ≠ .cinit → r ≠ .epc →
      (s.readAllowed r = false → exec (.ccsrRead i n) s = .fault (.ccsrConstraint r .read)) ∧
      (s.writeAllowed r = false → exec (.ccsrWrite n i) s = .fault (.ccsrConstraint r .write))) ∧
    (ccsrNamed s.cfg.variant n = some .epc →
      exec (.ccsrRead i n) s = .refused (.csrAccessNotInSource .epc) ∧
      exec (.ccsrWrite n i) s = .refused (.csrAccessNotInSource .epc)) ∧
    (ccsrNamed s.cfg.variant n = none →
      exec (.ccsrRead i n) s = .refused (.unknownCustom2 (.ccsrNumber n)) ∧
      exec (.ccsrWrite n i) s = .refused (.unknownCustom2 (.ccsrNumber n)))

/-- R110, R112 to R115: the combined CCSR access, "the read part followed by the write part, each under its own constraint". With `SEM`
supplied for both parts it completes where the CCSR may be read: the old content goes to the destination and the source's content to
the CCSR; on `cinit` it is the first read alone, the write part being ignored. A part that is not allowed, has no `SEM` or names no
register stops it, and so does an integer for `switch_cap` (that `switch_cap` takes capabilities only is notes/assumptions/25.md's).
That no word performs it, and that the write part takes the value just read where `rs1` is `rd`, are the model's choice (40.md); what
`rs1` holds afterwards is the free answer of the write part (6.md, 9.md). -/
def Obligations.CombinedCcsrReadsThenWrites : Prop :=
  (∀ (s : State) (rd rs1 : RegIdx) (n : Imm) (r : AddedReg) (v : Cell), ccsrNamed s.cfg.variant n = some r → r ≠ .cinit →
    r ≠ .epc → s.readAllowed r = true → s.supplied .ccsrRead = true → s.supplied .ccsrWrite = true →
    (rs1 = rd ∧ rd ≠ 0 ∧ v = s.getCcsr r) ∨ ((rs1 ≠ rd ∨ rd = 0) ∧ s.redraw.ccsrSource r rs1 = .ok v) →
    ∃ t, s.combinedCcsr rd n rs1 = .next t ∧ t.getCcsr r = v ∧ s.sameRegsBut t [rd, rs1] ∧
      (rd ≠ 0 → (rs1 ≠ rd ∨ v.isCap = false ∨ s.redraw.sem.regLeft = .kept) → t.regCell rd = some (s.getCcsr r)) ∧
      (v.isCap = false ∨ s.redraw.sem.regLeft = .kept → s.sameRegsBut t [rd]) ∧
      (∀ c, rs1 ≠ 0 → v = .cap c →
        (∀ w, s.redraw.sem.regLeft = .int w → t.regCell rs1 = some (.int w)) ∧
        (s.redraw.sem.regLeft = .null → t.regCell rs1 = some (.cap cnull))) ∧
      (r ≠ .ceh → t.ceh = s.ceh) ∧ (r ≠ .deh → t.deh = s.deh) ∧ t.cih = s.cih ∧ (r ≠ .switchCap → t.switchCap = s.switchCap) ∧
      s.sameMemory t ∧ s.sameBackground t ∧ t.cinitRead = s.cinitRead ∧ t.pc = s.pc) ∧
  (∀ (s : State) (rd rs1 : RegIdx) (n : Imm) (r : AddedReg), ccsrNamed s.cfg.variant n = some r → r ≠ .cinit → r ≠ .epc →
    (s.readAllowed r = false → s.combinedCcsr rd n rs1 = .fault (.ccsrConstraint r .read)) ∧
    (s.readAllowed r = true → s.supplied .ccsrRead = false →
      s.combinedCcsr rd n rs1 = .refused (.semNotSupplied .ccsrRead)) ∧
    (s.readAllowed r = true → s.supplied .ccsrRead = true → s.supplied .ccsrWrite = false →
      s.combinedCcsr rd n rs1 = .refused (.semNotSupplied .ccsrWrite)) ∧
    (s.readAllowed r = true → s.supplied .ccsrRead = true → s.supplied .ccsrWrite = true → r = .switchCap → rs1 ≠ rd →
      (∀ w, s.regCell rs1 = some (.int w) → s.combinedCcsr rd n rs1 = .fault (.regTypeConfusion rs1)))) ∧
  (∀ (s : State) (rd rs1 : RegIdx) (n : Imm), ccsrNamed s.cfg.variant n = some .cinit →
    (s.cinitRead = true → s.combinedCcsr rd n rs1 = .next s) ∧
    (s.cinitRead = false → s.readAllowed .cinit = true →
      s.combinedCcsr rd n rs1 = .next { s.writeReg rd (.cap s.cinit) with cinitRead := true }) ∧
    (s.cinitRead = false → s.readAllowed .cinit = false →
      s.combinedCcsr rd n rs1 = .fault (.ccsrConstraint .cinit .read))) ∧
  (∀ (s : State) (rd rs1 : RegIdx) (n : Imm),
    (ccsrNamed s.cfg.variant n = some .epc → s.combinedCcsr rd n rs1 = .refused (.csrAccessNotInSource .epc)) ∧
    (ccsrNamed s.cfg.variant n = none → s.combinedCcsr rd n rs1 = .refused (.unknownCustom2 (.ccsrNumber n))))

/-- R34, R35, R59: the CCSR numbers of each variant; the numbers of the tables name what the tables say and no other number names
anything. -/
def Obligations.CcsrNumbersNameTheTablesRegisters : Prop :=
  (∀ n : Imm, ccsrNamed .pure n =
    if n = 0#12 then some .ceh else if n = 1#12 then some .deh else if n = 2#12 then some .cih
    else if n = 3#12 then some .epc else if n = 0x10#12 then some .cinit else none) ∧
  (∀ (sbase : Word) (send : EndAddr) (n : Imm), ccsrNamed (.hybrid sbase send) n =
    if n = 0#12 then some .ceh else if n = 1#12 then some .deh else if n = 3#12 then some .epc
    else if n = 5#12 then some .switchCap else if n = 0x10#12 then some .cinit else none) ∧
  (∀ n : Imm, csrNamed .pure n =
    if n = 0#12 then some .cis else if n = 1#12 then some .tval else if n = 2#12 then some .cause else none) ∧
  (∀ (sbase : Word) (send : EndAddr) (n : Imm), csrNamed (.hybrid sbase send) n =
    if n = 1#12 then some .tval else if n = 2#12 then some .cause else none)

/-- R56, R57, R117, R34, R35: the abstract accesses to the added CSRs in both variants. In the pure variant `cis` is read and written
while `cih` is not a capability and is the fault `CcsrConstraint` otherwise; `tval` and `cause` are refused in either variant; number
0 names nothing in the hybrid variant, and no number above 2 names anything (that a write stores the integer is the model's reading,
notes/assumptions/28.md). -/
def Obligations.CsrAccessFollowsCih : Prop :=
  ∀ (s : State) (i : RegIdx),
    (s.cfg.variant = .pure →
      (s.cih.isCap = false → s.csrRead i 0#12 = .next (s.writeReg i (.int s.cis)) ∧
        ∀ v, s.xint i = .ok v → s.csrWrite 0#12 i = .next { s with cis := v }) ∧
      (s.cih.isCap = true → s.csrRead i 0#12 = .fault (.ccsrConstraint .cis .read) ∧
        s.csrWrite 0#12 i = .fault (.ccsrConstraint .cis .write))) ∧
    (∀ sbase send, s.cfg.variant = .hybrid sbase send →
      s.csrRead i 0#12 = .refused (.unknownCustom2 (.csrNumber 0#12)) ∧
      s.csrWrite 0#12 i = .refused (.unknownCustom2 (.csrNumber 0#12))) ∧
    (s.csrRead i 1#12 = .refused (.csrAccessNotInSource .tval) ∧ s.csrWrite 1#12 i = .refused (.csrAccessNotInSource .tval) ∧
      s.csrRead i 2#12 = .refused (.csrAccessNotInSource .cause) ∧ s.csrWrite 2#12 i = .refused (.csrAccessNotInSource .cause)) ∧
    (∀ n : Imm, 2 < n.toNat → s.csrRead i n = .refused (.unknownCustom2 (.csrNumber n)) ∧
      s.csrWrite n i = .refused (.unknownCustom2 (.csrNumber n)))

/-! ## What every step keeps -/

/-- R53 (the spec's inference "`cih` is in effect write-once"): once `cih` holds a capability, valid or not, every step leaves that
capability in it. -/
def Obligations.EveryStepKeepsInstalledCih : Prop :=
  ∀ (s t : State) (c : Cap), s.cih = .cap c → step s = .next t → t.cih = .cap c

/-- R54, R61 (1): no step changes `cinit`, and `cinit_read` is never cleared; it is set only by a step whose instruction is a read of
`cinit`. -/
def Obligations.CinitIsReadAtMostOnce : Prop :=
  ∀ s t : State, step s = .next t →
    t.cinit = s.cinit ∧ (s.cinitRead = true → t.cinitRead = true) ∧
    (s.cinitRead = false → t.cinitRead = true →
      ∃ c w rd, s.fetch = .ok (c, w) ∧ decode s.cfg.enc w = .ok (.ccsrReadCinit rd))

/-- R57, R58, R132, R134, R20 and the configuration (R3): no step writes `epc`, `cis`, `tval`, `cause`, the registers without a
number (the world among them), `cinit`, the creation counter or the configuration. -/
def Obligations.EveryStepKeepsUnnumberedState : Prop :=
  ∀ s t : State, step s = .next t → s.sameBackground t

/-- R138 `LaunchWellFormed`, R66, R28: every step keeps memory in its canonical form and, in the pure variant, a capability in
`pc`. The canonical form is the model's (notes/assumptions/13.md). -/
def Obligations.EveryStepKeepsWellFormed : Prop :=
  ∀ s t : State, s.wellFormed → step s = .next t → t.wellFormed

/-- R62, R138: the reset state is well formed, under every configuration. The reset values are the model's
(notes/assumptions/13.md to 15.md). -/
def Obligations.ResetIsWellFormed : Prop :=
  (∀ cfg : Config, (State.resetWith cfg).wellFormed) ∧ State.reset.wellFormed

/-- R138 `LaunchSecureCaps`, R68: in the hybrid variant, if every valid capability of the first four types lies inside the
secure memory before a step, it does after. What is left at the source of a move is the model's (notes/assumptions/9.md). -/
def Obligations.EveryStepKeepsCapabilitiesInsideSecureMemory : Prop :=
  ∀ s t : State, s.secureCaps → step s = .next t → t.secureCaps

/-- R40, R62, R138: at reset every valid capability lies inside the secure memory, and `AtReset` holds, under every configuration
(that the registers the spec leaves open hold no capability is the model's choice within R62, notes/assumptions/14.md). -/
def Obligations.ResetMeetsLaunchPremises : Prop :=
  ∀ cfg : Config, (State.resetWith cfg).secureCaps ∧ (State.resetWith cfg).atReset

/-- R136, R22 (b): no step makes authority. Every capability in the state after a step is `cnull` or equals, but for its cursor, a
capability that stood in the state before (rests on the residues of notes/assumptions/9.md). -/
def Obligations.NoStepMakesAuthority : Prop :=
  ∀ (s t : State) (c : Cap), step s = .next t → t.holds c → c = cnull ∨ ∃ d, s.holds d ∧ c.sameAuthority d

/-- R139 (1), R62 (the spec's inference): at reset no capability a program can reach is valid; while that is so and `cinit` stays
unread, every step keeps it so, and in the pure variant leaves all of memory as it is. That an invalid capability authorises nothing
is notes/assumptions/39.md's reading, what a move leaves behind is 9.md's, the reset values are 14.md's. -/
def Obligations.NoProgramCapabilityBeforeCinitRead : Prop :=
  (∀ cfg : Config, (State.resetWith cfg).noProgramCap) ∧
  (∀ s t : State, s.noProgramCap → step s = .next t → t.cinitRead = false →
    t.noProgramCap ∧ (s.cfg.variant = .pure → s.sameMemory t)) ∧
  (∀ x ∈ capInstrs, ∀ (s t : State) (ops : OperandForm), s.noProgramCap → exec (x.2.2 ops) s ≠ .next t)

/-- R68, R107: in the hybrid variant a step whose instruction is not LDCR or STCR leaves every byte and capability of the normal
memory, and a step whose instruction is one of the two leaves every byte and capability of the secure memory (`SBASE`, `SEND`
multiples of 16, premise `LaunchConfig`). The outcome outside the reach is the model's (notes/assumptions/12.md). -/
def Obligations.EachMemoryChangesOnlyByItsInstructions : Prop :=
  ∀ (s t : State) (c : Cap) (w : InstrWord) (i : Instr) (sbase : Word) (send : EndAddr),
    s.cfg.variant = .hybrid sbase send → s.cfg.variant.wf = true →
    s.fetch = .ok (c, w) → decode s.cfg.enc w = .ok i → step s = .next t →
    ∀ j : Nat,
      ((i.mnemonic ≠ .ldcr ∧ i.mnemonic ≠ .stcr) → (j < sbase.toNat ∨ send.val ≤ j) →
        t.mem.byteAt j = s.mem.byteAt j ∧ t.mem.capAt (j / 16) = s.mem.capAt (j / 16)) ∧
      ((i.mnemonic = .ldcr ∨ i.mnemonic = .stcr) → (sbase.toNat ≤ j ∧ j < send.val) →
        t.mem.byteAt j = s.mem.byteAt j ∧ t.mem.capAt (j / 16) = s.mem.capAt (j / 16))

/-! ## Encoding -/

/-- R84, R86, R87, R89, R90: under every unambiguous `ENC`, its CCSR rows of either format, each well-formed instruction has a
word, whose low seven bits are `1011011`, and the decoder reads the instruction back from it, with every operand. Where a CCSR
number stands is the row's (notes/assumptions/4.md), where the fields stand is the family's (5.md). -/
def Obligations.DecodeReadsBackEveryEncoding : Prop :=
  ∀ (enc : Enc) (i : Instr), Enc.wf enc = true → i.wf enc = true →
    ∃ w, encode enc i = some w ∧ w.toNat % 128 = 0x5B ∧ decode enc w = .ok i

/-- R89, R90: what the decoder reads is well formed, under an unambiguous `ENC` with one row for each name. Which instructions
are well formed is the model's `wf` (notes/assumptions/4.md, 5.md). -/
def Obligations.DecodedInstructionsAreWellFormed : Prop :=
  ∀ (enc : Enc) (w : InstrWord) (i : Instr), Enc.wf enc = true → enc.Pairwise (fun a b => a.mnem ≠ b.mnem) →
    decode enc w = .ok i → i.wf enc = true ∧ opcodeOf w = custom2

/-- All thirteen encoded examples of the test configuration T0 (`95_test_vectors.md` section 4; not the hardware's encoding), from
their bytes in memory order; then V7's unknown word and V8's word stored big-endian, each refused by its name. -/
def Obligations.TestWordsDecodeAsListed : Prop :=
  decodeBytes Enc.t0 [0x5B#8, 0x05#8, 0x00#8, 0x01#8] = .ok (.ccsrReadCinit 10, []) ∧
  decodeBytes Enc.t0 [0xDB#8, 0x05#8, 0x00#8, 0x01#8] = .ok (.ccsrReadCinit 11, []) ∧
  decodeBytes Enc.t0 [0x5B#8, 0x00#8, 0x00#8, 0x01#8] = .ok (.ccsrReadCinit 0, []) ∧
  decodeBytes Enc.t0 [0x5B#8, 0x90#8, 0x03#8, 0x01#8] = .ok (.ccsrWriteCinit 7, []) ∧
  decodeBytes Enc.t0 [0x5B#8, 0x10#8, 0x00#8, 0x01#8] = .ok (.ccsrWriteCinit 0, []) ∧
  decodeBytes Enc.t0 [0xDB#8, 0x02#8, 0x00#8, 0x00#8] = .ok (.ccsrRead 5 0x000#12, []) ∧
  decodeBytes Enc.t0 [0x5B#8, 0x90#8, 0x02#8, 0x00#8] = .ok (.ccsrWrite 0x000#12 5, []) ∧
  decodeBytes Enc.t0 [0xDB#8, 0x02#8, 0x20#8, 0x00#8] = .ok (.ccsrRead 5 0x002#12, []) ∧
  decodeBytes Enc.t0 [0x5B#8, 0x10#8, 0x23#8, 0x00#8] = .ok (.ccsrWrite 0x002#12 6, []) ∧
  decodeBytes Enc.t0 [0xDB#8, 0x02#8, 0x30#8, 0x00#8] = .ok (.ccsrRead 5 0x003#12, []) ∧
  decodeBytes Enc.t0 [0xDB#8, 0x02#8, 0x40#8, 0x00#8] = .ok (.ccsrRead 5 0x004#12, []) ∧
  decodeBytes Enc.t0 [0xDB#8, 0x02#8, 0x50#8, 0x00#8] = .ok (.ccsrRead 5 0x005#12, []) ∧
  decodeBytes Enc.t0 [0xDB#8, 0x02#8, 0xF0#8, 0xFF#8] = .ok (.ccsrRead 5 0xFFF#12, []) ∧
  decodeBytes Enc.t0 [0x5B#8, 0x70#8, 0x00#8, 0x00#8] = .error (.unknownCustom2 0x0000705B#32) ∧
  decodeBytes Enc.t0 [0x01#8, 0x00#8, 0x05#8, 0x5B#8] = .error (.baseIsa 0x5B050001#32)

/-- R89: no word matches two rows of the test configuration, nor of the model's own encoding (the model's choice,
notes/assumptions/3.md). -/
def Obligations.ConfiguredEncodingsAreUnambiguous : Prop :=
  Enc.wf Enc.t0 = true ∧ Enc.wf Enc.model = true
end

