-- ==== Sys2Proof/Laws/Decode.lean ====
section
/-! SUPPORT. The fields of a word built by `mkWord`, and which row of an unambiguous `ENC` a word selects. -/

namespace Sys2Proof

section Fields
variable (hi : BitVec 12) (rs1 : RegIdx) (f3 : BitVec 3) (rd : RegIdx)

theorem mkWord_toNat : (mkWord hi rs1 f3 rd).toNat =
    hi.toNat * 2 ^ 20 + rs1.val * 2 ^ 15 + f3.toNat * 2 ^ 12 + rd.val * 2 ^ 7 + 0x5B := by
  have h1 := hi.isLt
  have h2 := rs1.isLt
  have h3 := f3.isLt
  have h4 := rd.isLt
  simp only [mkWord, BitVec.toNat_append, BitVec.toNat_ofFin]
  rw [← Nat.shiftLeft_add_eq_or_of_lt (by omega), ← Nat.shiftLeft_add_eq_or_of_lt (by omega),
    ← Nat.shiftLeft_add_eq_or_of_lt (by omega), ← Nat.shiftLeft_add_eq_or_of_lt (by omega)]
  simp only [Nat.shiftLeft_eq]
  simp
  omega

@[simp] theorem opcodeOf_mkWord : opcodeOf (mkWord hi rs1 f3 rd) = custom2 := by
  apply BitVec.eq_of_toNat_eq
  simp only [opcodeOf, BitVec.extractLsb'_toNat, mkWord_toNat, Nat.shiftRight_eq_div_pow]
  simp
  omega

@[simp] theorem rdOf_mkWord : rdOf (mkWord hi rs1 f3 rd) = rd := by
  apply Fin.ext
  have h4 := rd.isLt
  simp only [rdOf, BitVec.val_toFin, BitVec.extractLsb'_toNat, mkWord_toNat, Nat.shiftRight_eq_div_pow]
  omega

@[simp] theorem funct3Of_mkWord : funct3Of (mkWord hi rs1 f3 rd) = f3 := by
  apply BitVec.eq_of_toNat_eq
  have h3 := f3.isLt
  have h4 := rd.isLt
  simp only [funct3Of, BitVec.extractLsb'_toNat, mkWord_toNat, Nat.shiftRight_eq_div_pow]
  omega

@[simp] theorem rs1Of_mkWord : rs1Of (mkWord hi rs1 f3 rd) = rs1 := by
  apply Fin.ext
  have h2 := rs1.isLt
  have h3 := f3.isLt
  have h4 := rd.isLt
  simp only [rs1Of, BitVec.val_toFin, BitVec.extractLsb'_toNat, mkWord_toNat, Nat.shiftRight_eq_div_pow]
  omega

@[simp] theorem immOf_mkWord : immOf (mkWord hi rs1 f3 rd) = hi := by
  apply BitVec.eq_of_toNat_eq
  have h1 := hi.isLt
  have h2 := rs1.isLt
  have h3 := f3.isLt
  have h4 := rd.isLt
  simp only [immOf, BitVec.extractLsb'_toNat, mkWord_toNat, Nat.shiftRight_eq_div_pow]
  omega

/-- `funct7` and `rs2` are the two parts of the bits the immediate stands in (R86, R87). -/
theorem funct7Of_eq_immOf (w : InstrWord) : funct7Of w = (immOf w).extractLsb' 5 7 := by
  apply BitVec.eq_of_toNat_eq
  simp only [funct7Of, immOf, BitVec.extractLsb'_toNat, Nat.shiftRight_eq_div_pow]
  omega

theorem rs2Of_eq_immOf (w : InstrWord) : rs2Of w = ((immOf w).extractLsb' 0 5).toFin := by
  apply Fin.ext
  simp only [rs2Of, immOf, BitVec.val_toFin, BitVec.extractLsb'_toNat, Nat.shiftRight_eq_div_pow]
  omega

@[simp] theorem funct7Of_mkWord (f7 : BitVec 7) (rs2 : RegIdx) :
    funct7Of (mkWord (f7 ++ (BitVec.ofFin rs2 : BitVec 5)) rs1 f3 rd) = f7 := by
  rw [funct7Of_eq_immOf, immOf_mkWord]
  apply BitVec.eq_of_toNat_eq
  have h1 := f7.isLt
  have h2 := rs2.isLt
  simp only [BitVec.extractLsb'_toNat, BitVec.toNat_append, BitVec.toNat_ofFin, Nat.shiftRight_eq_div_pow]
  rw [← Nat.shiftLeft_add_eq_or_of_lt (by omega), Nat.shiftLeft_eq]
  omega

@[simp] theorem rs2Of_mkWord (f7 : BitVec 7) (rs2 : RegIdx) :
    rs2Of (mkWord (f7 ++ (BitVec.ofFin rs2 : BitVec 5)) rs1 f3 rd) = rs2 := by
  rw [rs2Of_eq_immOf, immOf_mkWord]
  apply Fin.ext
  have h1 := f7.isLt
  have h2 := rs2.isLt
  simp only [BitVec.val_toFin, BitVec.extractLsb'_toNat, BitVec.toNat_append, BitVec.toNat_ofFin,
    Nat.shiftRight_eq_div_pow]
  rw [← Nat.shiftLeft_add_eq_or_of_lt (by omega), Nat.shiftLeft_eq]
  omega

end Fields

theorem fixedConflict_not {α : Type} [DecidableEq α] {a b : Option α} {v : α}
    (ha : fixedAgrees a v = true) (hb : fixedAgrees b v = true) : fixedConflict a b = false := by
  cases a <;> cases b <;> simp_all [fixedAgrees, fixedConflict]

/-- Two disjoint patterns match no common high bits. -/
theorem HiPattern.not_both {p q : HiPattern} {w : InstrWord} (hp : p.accepts w = true) (hq : q.accepts w = true) :
    p.disjoint q = false := by
  cases p with
  | r f a =>
    cases q with
    | r g b =>
      simp only [HiPattern.accepts, Bool.and_eq_true, decide_eq_true_eq] at hp hq
      have := fixedConflict_not hp.2 hq.2
      simp [HiPattern.disjoint, this, ← hp.1, ← hq.1]
    | i o =>
      cases o with
      | none => rfl
      | some m =>
        simp only [HiPattern.accepts, Bool.and_eq_true, decide_eq_true_eq, fixedAgrees] at hp hq
        have h2 : fixedAgrees (some (m.extractLsb' 0 5).toFin) (rs2Of w) = true := by
          simp [fixedAgrees, rs2Of_eq_immOf, hq]
        have := fixedConflict_not hp.2 h2
        rw [HiPattern.disjoint, this, ← hp.1, funct7Of_eq_immOf, hq]
        simp
  | i o =>
    cases q with
    | i b =>
      simp only [HiPattern.accepts] at hp hq
      simp [HiPattern.disjoint, fixedConflict_not hp hq]
    | r g b =>
      cases o with
      | none => rfl
      | some m =>
        simp only [HiPattern.accepts, Bool.and_eq_true, decide_eq_true_eq, fixedAgrees] at hp hq
        have h2 : fixedAgrees (some (m.extractLsb' 0 5).toFin) (rs2Of w) = true := by
          simp [fixedAgrees, rs2Of_eq_immOf, hp]
        have := fixedConflict_not hq.2 h2
        rw [HiPattern.disjoint, this, ← hq.1, funct7Of_eq_immOf, hp]
        simp

/-- Two disjoint rows match no common word. -/
theorem EncRow.not_both {a b : EncRow} {w : InstrWord} (ha : a.matchesWord w = true) (hb : b.matchesWord w = true) :
    a.disjoint b = false := by
  simp only [EncRow.matchesWord, Bool.and_eq_true, decide_eq_true_eq] at ha hb
  obtain ⟨⟨⟨a1, a2⟩, a3⟩, a4⟩ := ha
  obtain ⟨⟨⟨b1, b2⟩, b3⟩, b4⟩ := hb
  simp [EncRow.disjoint, fixedConflict_not a2 b2, fixedConflict_not a3 b3, HiPattern.not_both a4 b4, ← a1, ← b1]

/-- In an unambiguous `ENC` the row that matches a word is the one the decoder finds. -/
theorem find_matchesWord {enc : Enc} {row : EncRow} {w : InstrWord}
    (h : enc.Pairwise fun a b => a.disjoint b = true) (hm : row ∈ enc) (hw : row.matchesWord w = true) :
    enc.find? (fun r => r.matchesWord w) = some row := by
  induction enc with
  | nil => simp at hm
  | cons r rs ih =>
    rw [List.pairwise_cons] at h
    rcases List.mem_cons.mp hm with rfl | hm
    · simp [hw]
    · by_cases hr : r.matchesWord w = true
      · have h1 := h.1 row hm
        have h2 := EncRow.not_both hr hw
        rw [h1] at h2
        simp at h2
      · simp only [Bool.not_eq_true] at hr
        rw [List.find?_cons, hr]
        exact ih h.2 hm

/-- The word of an instruction whose operands a row admits matches the row. -/
theorem EncRow.matchesWord_encode {row : EncRow} {i : Instr} (h : row.accepts (i.formIn row) = true) :
    row.matchesWord (row.encode i) = true := by
  unfold EncRow.encode
  generalize i.formIn row = ops at h
  unfold EncRow.accepts at h
  split at h
  · next h1 =>
    simp only [Bool.and_eq_true] at h
    simp [EncRow.matchesWord, HiPattern.accepts, HiPattern.encode, h1, OperandForm.rs1Field, OperandForm.rdField, h]
  · next h1 =>
    simp only [Bool.and_eq_true] at h
    simp [EncRow.matchesWord, HiPattern.accepts, HiPattern.encode, h1, OperandForm.rs1Field, OperandForm.rdField, h]
  · simp at h

/-- The operands are read back from the word. -/
theorem EncRow.operands_encode {row : EncRow} {i : Instr} (h : row.accepts (i.formIn row) = true) :
    row.operands (row.encode i) = i.formIn row := by
  unfold EncRow.encode
  generalize i.formIn row = ops at h ⊢
  unfold EncRow.accepts at h
  split at h
  · next h1 => simp [EncRow.operands, HiPattern.encode, h1, OperandForm.rs1Field, OperandForm.rdField]
  · next h1 => simp [EncRow.operands, HiPattern.encode, h1, OperandForm.rs1Field, OperandForm.rdField]
  · simp at h

/-! CCSR numbers in register fields. -/

@[simp] theorem numberField_fieldNumber (i : RegIdx) : numberField (fieldNumber i) = i := by
  apply Fin.ext
  have := i.isLt
  simp only [numberField, fieldNumber, BitVec.val_toFin, BitVec.extractLsb'_toNat, BitVec.toNat_ofNat, Nat.shiftRight_eq_div_pow]
  omega

theorem fieldNumber_numberField {n : Imm} (h : n.toNat < 32) : fieldNumber (numberField n) = n := by
  apply BitVec.eq_of_toNat_eq
  simp only [numberField, fieldNumber, BitVec.val_toFin, BitVec.extractLsb'_toNat, BitVec.toNat_ofNat, Nat.shiftRight_eq_div_pow]
  omega

theorem fieldNumber_lt (i : RegIdx) : (fieldNumber i).toNat < 32 := by
  have := i.isLt
  simp only [fieldNumber, BitVec.toNat_ofNat]
  omega

/-- The number an operand form was built with is the number it carries, where it has room. -/
theorem EncRow.numberIn_ccsrForm (row : EncRow) (rd rs1 : RegIdx) (n : Imm) (h : row.numberFits n = true) :
    (row.ccsrForm rd rs1 n).numberIn row.numberAt = n := by
  unfold EncRow.numberFits at h
  unfold EncRow.ccsrForm EncRow.form
  cases ha : row.numberAt <;> cases hh : row.hi <;> simp only [ha, hh, decide_eq_true_eq] at h ⊢ <;>
    first
      | rfl
      | exact fieldNumber_numberField h

/-- `rd` is read back from a form whose number stands elsewhere. -/
theorem EncRow.rdField_ccsrForm (row : EncRow) (rd rs1 : RegIdx) (n : Imm) (h : row.numberAt ≠ .rd) :
    (row.ccsrForm rd rs1 n).rdField = rd := by
  unfold EncRow.ccsrForm EncRow.form
  cases ha : row.numberAt <;> cases hh : row.hi <;> simp_all [OperandForm.rdField]

/-- `rs1` is read back from a form whose number stands elsewhere. -/
theorem EncRow.rs1Field_ccsrForm (row : EncRow) (rd rs1 : RegIdx) (n : Imm) (h : row.numberAt ≠ .rs1) :
    (row.ccsrForm rd rs1 n).rs1Field = rs1 := by
  unfold EncRow.ccsrForm EncRow.form
  cases ha : row.numberAt <;> cases hh : row.hi <;> simp_all [OperandForm.rs1Field]

end Sys2Proof
end

