-- ==== Sys2Proof/Laws/Memory.lean ====
section
/-! SUPPORT. The laws of memory: reading after writing, and that every operation keeps the canonical form `Memory.wf`. -/

namespace Sys2Proof.Machine

open Sys2Proof

/-! ## Association lists -/

section Assoc
variable {α : Type}

theorem assocGet_assocSet (l : List (Nat × α)) (k j : Nat) (v : α) :
    assocGet (assocSet l k v) j = if j = k then some v else assocGet l j := by
  induction l with
  | nil =>
    by_cases h : k = j <;> simp [assocSet, assocGet, h, eq_comm]
  | cons e es ih =>
    unfold assocSet
    split
    · next hlt =>
      by_cases hj : j = k
      · simp [assocGet, hj]
      · have : ¬ k = j := fun h => hj h.symm
        simp [assocGet, hj, this]
    · split
      · next heq =>
        by_cases hj : j = k
        · simp [assocGet, hj]
        · have h1 : ¬ k = j := fun h => hj h.symm
          have h2 : ¬ e.1 = j := fun h => hj (by omega)
          simp [assocGet, hj, h1, h2]
      · next hne =>
        by_cases hej : e.1 = j
        · have : ¬ j = k := by omega
          simp [assocGet, hej, this]
        · simp [assocGet, hej, ih]

theorem assocGet_filter_ne (l : List (Nat × α)) (p : Nat → Bool) (j : Nat) :
    assocGet (l.filter (fun e => p e.1)) j = if p j then assocGet l j else none := by
  induction l with
  | nil => simp [assocGet]
  | cons e es ih =>
    by_cases he : p e.1
    · by_cases hej : e.1 = j
      · subst hej
        simp [he, assocGet]
      · simp [he, assocGet, hej, ih]
    · by_cases hej : e.1 = j
      · subst hej
        simp [he, ih]
      · simp [he, assocGet, hej, ih]

theorem assocGet_assocErase (l : List (Nat × α)) (k j : Nat) :
    assocGet (assocErase l k) j = if j = k then none else assocGet l j := by
  have h := assocGet_filter_ne l (fun i => decide (i ≠ k)) j
  unfold assocErase
  rw [h]
  by_cases hj : j = k <;> simp [hj]

theorem assocGet_mem (l : List (Nat × α)) (k : Nat) (v : α) (h : assocGet l k = some v) : (k, v) ∈ l := by
  induction l with
  | nil => simp [assocGet] at h
  | cons e es ih =>
    unfold assocGet at h
    split at h
    · next he =>
      have hv : e.2 = v := by simpa using h
      have : e = (k, v) := by rw [← he, ← hv]
      simp [this]
    · exact List.mem_cons_of_mem _ (ih h)

theorem assocGet_isSome_of_mem (l : List (Nat × α)) (e : Nat × α) (h : e ∈ l) : (assocGet l e.1).isSome = true := by
  induction l with
  | nil => simp at h
  | cons x xs ih =>
    unfold assocGet
    split
    · rfl
    · next hne =>
      rcases List.mem_cons.mp h with rfl | h
      · exact absurd rfl hne
      · exact ih h

theorem mem_assocSet (l : List (Nat × α)) (k : Nat) (v : α) (e : Nat × α) (h : e ∈ assocSet l k v) :
    e = (k, v) ∨ e ∈ l := by
  induction l with
  | nil => simpa [assocSet] using h
  | cons x xs ih =>
    unfold assocSet at h
    split at h
    · simpa using h
    · split at h
      · rcases List.mem_cons.mp h with h | h
        · exact .inl h
        · exact .inr (List.mem_cons_of_mem _ h)
      · rcases List.mem_cons.mp h with h | h
        · exact .inr (by simp [h])
        · rcases ih h with h | h
          · exact .inl h
          · exact .inr (List.mem_cons_of_mem _ h)

theorem assocSet_sorted (l : List (Nat × α)) (k : Nat) (v : α) (h : l.Pairwise (fun a b => a.1 < b.1)) :
    (assocSet l k v).Pairwise (fun a b => a.1 < b.1) := by
  induction l with
  | nil => simp [assocSet]
  | cons x xs ih =>
    rw [List.pairwise_cons] at h
    unfold assocSet
    split
    · next hlt =>
      rw [List.pairwise_cons, List.pairwise_cons]
      refine ⟨?_, h⟩
      intro e he
      rcases List.mem_cons.mp he with rfl | he
      · exact hlt
      · exact Nat.lt_trans hlt (h.1 e he)
    · split
      · next heq =>
        rw [List.pairwise_cons]
        refine ⟨fun e he => ?_, h.2⟩
        have := h.1 e he
        simp only
        omega
      · next hne =>
        rw [List.pairwise_cons]
        refine ⟨fun e he => ?_, ih h.2⟩
        rcases mem_assocSet _ _ _ _ he with rfl | he
        · simp only
          omega
        · exact h.1 e he

theorem assocErase_sorted (l : List (Nat × α)) (k : Nat) (h : l.Pairwise (fun a b => a.1 < b.1)) :
    (assocErase l k).Pairwise (fun a b => a.1 < b.1) :=
  h.sublist List.filter_sublist

end Assoc

/-! ## Bytes -/

theorem byteOf_setByte (l : List Host.Cell) (a j : Nat) (b : Byte) :
    byteOf (setByte l a b) j = if j = a then b else byteOf l j := by
  unfold setByte byteOf
  split
  · next hb =>
    rw [assocGet_assocErase]
    split
    · simp [hb]
    · rfl
  · rw [assocGet_assocSet]
    split <;> simp

theorem byteOf_writeLE_other (l : List Host.Cell) (n : Nat) : ∀ (a v j : Nat), (j < a ∨ a + n ≤ j) →
    byteOf (writeLE l a n v) j = byteOf l j := by
  induction n with
  | zero => intros; rfl
  | succ n ih =>
    intro a v j hj
    have hne : ¬ j = a := by omega
    simp only [writeLE, byteOf_setByte, hne, if_false]
    exact ih (a + 1) (v / 256) j (by omega)

theorem readLE_congr (l m : List Host.Cell) (n : Nat) : ∀ (a : Nat), (∀ j, a ≤ j → j < a + n → byteOf l j = byteOf m j) →
    readLE l a n = readLE m a n := by
  induction n with
  | zero => intros; rfl
  | succ n ih =>
    intro a h
    simp only [readLE]
    rw [h a (by omega) (by omega), ih (a + 1) (fun j h1 h2 => h j (by omega) (by omega))]

theorem readLE_lt (l : List Host.Cell) (n : Nat) : ∀ (a : Nat), readLE l a n < 256 ^ n := by
  induction n with
  | zero => intro a; simp [readLE]
  | succ n ih =>
    intro a
    have h1 := ih (a + 1)
    have h2 : (byteOf l a).toNat < 256 := (byteOf l a).isLt
    simp only [readLE, pow_succ]
    omega

/-- The `k`-th byte after a little-endian write. -/
theorem byteOf_writeLE (l : List Host.Cell) (n : Nat) : ∀ (a v k : Nat), k < n →
    byteOf (writeLE l a n v) (a + k) = BitVec.ofNat 8 (v / 256 ^ k) := by
  induction n with
  | zero => intro a v k h; omega
  | succ n ih =>
    intro a v k hk
    cases k with
    | zero => simp [writeLE, byteOf_setByte]
    | succ k =>
      have hne : ¬ a + (k + 1) = a := by omega
      have h := ih (a + 1) (v / 256) k (by omega)
      have e : a + 1 + k = a + (k + 1) := by omega
      rw [e] at h
      simp only [writeLE, byteOf_setByte, hne, if_false]
      rw [h, Nat.div_div_eq_div_mul, Nat.pow_succ, Nat.mul_comm 256]

/-! ## The canonical form -/

/-- The part of `Memory.wf` that speaks of the bytes alone. -/
abbrev bytesWf (l : List Host.Cell) : Prop :=
  l.Pairwise (fun a b => a.1 < b.1) ∧ ∀ e ∈ l, e.2 ≠ 0#8 ∧ e.1 < addrSpace

theorem setByte_wf (l : List Host.Cell) (a : Nat) (b : Byte) (h : bytesWf l) (ha : a < addrSpace) :
    bytesWf (setByte l a b) := by
  unfold setByte
  split
  · exact ⟨assocErase_sorted l a h.1, fun e he => h.2 e (List.mem_filter.mp he).1⟩
  · next hb =>
    refine ⟨assocSet_sorted l a b h.1, fun e he => ?_⟩
    rcases mem_assocSet _ _ _ _ he with rfl | he
    · exact ⟨hb, ha⟩
    · exact h.2 e he

theorem mem_setByte (l : List Host.Cell) (a : Nat) (b : Byte) (e : Host.Cell) (he : e ∈ setByte l a b) :
    e.1 = a ∨ e ∈ l := by
  unfold setByte at he
  split at he
  · exact .inr (List.mem_filter.mp he).1
  · rcases mem_assocSet _ _ _ _ he with rfl | he
    · exact .inl rfl
    · exact .inr he

theorem writeLE_wf (l : List Host.Cell) (n : Nat) : ∀ (a v : Nat), bytesWf l → a + n ≤ addrSpace →
    bytesWf (writeLE l a n v) := by
  induction n with
  | zero => intro a v h _; exact h
  | succ n ih =>
    intro a v h ha
    exact setByte_wf _ _ _ (ih (a + 1) (v / 256) h (by omega)) (by omega)

theorem mem_writeLE (l : List Host.Cell) (n : Nat) : ∀ (a v : Nat) (e : Host.Cell), e ∈ writeLE l a n v →
    (a ≤ e.1 ∧ e.1 < a + n) ∨ e ∈ l := by
  induction n with
  | zero => intro a v e he; exact .inr he
  | succ n ih =>
    intro a v e he
    rcases mem_setByte _ _ _ _ he with h | h
    · exact .inl (by omega)
    · rcases ih _ _ _ h with h | h
      · exact .inl (by omega)
      · exact .inr h

theorem Memory.wf_bytes {m : Memory} (h : m.wf) : bytesWf m.bytes := ⟨h.1, h.2.1⟩

theorem Memory.capAt_of_mem {m : Memory} {e : Nat × Cap} (he : e ∈ m.caps) : (m.capAt e.1).isSome = true :=
  assocGet_isSome_of_mem _ _ he

/-- An address inside an access of 1 to 16 bytes lies in the first or the last granule touched. -/
theorem granule_of_access (a n j : Nat) (h1 : a ≤ j) (h2 : j < a + n) (hn : n ≤ 16) :
    j / clenBytes = a / clenBytes ∨ j / clenBytes = (a + n - 1) / clenBytes := by
  unfold clenBytes
  omega

/-- A raw write keeps the canonical form. -/
theorem Memory.write_wf {m m' : Memory} {a n v : Nat} (h : m.wf) (hn : n ≤ 16) (ha : a + n ≤ addrSpace)
    (hw : m.write a n v = some m') : m'.wf := by
  unfold Memory.write at hw
  split at hw
  · simp at hw
  · next ht =>
    have hw : m' = { m with bytes := writeLE m.bytes a n v } := by simpa using hw.symm
    subst hw
    have hb := writeLE_wf m.bytes n a v (Memory.wf_bytes h) ha
    refine ⟨hb.1, hb.2, h.2.2.1, h.2.2.2.1, ?_⟩
    intro e he k hk
    rcases mem_writeLE _ _ _ _ _ he with hin | hin
    · intro hek
      apply ht
      have hs := Memory.capAt_of_mem (m := m) hk
      rw [← hek] at hs
      rcases granule_of_access a n e.1 hin.1 hin.2 hn with h1 | h1
      · rw [h1] at hs
        simp [Memory.touchesCap, hs]
      · rw [h1] at hs
        simp [Memory.touchesCap, hs]
    · exact h.2.2.2.2 e hin k hk

/-- A capability write keeps the canonical form. -/
theorem Memory.writeCap_wf {m : Memory} {a : Nat} {c : Cap} (h : m.wf) (ha : a < addrSpace) : (m.writeCap a c).wf := by
  refine ⟨h.1.sublist List.filter_sublist, fun e he => h.2.1 e (List.mem_filter.mp he).1,
    assocSet_sorted _ _ _ h.2.2.1, fun e he => ?_, fun e he k hk => ?_⟩
  · rcases mem_assocSet _ _ _ _ he with rfl | he
    · simp only [addrSpace, clenBytes] at ha ⊢
      omega
    · exact h.2.2.2.1 e he
  · have he' := List.mem_filter.mp he
    rcases mem_assocSet _ _ _ _ hk with rfl | hk
    · simpa using he'.2
    · exact h.2.2.2.2 e he'.1 k hk

/-- Making bytes raw inside one granule keeps the canonical form: the common part of `makeRaw` and `placeWord`. -/
theorem Memory.rawInGranule_wf {m : Memory} {a n g v : Nat} (h : m.wf) (ha : a + n ≤ addrSpace)
    (hg : ∀ j, a ≤ j → j < a + n → j / clenBytes = g) :
    ({ bytes := writeLE m.bytes a n v, caps := assocErase m.caps g } : Memory).wf := by
  have hb := writeLE_wf m.bytes n a v (Memory.wf_bytes h) ha
  refine ⟨hb.1, hb.2, assocErase_sorted _ _ h.2.2.1, fun e he => h.2.2.2.1 e (List.mem_filter.mp he).1, ?_⟩
  intro e he k hk
  have hk' := List.mem_filter.mp hk
  rcases mem_writeLE _ _ _ _ _ he with hin | hin
  · rw [hg e.1 hin.1 hin.2]
    intro heq
    have := hk'.2
    simp [heq] at this
  · exact h.2.2.2.2 e hin k hk'.1

/-- Turning a granule raw keeps the canonical form. -/
theorem Memory.makeRaw_wf {m : Memory} {a : Nat} {b : BitVec 128} (h : m.wf) (ha : a < addrSpace) : (m.makeRaw a b).wf := by
  apply Memory.rawInGranule_wf h
  · simp only [addrSpace, clenBytes] at ha ⊢
    omega
  · intro j h1 h2
    simp only [clenBytes] at h1 h2 ⊢
    omega

/-- Whatever is left of a loaded capability, the canonical form is kept. -/
theorem Memory.leave_wf {m : Memory} {a : Nat} {r : MemResidue} (h : m.wf) (ha : a < addrSpace) : (m.leave a r).wf := by
  cases r with
  | kept => exact h
  | raw b => exact Memory.makeRaw_wf h ha
  | null => exact Memory.writeCap_wf h ha

/-- Placing an instruction word keeps the canonical form, where it lies inside one granule. -/
theorem State.placeWord_wf {s : State} {c : Cap} {w : Nat} (h : s.mem.wf) (ha : c.cursor.toNat + 4 ≤ addrSpace)
    (h4 : c.cursor.toNat % 4 = 0) : (s.placeWord c w).mem.wf := by
  apply Memory.rawInGranule_wf h ha
  intro j h1 h2
  simp only [clenBytes]
  omega

/-- Reset memory is canonical, under every configuration. -/
theorem State.resetWith_mem_wf (cfg : Config) : (State.resetWith cfg).mem.wf := by
  simp [State.resetWith, Memory.wf]

/-! ## What each operation does to the two views -/

theorem Memory.write_capAt {m m' : Memory} {a n v : Nat} (hw : m.write a n v = some m') (g : Nat) :
    m'.capAt g = m.capAt g := by
  unfold Memory.write at hw
  split at hw
  · simp at hw
  · have hw : m' = { m with bytes := writeLE m.bytes a n v } := by simpa using hw.symm
    subst hw
    rfl

theorem Memory.write_byteAt_other {m m' : Memory} {a n v : Nat} (hw : m.write a n v = some m') (j : Nat)
    (hj : j < a ∨ a + n ≤ j) : m'.byteAt j = m.byteAt j := by
  have hc := Memory.write_capAt hw (j / clenBytes)
  unfold Memory.write at hw
  split at hw
  · simp at hw
  · have hw : m' = { m with bytes := writeLE m.bytes a n v } := by simpa using hw.symm
    subst hw
    unfold Memory.byteAt
    rw [hc, byteOf_writeLE_other _ _ _ _ _ hj]

theorem Memory.writeCap_capAt (m : Memory) (a : Nat) (c : Cap) (g : Nat) :
    (m.writeCap a c).capAt g = if g = a / clenBytes then some c else m.capAt g :=
  assocGet_assocSet _ _ _ _

theorem Memory.writeCap_byteAt (m : Memory) (a : Nat) (c : Cap) (j : Nat) :
    (m.writeCap a c).byteAt j = if j / clenBytes = a / clenBytes then none else m.byteAt j := by
  unfold Memory.byteAt
  rw [Memory.writeCap_capAt]
  by_cases hj : j / clenBytes = a / clenBytes
  · simp [hj]
  · have : byteOf (m.writeCap a c).bytes j = byteOf m.bytes j := by
      have := assocGet_filter_ne m.bytes (fun k => decide (k / clenBytes ≠ a / clenBytes)) j
      simp only [Memory.writeCap, dropGranule, byteOf]
      rw [this]
      simp [hj]
    simp [hj, this]

theorem Memory.makeRaw_capAt (m : Memory) (a : Nat) (b : BitVec 128) (g : Nat) :
    (m.makeRaw a b).capAt g = if g = a / clenBytes then none else m.capAt g :=
  assocGet_assocErase _ _ _

theorem Memory.makeRaw_byteAt_other (m : Memory) (a : Nat) (b : BitVec 128) (j : Nat) (hj : j / clenBytes ≠ a / clenBytes) :
    (m.makeRaw a b).byteAt j = m.byteAt j := by
  unfold Memory.byteAt
  rw [Memory.makeRaw_capAt]
  have h : j < clenBytes * (a / clenBytes) ∨ clenBytes * (a / clenBytes) + 16 ≤ j := by
    simp only [clenBytes] at hj ⊢
    omega
  simp only [hj, if_false, Memory.makeRaw]
  rw [byteOf_writeLE_other _ _ _ _ _ h]

/-- The bytes of a granule that became raw. -/
theorem Memory.makeRaw_byteAt (m : Memory) (a : Nat) (b : BitVec 128) (k : Nat) (ha : a % clenBytes = 0) (hk : k < clenBytes) :
    (m.makeRaw a b).byteAt (a + k) = some (BitVec.ofNat 8 (b.toNat / 256 ^ k)) := by
  simp only [clenBytes] at ha hk
  have hg : (a + k) / clenBytes = a / clenBytes := by simp only [clenBytes]; omega
  have hs : clenBytes * (a / clenBytes) = a := by simp only [clenBytes]; omega
  unfold Memory.byteAt
  rw [Memory.makeRaw_capAt, hg, if_pos rfl]
  simp only [Memory.makeRaw, hs]
  rw [byteOf_writeLE _ _ _ _ _ hk]

/-- Outside its granule, what is left of a loaded capability changes nothing. -/
theorem Memory.leave_byteAt_other (m : Memory) (a : Nat) (r : MemResidue) (j : Nat) (hj : j / clenBytes ≠ a / clenBytes) :
    (m.leave a r).byteAt j = m.byteAt j := by
  cases r with
  | kept => rfl
  | raw b => exact Memory.makeRaw_byteAt_other m a b j hj
  | null => simp [Memory.leave, Memory.writeCap_byteAt, hj]

theorem Memory.leave_capAt_other (m : Memory) (a : Nat) (r : MemResidue) (g : Nat) (hg : g ≠ a / clenBytes) :
    (m.leave a r).capAt g = m.capAt g := by
  cases r with
  | kept => rfl
  | raw b => simp [Memory.leave, Memory.makeRaw_capAt, hg]
  | null => simp [Memory.leave, Memory.writeCap_capAt, hg]

/-- A capability that stands in memory after a load stood there before, or is `cnull`. -/
theorem Memory.leave_capAt (m : Memory) (a : Nat) (r : MemResidue) (g : Nat) (c : Cap) (h : (m.leave a r).capAt g = some c) :
    c = cnull ∨ m.capAt g = some c := by
  cases r with
  | kept => exact .inr h
  | raw b =>
    simp only [Memory.leave, Memory.makeRaw_capAt] at h
    split at h
    · simp at h
    · exact .inr h
  | null =>
    simp only [Memory.leave, Memory.writeCap_capAt] at h
    split at h
    · exact .inl (by simpa using h.symm)
    · exact .inr h

end Sys2Proof.Machine
end

