-- ==== Sys2Proof/Laws/State.lean ====
section
/-! SUPPORT. What each named update of the state changes and what it leaves: one lemma per field per update. -/

namespace Sys2Proof.Machine

open Sys2Proof


/-! `State.redraw` -/

@[simp] theorem State.redraw_cfg (s : State) : (s.redraw).cfg = s.cfg := rfl
@[simp] theorem State.redraw_regs (s : State) : (s.redraw).regs = s.regs := rfl
@[simp] theorem State.redraw_pc (s : State) : (s.redraw).pc = s.pc := rfl
@[simp] theorem State.redraw_ceh (s : State) : (s.redraw).ceh = s.ceh := rfl
@[simp] theorem State.redraw_deh (s : State) : (s.redraw).deh = s.deh := rfl
@[simp] theorem State.redraw_cih (s : State) : (s.redraw).cih = s.cih := rfl
@[simp] theorem State.redraw_epc (s : State) : (s.redraw).epc = s.epc := rfl
@[simp] theorem State.redraw_cinit (s : State) : (s.redraw).cinit = s.cinit := rfl
@[simp] theorem State.redraw_cinitRead (s : State) : (s.redraw).cinitRead = s.cinitRead := rfl
@[simp] theorem State.redraw_switchCap (s : State) : (s.redraw).switchCap = s.switchCap := rfl
@[simp] theorem State.redraw_cis (s : State) : (s.redraw).cis = s.cis := rfl
@[simp] theorem State.redraw_tval (s : State) : (s.redraw).tval = s.tval := rfl
@[simp] theorem State.redraw_cause (s : State) : (s.redraw).cause = s.cause := rfl
@[simp] theorem State.redraw_cwrld (s : State) : (s.redraw).cwrld = s.cwrld := rfl
@[simp] theorem State.redraw_normalPc (s : State) : (s.redraw).normalPc = s.normalPc := rfl
@[simp] theorem State.redraw_normalSp (s : State) : (s.redraw).normalSp = s.normalSp := rfl
@[simp] theorem State.redraw_switchReg (s : State) : (s.redraw).switchReg = s.switchReg := rfl
@[simp] theorem State.redraw_exitReg (s : State) : (s.redraw).exitReg = s.exitReg := rfl
@[simp] theorem State.redraw_mem (s : State) : (s.redraw).mem = s.mem := rfl
@[simp] theorem State.redraw_created (s : State) : (s.redraw).created = s.created := rfl
@[simp] theorem State.redraw_sem (s : State) : s.redraw.sem = Config.semAnswer s.semTick := rfl
@[simp] theorem State.redraw_semTick (s : State) : s.redraw.semTick = s.semTick + 1 := rfl
@[simp] theorem State.redraw_regCell (s : State) (i : RegIdx) : s.redraw.regCell i = s.regCell i := rfl

/-! `State.writeReg` -/

@[simp] theorem State.writeReg_cfg (s : State) (i : RegIdx) (v : Cell) : (s.writeReg i v).cfg = s.cfg := by
  unfold State.writeReg; split <;> rfl
@[simp] theorem State.writeReg_pc (s : State) (i : RegIdx) (v : Cell) : (s.writeReg i v).pc = s.pc := by
  unfold State.writeReg; split <;> rfl
@[simp] theorem State.writeReg_ceh (s : State) (i : RegIdx) (v : Cell) : (s.writeReg i v).ceh = s.ceh := by
  unfold State.writeReg; split <;> rfl
@[simp] theorem State.writeReg_deh (s : State) (i : RegIdx) (v : Cell) : (s.writeReg i v).deh = s.deh := by
  unfold State.writeReg; split <;> rfl
@[simp] theorem State.writeReg_cih (s : State) (i : RegIdx) (v : Cell) : (s.writeReg i v).cih = s.cih := by
  unfold State.writeReg; split <;> rfl
@[simp] theorem State.writeReg_epc (s : State) (i : RegIdx) (v : Cell) : (s.writeReg i v).epc = s.epc := by
  unfold State.writeReg; split <;> rfl
@[simp] theorem State.writeReg_cinit (s : State) (i : RegIdx) (v : Cell) : (s.writeReg i v).cinit = s.cinit := by
  unfold State.writeReg; split <;> rfl
@[simp] theorem State.writeReg_cinitRead (s : State) (i : RegIdx) (v : Cell) : (s.writeReg i v).cinitRead = s.cinitRead := by
  unfold State.writeReg; split <;> rfl
@[simp] theorem State.writeReg_switchCap (s : State) (i : RegIdx) (v : Cell) : (s.writeReg i v).switchCap = s.switchCap := by
  unfold State.writeReg; split <;> rfl
@[simp] theorem State.writeReg_cis (s : State) (i : RegIdx) (v : Cell) : (s.writeReg i v).cis = s.cis := by
  unfold State.writeReg; split <;> rfl
@[simp] theorem State.writeReg_tval (s : State) (i : RegIdx) (v : Cell) : (s.writeReg i v).tval = s.tval := by
  unfold State.writeReg; split <;> rfl
@[simp] theorem State.writeReg_cause (s : State) (i : RegIdx) (v : Cell) : (s.writeReg i v).cause = s.cause := by
  unfold State.writeReg; split <;> rfl
@[simp] theorem State.writeReg_cwrld (s : State) (i : RegIdx) (v : Cell) : (s.writeReg i v).cwrld = s.cwrld := by
  unfold State.writeReg; split <;> rfl
@[simp] theorem State.writeReg_normalPc (s : State) (i : RegIdx) (v : Cell) : (s.writeReg i v).normalPc = s.normalPc := by
  unfold State.writeReg; split <;> rfl
@[simp] theorem State.writeReg_normalSp (s : State) (i : RegIdx) (v : Cell) : (s.writeReg i v).normalSp = s.normalSp := by
  unfold State.writeReg; split <;> rfl
@[simp] theorem State.writeReg_switchReg (s : State) (i : RegIdx) (v : Cell) : (s.writeReg i v).switchReg = s.switchReg := by
  unfold State.writeReg; split <;> rfl
@[simp] theorem State.writeReg_exitReg (s : State) (i : RegIdx) (v : Cell) : (s.writeReg i v).exitReg = s.exitReg := by
  unfold State.writeReg; split <;> rfl
@[simp] theorem State.writeReg_mem (s : State) (i : RegIdx) (v : Cell) : (s.writeReg i v).mem = s.mem := by
  unfold State.writeReg; split <;> rfl
@[simp] theorem State.writeReg_created (s : State) (i : RegIdx) (v : Cell) : (s.writeReg i v).created = s.created := by
  unfold State.writeReg; split <;> rfl
@[simp] theorem State.writeReg_sem (s : State) (i : RegIdx) (v : Cell) : (s.writeReg i v).sem = s.sem := by
  unfold State.writeReg; split <;> rfl
@[simp] theorem State.writeReg_semTick (s : State) (i : RegIdx) (v : Cell) : (s.writeReg i v).semTick = s.semTick := by
  unfold State.writeReg; split <;> rfl

@[simp] theorem State.writeReg_zero (s : State) (v : Cell) : s.writeReg 0 v = s := rfl

@[simp] theorem State.regCell_zero (s : State) : s.regCell 0 = none := rfl

theorem State.regCell_isSome (s : State) (i : RegIdx) (h : i ≠ 0) : ∃ v, s.regCell i = some v := by
  unfold State.regCell
  split
  · next h0 => exact absurd (Fin.ext h0) h
  · exact ⟨_, rfl⟩

theorem State.regCell_writeReg (s : State) (i j : RegIdx) (v : Cell) :
    (s.writeReg i v).regCell j = if j = i ∧ i ≠ 0 then some v else s.regCell j := by
  by_cases hi : i = 0
  · subst hi
    simp
  · have hi' : ¬ i.val = 0 := fun h => hi (Fin.ext h)
    by_cases hj : j = 0
    · subst hj
      have : ¬ ((0 : RegIdx) = i) := fun h => hi h.symm
      simp [this]
    · have hj' : ¬ j.val = 0 := fun h => hj (Fin.ext h)
      by_cases hij : j = i
      · subst hij
        simp [State.writeReg, State.regCell, hi', hi]
      · have hne : i.val - 1 ≠ j.val - 1 := by
          intro h
          apply hij
          apply Fin.ext
          omega
        simp [State.writeReg, State.regCell, hi', hj', hij, hne]

@[simp] theorem State.regCell_writeReg_same (s : State) (i : RegIdx) (v : Cell) (h : i ≠ 0) :
    (s.writeReg i v).regCell i = some v := by
  simp [State.regCell_writeReg, h]

@[simp] theorem State.regCell_writeReg_other (s : State) (i j : RegIdx) (v : Cell) (h : j ≠ i) :
    (s.writeReg i v).regCell j = s.regCell j := by
  simp [State.regCell_writeReg, h]


/-! `State.moveCursor` -/

@[simp] theorem State.moveCursor_cfg (s : State) (i : RegIdx) (a : Option Word) : (s.moveCursor i a).cfg = s.cfg := by
  unfold State.moveCursor; split <;> simp
@[simp] theorem State.moveCursor_pc (s : State) (i : RegIdx) (a : Option Word) : (s.moveCursor i a).pc = s.pc := by
  unfold State.moveCursor; split <;> simp
@[simp] theorem State.moveCursor_ceh (s : State) (i : RegIdx) (a : Option Word) : (s.moveCursor i a).ceh = s.ceh := by
  unfold State.moveCursor; split <;> simp
@[simp] theorem State.moveCursor_deh (s : State) (i : RegIdx) (a : Option Word) : (s.moveCursor i a).deh = s.deh := by
  unfold State.moveCursor; split <;> simp
@[simp] theorem State.moveCursor_cih (s : State) (i : RegIdx) (a : Option Word) : (s.moveCursor i a).cih = s.cih := by
  unfold State.moveCursor; split <;> simp
@[simp] theorem State.moveCursor_epc (s : State) (i : RegIdx) (a : Option Word) : (s.moveCursor i a).epc = s.epc := by
  unfold State.moveCursor; split <;> simp
@[simp] theorem State.moveCursor_cinit (s : State) (i : RegIdx) (a : Option Word) : (s.moveCursor i a).cinit = s.cinit := by
  unfold State.moveCursor; split <;> simp
@[simp] theorem State.moveCursor_cinitRead (s : State) (i : RegIdx) (a : Option Word) : (s.moveCursor i a).cinitRead = s.cinitRead := by
  unfold State.moveCursor; split <;> simp
@[simp] theorem State.moveCursor_switchCap (s : State) (i : RegIdx) (a : Option Word) : (s.moveCursor i a).switchCap = s.switchCap := by
  unfold State.moveCursor; split <;> simp
@[simp] theorem State.moveCursor_cis (s : State) (i : RegIdx) (a : Option Word) : (s.moveCursor i a).cis = s.cis := by
  unfold State.moveCursor; split <;> simp
@[simp] theorem State.moveCursor_tval (s : State) (i : RegIdx) (a : Option Word) : (s.moveCursor i a).tval = s.tval := by
  unfold State.moveCursor; split <;> simp
@[simp] theorem State.moveCursor_cause (s : State) (i : RegIdx) (a : Option Word) : (s.moveCursor i a).cause = s.cause := by
  unfold State.moveCursor; split <;> simp
@[simp] theorem State.moveCursor_cwrld (s : State) (i : RegIdx) (a : Option Word) : (s.moveCursor i a).cwrld = s.cwrld := by
  unfold State.moveCursor; split <;> simp
@[simp] theorem State.moveCursor_normalPc (s : State) (i : RegIdx) (a : Option Word) : (s.moveCursor i a).normalPc = s.normalPc := by
  unfold State.moveCursor; split <;> simp
@[simp] theorem State.moveCursor_normalSp (s : State) (i : RegIdx) (a : Option Word) : (s.moveCursor i a).normalSp = s.normalSp := by
  unfold State.moveCursor; split <;> simp
@[simp] theorem State.moveCursor_switchReg (s : State) (i : RegIdx) (a : Option Word) : (s.moveCursor i a).switchReg = s.switchReg := by
  unfold State.moveCursor; split <;> simp
@[simp] theorem State.moveCursor_exitReg (s : State) (i : RegIdx) (a : Option Word) : (s.moveCursor i a).exitReg = s.exitReg := by
  unfold State.moveCursor; split <;> simp
@[simp] theorem State.moveCursor_mem (s : State) (i : RegIdx) (a : Option Word) : (s.moveCursor i a).mem = s.mem := by
  unfold State.moveCursor; split <;> simp
@[simp] theorem State.moveCursor_created (s : State) (i : RegIdx) (a : Option Word) : (s.moveCursor i a).created = s.created := by
  unfold State.moveCursor; split <;> simp
@[simp] theorem State.moveCursor_sem (s : State) (i : RegIdx) (a : Option Word) : (s.moveCursor i a).sem = s.sem := by
  unfold State.moveCursor; split <;> simp
@[simp] theorem State.moveCursor_semTick (s : State) (i : RegIdx) (a : Option Word) : (s.moveCursor i a).semTick = s.semTick := by
  unfold State.moveCursor; split <;> simp

@[simp] theorem State.moveCursor_none (s : State) (i : RegIdx) : s.moveCursor i none = s := rfl

@[simp] theorem State.regCell_moveCursor_other (s : State) (i j : RegIdx) (a : Option Word) (h : j ≠ i) :
    (s.moveCursor i a).regCell j = s.regCell j := by
  unfold State.moveCursor; split <;> simp [h]

/-- What a register holds after a cursor update: what it held, or the same capability with another cursor. -/
theorem State.regCell_moveCursor (s : State) (i j : RegIdx) (a : Option Word) :
    (s.moveCursor i a).regCell j = s.regCell j ∨
    ∃ w c, a = some w ∧ j = i ∧ s.regCell i = some (.cap c) ∧
      (s.moveCursor i a).regCell j = some (.cap { c with cursor := w }) := by
  unfold State.moveCursor
  split
  · next w c h =>
    by_cases hj : j = i
    · subst hj
      have h0 : j ≠ 0 := by
        rintro rfl
        simp at h
      exact .inr ⟨w, c, rfl, rfl, h, by simp [h0]⟩
    · exact .inl (by simp [hj])
  · exact .inl rfl


/-- The authorising register keeps its capability but for the cursor the update gives. -/
theorem State.regCell_moveCursor_self (s : State) (i : RegIdx) (a : Option Word) (c : Cap) (h : s.regCell i = some (.cap c)) :
    (s.moveCursor i a).regCell i = some (.cap { c with cursor := a.getD c.cursor }) := by
  have h0 : i ≠ 0 := by
    rintro rfl
    simp at h
  cases a with
  | none => exact h
  | some w => simp [State.moveCursor, h, h0]


/-! `State.leaveReg` -/

@[simp] theorem State.leaveReg_cfg (s : State) (i : RegIdx) (r : Residue) : (s.leaveReg i r).cfg = s.cfg := by
  unfold State.leaveReg; split <;> simp
@[simp] theorem State.leaveReg_pc (s : State) (i : RegIdx) (r : Residue) : (s.leaveReg i r).pc = s.pc := by
  unfold State.leaveReg; split <;> simp
@[simp] theorem State.leaveReg_ceh (s : State) (i : RegIdx) (r : Residue) : (s.leaveReg i r).ceh = s.ceh := by
  unfold State.leaveReg; split <;> simp
@[simp] theorem State.leaveReg_deh (s : State) (i : RegIdx) (r : Residue) : (s.leaveReg i r).deh = s.deh := by
  unfold State.leaveReg; split <;> simp
@[simp] theorem State.leaveReg_cih (s : State) (i : RegIdx) (r : Residue) : (s.leaveReg i r).cih = s.cih := by
  unfold State.leaveReg; split <;> simp
@[simp] theorem State.leaveReg_epc (s : State) (i : RegIdx) (r : Residue) : (s.leaveReg i r).epc = s.epc := by
  unfold State.leaveReg; split <;> simp
@[simp] theorem State.leaveReg_cinit (s : State) (i : RegIdx) (r : Residue) : (s.leaveReg i r).cinit = s.cinit := by
  unfold State.leaveReg; split <;> simp
@[simp] theorem State.leaveReg_cinitRead (s : State) (i : RegIdx) (r : Residue) : (s.leaveReg i r).cinitRead = s.cinitRead := by
  unfold State.leaveReg; split <;> simp
@[simp] theorem State.leaveReg_switchCap (s : State) (i : RegIdx) (r : Residue) : (s.leaveReg i r).switchCap = s.switchCap := by
  unfold State.leaveReg; split <;> simp
@[simp] theorem State.leaveReg_cis (s : State) (i : RegIdx) (r : Residue) : (s.leaveReg i r).cis = s.cis := by
  unfold State.leaveReg; split <;> simp
@[simp] theorem State.leaveReg_tval (s : State) (i : RegIdx) (r : Residue) : (s.leaveReg i r).tval = s.tval := by
  unfold State.leaveReg; split <;> simp
@[simp] theorem State.leaveReg_cause (s : State) (i : RegIdx) (r : Residue) : (s.leaveReg i r).cause = s.cause := by
  unfold State.leaveReg; split <;> simp
@[simp] theorem State.leaveReg_cwrld (s : State) (i : RegIdx) (r : Residue) : (s.leaveReg i r).cwrld = s.cwrld := by
  unfold State.leaveReg; split <;> simp
@[simp] theorem State.leaveReg_normalPc (s : State) (i : RegIdx) (r : Residue) : (s.leaveReg i r).normalPc = s.normalPc := by
  unfold State.leaveReg; split <;> simp
@[simp] theorem State.leaveReg_normalSp (s : State) (i : RegIdx) (r : Residue) : (s.leaveReg i r).normalSp = s.normalSp := by
  unfold State.leaveReg; split <;> simp
@[simp] theorem State.leaveReg_switchReg (s : State) (i : RegIdx) (r : Residue) : (s.leaveReg i r).switchReg = s.switchReg := by
  unfold State.leaveReg; split <;> simp
@[simp] theorem State.leaveReg_exitReg (s : State) (i : RegIdx) (r : Residue) : (s.leaveReg i r).exitReg = s.exitReg := by
  unfold State.leaveReg; split <;> simp
@[simp] theorem State.leaveReg_mem (s : State) (i : RegIdx) (r : Residue) : (s.leaveReg i r).mem = s.mem := by
  unfold State.leaveReg; split <;> simp
@[simp] theorem State.leaveReg_created (s : State) (i : RegIdx) (r : Residue) : (s.leaveReg i r).created = s.created := by
  unfold State.leaveReg; split <;> simp
@[simp] theorem State.leaveReg_sem (s : State) (i : RegIdx) (r : Residue) : (s.leaveReg i r).sem = s.sem := by
  unfold State.leaveReg; split <;> simp
@[simp] theorem State.leaveReg_semTick (s : State) (i : RegIdx) (r : Residue) : (s.leaveReg i r).semTick = s.semTick := by
  unfold State.leaveReg; split <;> simp

@[simp] theorem State.leaveReg_kept (s : State) (i : RegIdx) : s.leaveReg i .kept = s := rfl

@[simp] theorem State.regCell_leaveReg_other (s : State) (i j : RegIdx) (r : Residue) (h : j ≠ i) :
    (s.leaveReg i r).regCell j = s.regCell j := by
  unfold State.leaveReg; split <;> simp [h]

/-- What a register holds after a move out of it: what it held, an integer, or `cnull`. -/
theorem State.regCell_leaveReg (s : State) (i j : RegIdx) (r : Residue) :
    (s.leaveReg i r).regCell j = s.regCell j ∨ (∃ v, (s.leaveReg i r).regCell j = some (.int v)) ∨
    (s.leaveReg i r).regCell j = some (.cap cnull) := by
  unfold State.leaveReg
  split
  · exact .inl rfl
  · next v =>
    rw [State.regCell_writeReg]
    split
    · exact .inr (.inl ⟨v, rfl⟩)
    · exact .inl rfl
  · rw [State.regCell_writeReg]
    split
    · exact .inr (.inr rfl)
    · exact .inl rfl


/-- A register other than `x0` holds the integer or the `cnull` a move left in it. -/
theorem State.regCell_leaveReg_int (s : State) (i : RegIdx) (v : Word) (h : i ≠ 0) :
    (s.leaveReg i (.int v)).regCell i = some (.int v) := by
  simp [State.leaveReg, h]

theorem State.regCell_leaveReg_null (s : State) (i : RegIdx) (h : i ≠ 0) :
    (s.leaveReg i .null).regCell i = some (.cap cnull) := by
  simp [State.leaveReg, h]


/-! `State.setCcsr` -/

@[simp] theorem State.setCcsr_cfg (s : State) (r : AddedReg) (v : Cell) : (s.setCcsr r v).cfg = s.cfg := by
  unfold State.setCcsr; split <;> rfl
@[simp] theorem State.setCcsr_regs (s : State) (r : AddedReg) (v : Cell) : (s.setCcsr r v).regs = s.regs := by
  unfold State.setCcsr; split <;> rfl
@[simp] theorem State.setCcsr_pc (s : State) (r : AddedReg) (v : Cell) : (s.setCcsr r v).pc = s.pc := by
  unfold State.setCcsr; split <;> rfl
@[simp] theorem State.setCcsr_epc (s : State) (r : AddedReg) (v : Cell) : (s.setCcsr r v).epc = s.epc := by
  unfold State.setCcsr; split <;> rfl
@[simp] theorem State.setCcsr_cinit (s : State) (r : AddedReg) (v : Cell) : (s.setCcsr r v).cinit = s.cinit := by
  unfold State.setCcsr; split <;> rfl
@[simp] theorem State.setCcsr_cinitRead (s : State) (r : AddedReg) (v : Cell) : (s.setCcsr r v).cinitRead = s.cinitRead := by
  unfold State.setCcsr; split <;> rfl
@[simp] theorem State.setCcsr_cis (s : State) (r : AddedReg) (v : Cell) : (s.setCcsr r v).cis = s.cis := by
  unfold State.setCcsr; split <;> rfl
@[simp] theorem State.setCcsr_tval (s : State) (r : AddedReg) (v : Cell) : (s.setCcsr r v).tval = s.tval := by
  unfold State.setCcsr; split <;> rfl
@[simp] theorem State.setCcsr_cause (s : State) (r : AddedReg) (v : Cell) : (s.setCcsr r v).cause = s.cause := by
  unfold State.setCcsr; split <;> rfl
@[simp] theorem State.setCcsr_cwrld (s : State) (r : AddedReg) (v : Cell) : (s.setCcsr r v).cwrld = s.cwrld := by
  unfold State.setCcsr; split <;> rfl
@[simp] theorem State.setCcsr_normalPc (s : State) (r : AddedReg) (v : Cell) : (s.setCcsr r v).normalPc = s.normalPc := by
  unfold State.setCcsr; split <;> rfl
@[simp] theorem State.setCcsr_normalSp (s : State) (r : AddedReg) (v : Cell) : (s.setCcsr r v).normalSp = s.normalSp := by
  unfold State.setCcsr; split <;> rfl
@[simp] theorem State.setCcsr_switchReg (s : State) (r : AddedReg) (v : Cell) : (s.setCcsr r v).switchReg = s.switchReg := by
  unfold State.setCcsr; split <;> rfl
@[simp] theorem State.setCcsr_exitReg (s : State) (r : AddedReg) (v : Cell) : (s.setCcsr r v).exitReg = s.exitReg := by
  unfold State.setCcsr; split <;> rfl
@[simp] theorem State.setCcsr_mem (s : State) (r : AddedReg) (v : Cell) : (s.setCcsr r v).mem = s.mem := by
  unfold State.setCcsr; split <;> rfl
@[simp] theorem State.setCcsr_created (s : State) (r : AddedReg) (v : Cell) : (s.setCcsr r v).created = s.created := by
  unfold State.setCcsr; split <;> rfl
@[simp] theorem State.setCcsr_sem (s : State) (r : AddedReg) (v : Cell) : (s.setCcsr r v).sem = s.sem := by
  unfold State.setCcsr; split <;> rfl
@[simp] theorem State.setCcsr_semTick (s : State) (r : AddedReg) (v : Cell) : (s.setCcsr r v).semTick = s.semTick := by
  unfold State.setCcsr; split <;> rfl

@[simp] theorem State.setCcsr_regCell (s : State) (r : AddedReg) (v : Cell) (i : RegIdx) :
    (s.setCcsr r v).regCell i = s.regCell i := by
  unfold State.regCell; simp

/-- A CCSR write changes the CCSR named, and no other. -/
theorem State.setCcsr_ceh (s : State) (r : AddedReg) (v : Cell) :
    (s.setCcsr r v).ceh = if r = .ceh then v else s.ceh := by
  cases r <;> cases v <;> rfl

theorem State.setCcsr_deh (s : State) (r : AddedReg) (v : Cell) :
    (s.setCcsr r v).deh = if r = .deh then v else s.deh := by
  cases r <;> cases v <;> rfl

theorem State.setCcsr_cih (s : State) (r : AddedReg) (v : Cell) :
    (s.setCcsr r v).cih = if r = .cih then v else s.cih := by
  cases r <;> cases v <;> rfl

theorem State.setCcsr_switchCap (s : State) (r : AddedReg) (v : Cell) :
    (s.setCcsr r v).switchCap =
      if r = .switchCap then (match v with | .cap c => c | .int _ => cnull) else s.switchCap := by
  cases r <;> cases v <;> rfl


/-! `State.leaveCcsr` -/

@[simp] theorem State.leaveCcsr_cfg (s : State) (r : AddedReg) (l : Residue) : (s.leaveCcsr r l).cfg = s.cfg := by
  unfold State.leaveCcsr; split <;> simp
@[simp] theorem State.leaveCcsr_regs (s : State) (r : AddedReg) (l : Residue) : (s.leaveCcsr r l).regs = s.regs := by
  unfold State.leaveCcsr; split <;> simp
@[simp] theorem State.leaveCcsr_pc (s : State) (r : AddedReg) (l : Residue) : (s.leaveCcsr r l).pc = s.pc := by
  unfold State.leaveCcsr; split <;> simp
@[simp] theorem State.leaveCcsr_epc (s : State) (r : AddedReg) (l : Residue) : (s.leaveCcsr r l).epc = s.epc := by
  unfold State.leaveCcsr; split <;> simp
@[simp] theorem State.leaveCcsr_cinit (s : State) (r : AddedReg) (l : Residue) : (s.leaveCcsr r l).cinit = s.cinit := by
  unfold State.leaveCcsr; split <;> simp
@[simp] theorem State.leaveCcsr_cinitRead (s : State) (r : AddedReg) (l : Residue) : (s.leaveCcsr r l).cinitRead = s.cinitRead := by
  unfold State.leaveCcsr; split <;> simp
@[simp] theorem State.leaveCcsr_cis (s : State) (r : AddedReg) (l : Residue) : (s.leaveCcsr r l).cis = s.cis := by
  unfold State.leaveCcsr; split <;> simp
@[simp] theorem State.leaveCcsr_tval (s : State) (r : AddedReg) (l : Residue) : (s.leaveCcsr r l).tval = s.tval := by
  unfold State.leaveCcsr; split <;> simp
@[simp] theorem State.leaveCcsr_cause (s : State) (r : AddedReg) (l : Residue) : (s.leaveCcsr r l).cause = s.cause := by
  unfold State.leaveCcsr; split <;> simp
@[simp] theorem State.leaveCcsr_cwrld (s : State) (r : AddedReg) (l : Residue) : (s.leaveCcsr r l).cwrld = s.cwrld := by
  unfold State.leaveCcsr; split <;> simp
@[simp] theorem State.leaveCcsr_normalPc (s : State) (r : AddedReg) (l : Residue) : (s.leaveCcsr r l).normalPc = s.normalPc := by
  unfold State.leaveCcsr; split <;> simp
@[simp] theorem State.leaveCcsr_normalSp (s : State) (r : AddedReg) (l : Residue) : (s.leaveCcsr r l).normalSp = s.normalSp := by
  unfold State.leaveCcsr; split <;> simp
@[simp] theorem State.leaveCcsr_switchReg (s : State) (r : AddedReg) (l : Residue) : (s.leaveCcsr r l).switchReg = s.switchReg := by
  unfold State.leaveCcsr; split <;> simp
@[simp] theorem State.leaveCcsr_exitReg (s : State) (r : AddedReg) (l : Residue) : (s.leaveCcsr r l).exitReg = s.exitReg := by
  unfold State.leaveCcsr; split <;> simp
@[simp] theorem State.leaveCcsr_mem (s : State) (r : AddedReg) (l : Residue) : (s.leaveCcsr r l).mem = s.mem := by
  unfold State.leaveCcsr; split <;> simp
@[simp] theorem State.leaveCcsr_created (s : State) (r : AddedReg) (l : Residue) : (s.leaveCcsr r l).created = s.created := by
  unfold State.leaveCcsr; split <;> simp
@[simp] theorem State.leaveCcsr_sem (s : State) (r : AddedReg) (l : Residue) : (s.leaveCcsr r l).sem = s.sem := by
  unfold State.leaveCcsr; split <;> simp
@[simp] theorem State.leaveCcsr_semTick (s : State) (r : AddedReg) (l : Residue) : (s.leaveCcsr r l).semTick = s.semTick := by
  unfold State.leaveCcsr; split <;> simp

@[simp] theorem State.leaveCcsr_kept (s : State) (r : AddedReg) : s.leaveCcsr r .kept = s := rfl

@[simp] theorem State.leaveCcsr_regCell (s : State) (r : AddedReg) (l : Residue) (i : RegIdx) :
    (s.leaveCcsr r l).regCell i = s.regCell i := by
  unfold State.regCell; simp


/-! `State.placeWord` -/

@[simp] theorem State.placeWord_cfg (s : State) (c : Cap) (w : Nat) : (s.placeWord c w).cfg = s.cfg := rfl
@[simp] theorem State.placeWord_regs (s : State) (c : Cap) (w : Nat) : (s.placeWord c w).regs = s.regs := rfl
@[simp] theorem State.placeWord_ceh (s : State) (c : Cap) (w : Nat) : (s.placeWord c w).ceh = s.ceh := rfl
@[simp] theorem State.placeWord_deh (s : State) (c : Cap) (w : Nat) : (s.placeWord c w).deh = s.deh := rfl
@[simp] theorem State.placeWord_cih (s : State) (c : Cap) (w : Nat) : (s.placeWord c w).cih = s.cih := rfl
@[simp] theorem State.placeWord_epc (s : State) (c : Cap) (w : Nat) : (s.placeWord c w).epc = s.epc := rfl
@[simp] theorem State.placeWord_cinit (s : State) (c : Cap) (w : Nat) : (s.placeWord c w).cinit = s.cinit := rfl
@[simp] theorem State.placeWord_cinitRead (s : State) (c : Cap) (w : Nat) : (s.placeWord c w).cinitRead = s.cinitRead := rfl
@[simp] theorem State.placeWord_switchCap (s : State) (c : Cap) (w : Nat) : (s.placeWord c w).switchCap = s.switchCap := rfl
@[simp] theorem State.placeWord_cis (s : State) (c : Cap) (w : Nat) : (s.placeWord c w).cis = s.cis := rfl
@[simp] theorem State.placeWord_tval (s : State) (c : Cap) (w : Nat) : (s.placeWord c w).tval = s.tval := rfl
@[simp] theorem State.placeWord_cause (s : State) (c : Cap) (w : Nat) : (s.placeWord c w).cause = s.cause := rfl
@[simp] theorem State.placeWord_cwrld (s : State) (c : Cap) (w : Nat) : (s.placeWord c w).cwrld = s.cwrld := rfl
@[simp] theorem State.placeWord_normalPc (s : State) (c : Cap) (w : Nat) : (s.placeWord c w).normalPc = s.normalPc := rfl
@[simp] theorem State.placeWord_normalSp (s : State) (c : Cap) (w : Nat) : (s.placeWord c w).normalSp = s.normalSp := rfl
@[simp] theorem State.placeWord_switchReg (s : State) (c : Cap) (w : Nat) : (s.placeWord c w).switchReg = s.switchReg := rfl
@[simp] theorem State.placeWord_exitReg (s : State) (c : Cap) (w : Nat) : (s.placeWord c w).exitReg = s.exitReg := rfl
@[simp] theorem State.placeWord_created (s : State) (c : Cap) (w : Nat) : (s.placeWord c w).created = s.created := rfl
@[simp] theorem State.placeWord_sem (s : State) (c : Cap) (w : Nat) : (s.placeWord c w).sem = s.sem := rfl
@[simp] theorem State.placeWord_semTick (s : State) (c : Cap) (w : Nat) : (s.placeWord c w).semTick = s.semTick := rfl
@[simp] theorem State.placeWord_pc (s : State) (c : Cap) (w : Nat) : (s.placeWord c w).pc = .cap c := rfl

end Sys2Proof.Machine
end

