-- ==== Sys2Proof/Laws/Ops.lean ====
section
/-! SUPPORT. For each shared operation, once, everything it can do when it answers. -/

namespace Sys2Proof.Machine

open Sys2Proof

@[simp] theorem stop_outcome_ne_next (e : Stop) (t : State) : e.outcome ≠ .next t := by
  cases e <;> simp [Stop.outcome]

/-- Two next states are equal when the states are. -/
theorem next_eq_next (a b : State) : ((.next a : Result) = .next b) ↔ b = a := by
  constructor <;> (intro h; cases h; rfl)

/-! ## Gates -/

/-- A gate that does not open stops with some reason. -/
theorem gate_cases (g : Except Stop Unit) : g = .ok () ∨ ∃ e, g = .error e := by
  cases g with
  | ok u => exact .inl rfl
  | error e => exact .inr ⟨e, rfl⟩

theorem State.authGate_ok (s : State) (m : Mnemonic) (ops : OperandForm) :
    s.authGate m ops = .ok () ↔
      s.supplied m = true ∧ (∃ c, s.xcap (operandReg ops s.sem.auth) = .ok c ∧ c.valid = true) ∧ s.sem.completes = true := by
  unfold State.authGate
  by_cases h1 : s.supplied m = true
  · cases h2 : s.xcap (operandReg ops s.sem.auth) with
    | error f => simp [h1]
    | ok c => by_cases hv : c.valid = true <;> by_cases h3 : s.sem.completes = true <;> simp [h1, hv, h3]
  · simp [h1]

theorem State.reachGate_ok (s : State) (m : Mnemonic) (n : Nat) :
    s.reachGate m n = .ok () ↔ capReach s.cfg.variant s.sem.addr.toNat n = true := by
  unfold State.reachGate
  split <;> simp [*]

theorem State.alignGate_ok (s : State) (m : Mnemonic) :
    s.alignGate m = .ok () ↔ s.sem.addr.toNat % clenBytes = 0 := by
  unfold State.alignGate
  split <;> simp [*]

/-- Two tests in a row pass when both do. -/
theorem firstStop_ok (g h : Except Stop Unit) : firstStop g h = .ok () ↔ g = .ok () ∧ h = .ok () := by
  cases g <;> simp [firstStop]

theorem State.capGate_ok (s : State) (m : Mnemonic) (ops : OperandForm) (n : Nat) :
    s.capGate m ops n = .ok () ↔
      s.supplied m = true ∧ (∃ c, s.xcap (operandReg ops s.sem.auth) = .ok c ∧ c.valid = true) ∧ s.sem.completes = true ∧
      capReach s.cfg.variant s.sem.addr.toNat n = true := by
  simp only [State.capGate, firstStop_ok, State.authGate_ok, State.reachGate_ok, and_assoc]

/-- The granule's gate opens when the gate of sixteen raw bytes does and the address is aligned. -/
theorem State.granuleGate_ok (s : State) (m : Mnemonic) (ops : OperandForm) :
    s.granuleGate m ops = .ok () ↔ s.capGate m ops clenBytes = .ok () ∧ s.alignGate m = .ok () := by
  simp only [State.granuleGate, State.capGate, firstStop_ok]
  tauto

theorem State.mmuGate_ok (s : State) (m : Mnemonic) (ops : OperandForm) (n : Nat) :
    s.mmuGate m ops n = .ok () ↔
      hasMmu s.cfg.variant = true ∧ s.supplied m = true ∧ (∃ v, s.xint (operandReg ops s.sem.auth) = .ok v) ∧
      s.sem.completes = true ∧ mmuReach s.cfg.variant s.sem.addr.toNat n = true := by
  unfold State.mmuGate
  by_cases h0 : hasMmu s.cfg.variant = true
  · by_cases h1 : s.supplied m = true
    · cases h2 : s.xint (operandReg ops s.sem.auth) with
      | error f => simp [h0, h1]
      | ok c =>
        by_cases h3 : s.sem.completes = true
        · by_cases h4 : mmuReach s.cfg.variant s.sem.addr.toNat n = true <;> simp [h0, h1, h3, h4]
        · simp [h0, h1, h3]
    · simp [h0, h1]
  · simp [h0]

/-! ## The load and store families -/

theorem State.loadData_next (s t : State) (m : Mnemonic) (n : Nat) (ops : OperandForm) :
    s.loadData m n ops = .next t ↔
      s.capGate m ops n = .ok () ∧ ∃ v, s.mem.read s.sem.addr.toNat n = some v ∧
        t = s.afterLoad ops (.int (extendLoaded n s.sem.signed v)) := by
  unfold State.loadData
  rcases gate_cases (s.capGate m ops n) with h | ⟨e, h⟩
  · rw [h]
    cases hr : s.mem.read s.sem.addr.toNat n <;> simp [next_eq_next, -Host.Outcome.next.injEq]
  · rw [h]
    simp

theorem State.storeData_next (s t : State) (m : Mnemonic) (n : Nat) (ops : OperandForm) :
    s.storeData m n ops = .next t ↔
      s.capGate m ops n = .ok () ∧ ∃ v mem, s.xint (operandReg ops s.sem.data) = .ok v ∧
        s.mem.write s.sem.addr.toNat n v.toNat = some mem ∧
        t = { s.redraw.moveCursor (operandReg ops s.sem.auth) s.sem.cursorAfter with mem := mem } := by
  unfold State.storeData
  rcases gate_cases (s.capGate m ops n) with h | ⟨e, h⟩
  · rw [h]
    cases hx : s.xint (operandReg ops s.sem.data) with
    | error f => simp
    | ok v =>
      cases hw : s.mem.write s.sem.addr.toNat n v.toNat <;> simp [hw, next_eq_next, -Host.Outcome.next.injEq]
  · rw [h]
    simp

theorem State.loadCap_next (s t : State) (m : Mnemonic) (ops : OperandForm) :
    s.loadCap m ops = .next t ↔
      s.capGate m ops clenBytes = .ok () ∧ s.alignGate m = .ok () ∧ ∃ c, s.mem.readCap s.sem.addr.toNat = some c ∧
        t = { s.afterLoad ops (.cap c) with mem := s.mem.leave s.sem.addr.toNat s.sem.memLeft } := by
  rw [← and_assoc, ← State.granuleGate_ok]
  unfold State.loadCap
  rcases gate_cases (s.granuleGate m ops) with h | ⟨e, h⟩
  · rw [h]
    cases hr : s.mem.readCap s.sem.addr.toNat <;> simp [next_eq_next, -Host.Outcome.next.injEq]
  · rw [h]
    simp

theorem State.storeCap_next (s t : State) (m : Mnemonic) (ops : OperandForm) :
    s.storeCap m ops = .next t ↔
      s.capGate m ops clenBytes = .ok () ∧ s.alignGate m = .ok () ∧ ∃ c, s.xcap (operandReg ops s.sem.data) = .ok c ∧
        t = { (s.redraw.moveCursor (operandReg ops s.sem.auth) s.sem.cursorAfter).leaveReg
                (operandReg ops s.sem.data) s.sem.regLeft with mem := s.mem.writeCap s.sem.addr.toNat c } := by
  rw [← and_assoc, ← State.granuleGate_ok]
  unfold State.storeCap
  rcases gate_cases (s.granuleGate m ops) with h | ⟨e, h⟩
  · rw [h]
    cases hr : s.xcap (operandReg ops s.sem.data) <;> simp [next_eq_next, -Host.Outcome.next.injEq]
  · rw [h]
    simp

theorem State.loadCapRaw_next (s t : State) (m : Mnemonic) (ops : OperandForm) :
    s.loadCapRaw m ops = .next t ↔
      s.mmuGate m ops clenBytes = .ok () ∧ s.alignGate m = .ok () ∧ ∃ c, s.mem.readCap s.sem.addr.toNat = some c ∧
        t = { s.redraw.writeReg ops.rdField (.cap c) with mem := s.mem.leave s.sem.addr.toNat s.sem.memLeft } := by
  unfold State.loadCapRaw
  rcases gate_cases (s.mmuGate m ops clenBytes) with h | ⟨e, h⟩
  · rcases gate_cases (s.alignGate m) with h2 | ⟨e, h2⟩
    · rw [h, h2]
      cases hr : s.mem.readCap s.sem.addr.toNat <;> simp [next_eq_next, -Host.Outcome.next.injEq]
    · rw [h, h2]
      simp
  · rw [h]
    simp

theorem State.storeCapRaw_next (s t : State) (m : Mnemonic) (ops : OperandForm) :
    s.storeCapRaw m ops = .next t ↔
      s.mmuGate m ops clenBytes = .ok () ∧ s.alignGate m = .ok () ∧ ∃ c, s.xcap (operandReg ops s.sem.data) = .ok c ∧
        t = { s.redraw.leaveReg (operandReg ops s.sem.data) s.sem.regLeft with
                mem := s.mem.writeCap s.sem.addr.toNat c } := by
  unfold State.storeCapRaw
  rcases gate_cases (s.mmuGate m ops clenBytes) with h | ⟨e, h⟩
  · rcases gate_cases (s.alignGate m) with h2 | ⟨e, h2⟩
    · rw [h, h2]
      cases hr : s.xcap (operandReg ops s.sem.data) <;> simp [next_eq_next, -Host.Outcome.next.injEq]
    · rw [h, h2]
      simp
  · rw [h]
    simp

/-! ## The CCSR family -/

theorem State.readCinit_next (s t : State) (rd : RegIdx) :
    s.readCinit rd = .next t ↔
      (s.cinitRead = true ∧ t = s) ∨
      (s.cinitRead = false ∧ s.readAllowed .cinit = true ∧ t = { s.writeReg rd (.cap s.cinit) with cinitRead := true }) := by
  unfold State.readCinit
  by_cases h1 : s.cinitRead = true
  · simp [h1, next_eq_next, -Host.Outcome.next.injEq]
  · by_cases h2 : s.readAllowed .cinit = true <;> simp [h1, h2, next_eq_next, -Host.Outcome.next.injEq]

/-- Past the tests of R112 a CCSR read delivers the content. -/
theorem State.readCcsr_next (s t : State) (rd : RegIdx) (n : Imm) :
    s.readCcsr rd n = .next t ↔ ∃ r, ccsrNamed s.cfg.variant n = some r ∧
      ((r = .cinit ∧ s.readCinit rd = .next t) ∨
       (r ≠ .cinit ∧ r ≠ .epc ∧ s.readAllowed r = true ∧ s.supplied .ccsrRead = true ∧ t = s.afterCcsrRead rd r)) := by
  unfold State.readCcsr
  cases hr : ccsrNamed s.cfg.variant n with
  | none => simp
  | some r =>
    by_cases h1 : r = .cinit
    · simp [h1]
    · by_cases h2 : r = .epc
      · simp [h2]
      · by_cases h3 : s.readAllowed r = true
        · by_cases h4 : s.supplied .ccsrRead = true <;> simp [h1, h2, h3, h4, next_eq_next, -Host.Outcome.next.injEq]
        · simp [h1, h2, h3]

/-- Past the tests of R113 a CCSR write stores the source's content. -/
theorem State.writeCcsr_next (s t : State) (n : Imm) (rs1 : RegIdx) :
    s.writeCcsr n rs1 = .next t ↔ ∃ r, ccsrNamed s.cfg.variant n = some r ∧
      ((r = .cinit ∧ t = s) ∨
       (r ≠ .cinit ∧ r ≠ .epc ∧ s.writeAllowed r = true ∧ s.supplied .ccsrWrite = true ∧
        ∃ v, s.ccsrSource r rs1 = .ok v ∧ t = s.afterCcsrWrite r rs1 v)) := by
  unfold State.writeCcsr
  cases hr : ccsrNamed s.cfg.variant n with
  | none => simp
  | some r =>
    by_cases h1 : r = .cinit
    · simp [h1, State.writeCinit, next_eq_next, -Host.Outcome.next.injEq]
    · by_cases h2 : r = .epc
      · simp [h2]
      · by_cases h3 : s.writeAllowed r = true
        · by_cases h4 : s.supplied .ccsrWrite = true
          · cases h5 : s.ccsrSource r rs1 <;> simp [h1, h2, h3, h4, h5, next_eq_next, -Host.Outcome.next.injEq]
          · simp [h1, h2, h3, h4]
        · simp [h1, h2, h3]

/-- A combined access goes on when both parts do, the write part from the state the read part left. -/
theorem State.combinedCcsr_next (s t : State) (rd : RegIdx) (n : Imm) (rs1 : RegIdx) :
    s.combinedCcsr rd n rs1 = .next t ↔ ∃ u, s.readCcsr rd n = .next u ∧ u.writeCcsr n rs1 = .next t := by
  unfold State.combinedCcsr
  cases s.readCcsr rd n <;> simp

/-! ## Fetch, advance, step -/

theorem State.fetch_ok (s : State) (c : Cap) (w : InstrWord) :
    s.fetch = .ok (c, w) ↔
      s.pc = .cap c ∧ fetchCheck c = none ∧ fetchReach s.cfg.variant c.cursor.toNat = true ∧
      s.mem.fetchWord c.cursor.toNat = some w := by
  unfold State.fetch
  constructor
  · intro h
    split at h
    · simp at h
    · next d hd =>
      split at h
      · simp at h
      · next hf =>
        split at h
        · next hr =>
          split at h
          · simp at h
          · next w' hw =>
            simp only [Except.ok.injEq, Prod.mk.injEq] at h
            obtain ⟨rfl, rfl⟩ := h
            exact ⟨hd, hf, hr, hw⟩
        · simp at h
  · rintro ⟨h1, h2, h3, h4⟩
    simp [h1, h2, h3, h4]

theorem State.advancePc_next (s t : State) (c : Cap) :
    s.advancePc c = .next t ↔
      c.cursor.toNat + 4 < addrSpace ∧ t = { s with pc := .cap { c with cursor := c.cursor + 4#64 } } := by
  unfold State.advancePc
  split <;> simp [*, next_eq_next, -Host.Outcome.next.injEq]

/-- Everything a step that goes on does: it fetched through the capability in `pc`, ran the decoded instruction and advanced
`pc`. -/
theorem step_next (s t : State) (h : step s = .next t) :
    ∃ c w i u, s.fetch = .ok (c, w) ∧ decode s.cfg.enc w = .ok i ∧ exec i s = .next u ∧
      c.cursor.toNat + 4 < addrSpace ∧ t = { u with pc := .cap { c with cursor := c.cursor + 4#64 } } := by
  unfold step at h
  split at h
  · simp at h
  · next c w hf =>
    unfold State.decoded at h
    cases hd : decode s.cfg.enc w with
    | error e => simp [hd] at h
    | ok i =>
      simp only [hd] at h
      cases he : exec i s with
      | fault f => simp [he] at h
      | refused r => simp [he] at h
      | next u =>
        simp only [he] at h
        have h' := (State.advancePc_next u t c).mp h
        exact ⟨c, w, i, u, hf, hd, he, h'.1, h'.2⟩

end Sys2Proof.Machine
end

