-- ==== Sys2Proof/Laws/PerInstr.lean ====
section
/-! SUPPORT. Families of facts with one lemma per instruction. -/

namespace Sys2Proof.Laws

open Sys2Proof

/-- A well-formed instruction has a word, and the word's opcode is the extension's (R84). -/
def EncodesAsCustom2.Statement (i : Instr) : Prop :=
  ∀ enc : Enc, i.wf enc = true → ∃ w, encode enc i = some w ∧ opcodeOf w = custom2

theorem encodes_of_wf (i : Instr) (enc : Enc) (h : i.wf enc = true) : ∃ w, encode enc i = some w ∧ opcodeOf w = custom2 := by
  unfold Instr.wf at h
  cases hr : enc.rowOf i.mnemonic with
  | none => simp [hr] at h
  | some row => exact ⟨row.encode i, by simp [encode, hr], by simp [EncRow.encode]⟩

theorem EncodesAsCustom2.ldd (ops : OperandForm) : EncodesAsCustom2.Statement (.ldd ops) := fun enc h => encodes_of_wf _ enc h
theorem EncodesAsCustom2.ldw (ops : OperandForm) : EncodesAsCustom2.Statement (.ldw ops) := fun enc h => encodes_of_wf _ enc h
theorem EncodesAsCustom2.ldh (ops : OperandForm) : EncodesAsCustom2.Statement (.ldh ops) := fun enc h => encodes_of_wf _ enc h
theorem EncodesAsCustom2.ldb (ops : OperandForm) : EncodesAsCustom2.Statement (.ldb ops) := fun enc h => encodes_of_wf _ enc h
theorem EncodesAsCustom2.std (ops : OperandForm) : EncodesAsCustom2.Statement (.std ops) := fun enc h => encodes_of_wf _ enc h
theorem EncodesAsCustom2.stw (ops : OperandForm) : EncodesAsCustom2.Statement (.stw ops) := fun enc h => encodes_of_wf _ enc h
theorem EncodesAsCustom2.sth (ops : OperandForm) : EncodesAsCustom2.Statement (.sth ops) := fun enc h => encodes_of_wf _ enc h
theorem EncodesAsCustom2.stb (ops : OperandForm) : EncodesAsCustom2.Statement (.stb ops) := fun enc h => encodes_of_wf _ enc h
theorem EncodesAsCustom2.ldc (ops : OperandForm) : EncodesAsCustom2.Statement (.ldc ops) := fun enc h => encodes_of_wf _ enc h
theorem EncodesAsCustom2.stc (ops : OperandForm) : EncodesAsCustom2.Statement (.stc ops) := fun enc h => encodes_of_wf _ enc h
theorem EncodesAsCustom2.ldcr (ops : OperandForm) : EncodesAsCustom2.Statement (.ldcr ops) := fun enc h => encodes_of_wf _ enc h
theorem EncodesAsCustom2.stcr (ops : OperandForm) : EncodesAsCustom2.Statement (.stcr ops) := fun enc h => encodes_of_wf _ enc h
theorem EncodesAsCustom2.ccsrRead (rd : RegIdx) (n : Imm) : EncodesAsCustom2.Statement (.ccsrRead rd n) := fun enc h => encodes_of_wf _ enc h
theorem EncodesAsCustom2.ccsrReadCinit (rd : RegIdx) : EncodesAsCustom2.Statement (.ccsrReadCinit rd) := fun enc h => encodes_of_wf _ enc h
theorem EncodesAsCustom2.ccsrWrite (n : Imm) (rs1 : RegIdx) : EncodesAsCustom2.Statement (.ccsrWrite n rs1) := fun enc h => encodes_of_wf _ enc h
theorem EncodesAsCustom2.ccsrWriteCinit (rs1 : RegIdx) : EncodesAsCustom2.Statement (.ccsrWriteCinit rs1) := fun enc h => encodes_of_wf _ enc h

end Sys2Proof.Laws
end

