-- ==== Sys2Proof/Tests/Slice0.lean ====
section
/-! SUPPORT. The author's tests: ill-formed terms refused, words written out from the encodings, the vectors of
spec/95_test_vectors.md (V, E and program letters are its own), one step each, and a witness for the hypotheses of every obligation
that has any. -/

namespace Sys2Proof.Tests

open Sys2Proof Sys2Proof.Machine

/-! ## States for the tests -/

/-- A free answer that lets an access complete at an address, authority in `rs1`, data in `rs2`. -/
def answer (addr : Word) : SemAnswer :=
  { completes := true, auth := .rs1, data := .rs2, addr := addr, signed := false, cursorAfter := none,
    memLeft := .kept, regLeft := .kept, x0AsCap := false }

/-- A capability to move about: every field has a value of its own. -/
def capK : Cap :=
  { valid := true, ctype := .revocation, cursor := 0x9008#64, base := 0x9000#64, limit := 0x9100, perms := 6#3,
    async := .uponInterrupt, reg := 17, stamp := 5 }

/-- V7's and program D's bounds: `SBASE = 0x8000`, `SEND = 0x10000`. -/
def hybridV : Variant := .hybrid 0x8000#64 0x10000

/-- The machine after reset in a variant, every `SEM` supplied, with the answer for `addr`; `x1`, `x3` hold capabilities, `x2` an
integer; the bytes `D4 C3 B2 A1` (V8) stand at 0x9000 and 0x400, the capability at 0x9010 and 0x410. -/
def mk (v : Variant) (addr : Word) : State :=
  (({ State.resetWith { Config.model with variant := v } with
      sem := answer addr
      mem := { bytes := [(0x400, 0xD4#8), (0x401, 0xC3#8), (0x402, 0xB2#8), (0x403, 0xA1#8), (0x9000, 0xD4#8),
                         (0x9001, 0xC3#8), (0x9002, 0xB2#8), (0x9003, 0xA1#8)]
               caps := [(0x41, capK), (0x901, capK)] } }.writeReg 1 (.cap capK)).writeReg 2 (.int 0xA1B2C3D4#64)).writeReg 3
    (.cap capK)

/-- The spec's own default configuration (T0, no `SEM`), `pc = {1, 0, cur, 0, X, 7}`, an instruction word at `cur`. -/
def t0At (v : Variant) (cur : Word) (w : Nat) : State :=
  (State.resetWith (Config.t0 v)).placeWord { initialCap .pure with cursor := cur } w

/-- What an outcome's next state shows. -/
def after {α : Type} (r : Result) (f : State → α) : Option α :=
  match r with
  | .next t => some (f t)
  | .fault _ => none
  | .refused _ => none

/-! ## WellFormed refuses what is ill formed -/

/-- No row of `ENC` for the instruction: T0 encodes the CCSR operations only. -/
theorem test_wf_no_row : (Instr.ldd (.i 1 2 0#12)).wf Enc.t0 = false := by decide

/-- The wrong format. -/
theorem test_wf_format : (Instr.ldd (.r 1 2 3)).wf Enc.model = false ∧ (Instr.stc (.i 1 2 0#12)).wf Enc.model = false := by decide

/-- An operand that differs from the row's fixed field. -/
theorem test_wf_fixed : (Instr.ldd (.i 1 2 0#12)).wf [{ Enc.iRow .ldd 3#3 with rs1 := some 4 }] = false := by decide

/-- `cinit`'s number in the constructors for the other CCSRs. -/
theorem test_wf_cinit_number : (Instr.ccsrRead 5 0x010#12).wf Enc.t0 = false ∧ (Instr.ccsrWrite 0x010#12 5).wf Enc.t0 = false := by
  decide

/-- A CCSR number that has no room in a register field. -/
theorem test_wf_number : (Instr.ccsrRead 5 0x020#12).wf [Enc.rRow .ccsrRead 0#7] = false ∧
    (Instr.ccsrRead 5 0x01F#12).wf [Enc.rRow .ccsrRead 0#7] = true := by decide

/-- An ambiguous `ENC`, and CCSR rows that put the number in the register operand's own field. -/
theorem test_wf_enc : Enc.wf [Enc.iRow .ldd 3#3, Enc.rRow .std 0#7, Enc.iRow .ldw 3#3] = false ∧
    Enc.wf [{ Enc.rRow .ccsrRead 0#7 with numberAt := .rd }] = false ∧
    Enc.wf [{ Enc.rRow .ccsrWrite 0#7 with numberAt := .rs1 }] = false ∧ Enc.wf [Enc.rRow .ccsrRead 0#7] = true := by decide

/-- V10: an `SBASE` that is no multiple of 16 is not a launch configuration; an empty secure memory is one. -/
theorem test_wf_variant : (Variant.hybrid 0x80000008#64 0x90000000).wf = false ∧
    (Variant.hybrid 0x80000000#64 0x80000000).wf = true ∧ (Variant.hybrid 0x90#64 0x80).wf = false := by decide

/-! ## Decoding: words written out field by field -/

/-- T0, section 4: `imm rs1 funct3 rd opcode`. -/
theorem test_decode_ccsr_read : decode Enc.t0 (0b001000000010_00000_000_00101_1011011#32) = .ok (.ccsrRead 5 0x202#12) := by decide
theorem test_decode_ccsr_write : decode Enc.t0 (0b000000000001_00101_001_00000_1011011#32) = .ok (.ccsrWrite 0x001#12 5) := by decide
theorem test_decode_read_cinit : decode Enc.t0 (0b000000010000_00000_000_01010_1011011#32) = .ok (.ccsrReadCinit 10) := by decide
theorem test_decode_write_cinit : decode Enc.t0 (0b000000010000_00111_001_00000_1011011#32) = .ok (.ccsrWriteCinit 7) := by decide

/-- CCSR rows of the R format (R89, R110): the number in `rs2`, in `rs1`, and in `rd`. -/
theorem test_decode_ccsr_r_format :
    decode [Enc.rRow .ccsrRead 9#7] (0b0001001_00101_00000_010_01010_1011011#32) = .ok (.ccsrRead 10 0x005#12) ∧
    decode [{ Enc.rRow .ccsrRead 9#7 with numberAt := .rs1 }] (0b0001001_00101_10000_010_01010_1011011#32) =
      .ok (.ccsrReadCinit 10) ∧
    decode [{ Enc.rRow .ccsrWrite 9#7 with numberAt := .rd }] (0b0001001_11111_00111_010_00010_1011011#32) =
      .ok (.ccsrWrite 0x002#12 7) := by decide

/-- The model's own I-type rows (R87): `imm rs1 funct3 rd opcode`. -/
theorem test_decode_ldd : decode Enc.model (0b101010111100_00001_011_00100_1011011#32) = .ok (.ldd (.i 4 1 0xABC#12)) := by decide
theorem test_decode_ldw : decode Enc.model (0b000000000001_11111_100_00010_1011011#32) = .ok (.ldw (.i 2 31 1#12)) := by decide
theorem test_decode_ldh : decode Enc.model (0b100000000000_10000_101_11110_1011011#32) = .ok (.ldh (.i 30 16 0x800#12)) := by decide
theorem test_decode_ldb : decode Enc.model (0b000000010000_00011_110_01000_1011011#32) = .ok (.ldb (.i 8 3 0x010#12)) := by decide

/-- The model's own R-type rows (R86): `funct7 rs2 rs1 funct3 rd opcode`. -/
theorem test_decode_std : decode Enc.model (0b0000000_00011_00010_010_00001_1011011#32) = .ok (.std (.r 1 2 3)) := by decide
theorem test_decode_stw : decode Enc.model (0b0000001_10000_00100_010_01000_1011011#32) = .ok (.stw (.r 8 4 16)) := by decide
theorem test_decode_sth : decode Enc.model (0b0000010_00001_11111_010_00000_1011011#32) = .ok (.sth (.r 0 31 1)) := by decide
theorem test_decode_stb : decode Enc.model (0b0000011_11110_00001_010_11101_1011011#32) = .ok (.stb (.r 29 1 30)) := by decide
theorem test_decode_ldc : decode Enc.model (0b0000100_00000_01010_010_00101_1011011#32) = .ok (.ldc (.r 5 10 0)) := by decide
theorem test_decode_stc : decode Enc.model (0b0000101_00101_01010_010_00000_1011011#32) = .ok (.stc (.r 0 10 5)) := by decide
theorem test_decode_ldcr : decode Enc.model (0b0000110_00000_00110_010_01100_1011011#32) = .ok (.ldcr (.r 12 6 0)) := by decide
theorem test_decode_stcr : decode Enc.model (0b0000111_01100_00110_010_00000_1011011#32) = .ok (.stcr (.r 0 6 12)) := by decide

/-- V11: field extraction of `0xABCDE2DB`. -/
theorem test_fields : opcodeOf 0xABCDE2DB#32 = 0x5B#7 ∧ rdOf 0xABCDE2DB#32 = 5 ∧ funct3Of 0xABCDE2DB#32 = 6#3 ∧
    rs1Of 0xABCDE2DB#32 = 27 ∧ rs2Of 0xABCDE2DB#32 = 28 ∧ funct7Of 0xABCDE2DB#32 = 0x55#7 ∧ immOf 0xABCDE2DB#32 = 0xABC#12 := by
  decide

/-- V11: under no `ENC` every word is refused, by the right name. -/
theorem test_decode_empty_enc : decode [] 0x0000005B#32 = .error (.unknownCustom2 0x0000005B#32) ∧
    decode [] 0xFFFFFFFF#32 = .error (.baseIsa 0xFFFFFFFF#32) ∧
    decode [] 0x000000DB#32 = .error (.unknownCustom2 0x000000DB#32) ∧
    decodeBytes Enc.t0 [0x5B#8, 0x05#8, 0x00#8] = .error .truncated := by decide

/-- The host's two questions, on a word of the model's encoding: the decoder's answer, and what the first step runs. -/
theorem test_fetch_word : decodeTableWord 32 0x0100055B = some (.ccsrReadCinit 10) ∧
    after (step (State.reset.withFetchWord 32 0x0100055B)) (fun t => t.regCell 10) = some (some (.cap (initialCap .pure))) := by
  decide

/-! ## Capability values -/

/-- V2: the executable masks, and the pairs that are not ordered. -/
theorem test_perms : (executable 1#3 && executable 3#3 && executable 5#3 && executable 7#3) = true ∧
    (executable 6#3 || permLe 1#3 2#3 || permLe 2#3 1#3 || permLe 3#3 4#3 || permLe 7#3 5#3) = false ∧
    permPairs.length = 27 := by decide

/-- A region for V3. -/
def region (b : Word) (e : EndAddr) : Cap := { cnull with ctype := .revocation, base := b, limit := e }

/-- V3, all eight rows. -/
theorem test_aliases : (region 0x1000#64 0x2000).aliases (region 0x1800#64 0x2800) = true ∧
    (region 0x1000#64 0x2000).aliases (region 0x2000#64 0x3000) = false ∧
    (region 0x1000#64 0x2000).aliases (region 0x1FFF#64 0x2000) = true ∧
    (region 0x1000#64 0x1000).aliases (region 0#64 (Fin.last addrSpace)) = false ∧
    (region 0x2000#64 0x1000).aliases (region 0#64 (Fin.last addrSpace)) = false ∧
    (region 0x1000#64 0x2000).aliases (region 0x1000#64 0x2000) = true ∧
    (region 0x1000#64 0x1000).aliases (region 0x1000#64 0x1000) = false ∧
    (region 0#64 (Fin.last addrSpace)).aliases (region 0xFFFFFFFFFFFFFFFF#64 (Fin.last addrSpace)) = true := by decide

/-- V4. -/
theorem test_created_before :
    ({ region 0x1000#64 0x2000 with stamp := 3 }.createdBefore { region 0x1800#64 0x3000 with stamp := 5 } = some true) ∧
    ({ region 0x1000#64 0x2000 with stamp := 5 }.createdBefore { region 0x1800#64 0x3000 with stamp := 3 } = some false) ∧
    ({ region 0x1000#64 0x2000 with stamp := 3 }.createdBefore { region 0x2000#64 0x3000 with stamp := 5 } = some false) ∧
    (cnull.createdBefore (region 0#64 1) = none) := by decide

/-- E4, with C6 for the exit row. -/
theorem test_fields_used : CapType.uses .revocation .cursor = false ∧ CapType.uses .sealed .limit = false ∧
    CapType.uses .sealedReturn .reg = true ∧ CapType.uses .exit .base = false ∧ CapType.uses .uninitialised .perms = true := by decide

/-- E5: the aliases of index 8, and the first and last. -/
theorem test_aliases_of_registers : intAliases 8 = ["x8", "s0", "fp"] ∧ capAliases 8 = ["c8", "cs0", "cfp"] ∧
    capAliases 0 = ["c0", "cnull"] ∧ intAliases 31 = ["x31", "t6"] ∧ intAliases 18 = ["x18", "s2"] := by decide

/-! ## The fetch check and the step -/

/-- A capability of V6. -/
def pcOf (cur base : Word) (limit : EndAddr) (perms : Perms) : Cap :=
  { cnull with valid := true, cursor := cur, base := base, limit := limit, perms := perms }

/-- V6, rows 10, 11, 16 to 18, 20 and 22 to 28. -/
theorem test_fetch_check :
    fetchCheck (pcOf 0x1000#64 0x1000#64 0x2000 1#3) = none ∧
    fetchCheck (pcOf 0x1000#64 0x1000#64 0x2000 2#3) = some .instructionAccessFault ∧
    fetchCheck (pcOf 0x0FFC#64 0x1000#64 0x2000 7#3) = some .instructionAccessFault ∧
    fetchCheck (pcOf 0x1FFC#64 0x1000#64 0x2000 7#3) = none ∧
    fetchCheck (pcOf 0x1FFD#64 0x1000#64 0x2000 7#3) = some .instructionAccessFault ∧
    fetchCheck (pcOf 0x1002#64 0x1000#64 0x2000 7#3) = some .instructionAddressMisaligned ∧
    fetchCheck (pcOf 0x1001#64 0x1000#64 0x1004 7#3) = some .instructionAccessFault ∧
    fetchCheck (pcOf 0#64 0#64 3 7#3) = some .instructionAccessFault ∧
    fetchCheck (pcOf 0#64 0#64 4 7#3) = none ∧
    fetchCheck (pcOf 0xFFFFFFFFFFFFFFFC#64 0#64 (Fin.last addrSpace) 7#3) = none ∧
    fetchCheck (pcOf 0xFFFFFFFFFFFFFFFD#64 0#64 (Fin.last addrSpace) 7#3) = some .instructionAccessFault ∧
    fetchCheck (pcOf 0xFFFFFFFFFFFFFFFC#64 0#64 18446744073709551615 7#3) = some .instructionAccessFault := by decide

/-- V6, rows 2, 3 to 8 and 30: validity and the seven types. -/
theorem test_fetch_check_types :
    fetchCheck { pcOf 0x1000#64 0x1000#64 0x2000 7#3 with valid := false } = some .instructionAccessFault ∧
    fetchCheck { pcOf 0x1000#64 0x1000#64 0x2000 5#3 with ctype := .nonLinear } = none ∧
    ([CapType.revocation, .uninitialised, .sealed, .sealedReturn, .exit].all fun ty =>
      fetchCheck { pcOf 0x1000#64 0x1000#64 0x2000 7#3 with ctype := ty } = some .instructionAccessFault) = true ∧
    fetchCheck { pcOf 0x1003#64 0x2000#64 0 0#3 with valid := false, ctype := .sealedReturn } = some .instructionAccessFault := by
  decide

/-- V7, row 1: the no-op changes `pc` alone. -/
theorem test_step_noop : step (t0At .pure 0x1000#64 0x0100105B) =
    .next { t0At .pure 0x1000#64 0x0100105B with pc := .cap { initialCap .pure with cursor := 0x1004#64 } } := by rfl

/-- V7, rows 2, 4, 5 and 9. -/
theorem test_step_refusals : step (t0At .pure 0xFFFFFFFFFFFFFFFC#64 0x0100105B) = .refused .pcWrap ∧
    step (t0At .pure 0x1000#64 0x00000013) = .refused (.baseIsaNotInScope 0x13#32) ∧
    step (t0At .pure 0x1000#64 0x0000705B) = .refused (.unknownCustom2 (.word 0x705B#32)) ∧
    step (t0At .pure 0x1000#64 0) = .refused (.baseIsaNotInScope 0#32) := ⟨rfl, rfl, rfl, rfl⟩

/-- V7, rows 3, 6 and 7: a granule that holds a capability, an integer `pc`, a fetch from the normal memory. -/
theorem test_step_fetch_stops :
    step { t0At .pure 0x1000#64 0 with mem := { bytes := [], caps := [(0x100, capK)] } } = .fault (.fetchTypeConfusion 0x1000#64) ∧
    step { t0At hybridV 0x1000#64 0x0100105B with pc := .int 0x1000#64 } = .refused .baseIsaFetch ∧
    step (t0At hybridV 0x1000#64 0x0100105B) = .refused .fetchOutsideSecure := ⟨rfl, rfl, rfl⟩

/-- Programs C1 and C2: the exception's record. -/
theorem test_step_exceptions :
    step { t0At .pure 0#64 0 with pc := .cap (pcOf 0x3002#64 0x3000#64 0x4000 7#3) } =
      .fault (.exception { name := .instructionAddressMisaligned, cause := 0, pc := pcOf 0x3002#64 0x3000#64 0x4000 7#3 }) ∧
    step { t0At .pure 0#64 0 with pc := .cap (pcOf 0x3FFE#64 0x3000#64 0x4000 7#3) } =
      .fault (.exception { name := .instructionAccessFault, cause := 1, pc := pcOf 0x3FFE#64 0x3000#64 0x4000 7#3 }) :=
  ⟨rfl, rfl⟩

/-! ## Memory: V8, V9 -/

/-- Granule 0x100 holds a capability, granule 0x101 is raw. -/
def mem9 : Memory := { bytes := [], caps := [(0x100, capK)] }

theorem test_memory_confusion : mem9.readCap 0x1000 = some capK ∧ mem9.readCap 0x1010 = none ∧ mem9.read 0x1008 8 = none ∧
    mem9.read 0x100C 8 = none ∧ mem9.read 0x1010 8 = some 0 ∧ mem9.write 0x100F 1 0xFF = none ∧
    (mem9.writeCap 0x1010 capK).readCap 0x1010 = some capK ∧ (mem9.writeCap 0x1000 cnull).caps = [(0x100, cnull)] := by decide

theorem test_memory_bytes : (mem9.write 0x2000 4 0xA1B2C3D4).map (fun m => m.bytes) =
      some [(0x2000, 0xD4#8), (0x2001, 0xC3#8), (0x2002, 0xB2#8), (0x2003, 0xA1#8)] ∧
    ((mem9.write 0x2000 4 0xA1B2C3D4).bind fun m => m.write 0x2000 4 0) = some mem9 ∧
    Memory.read { bytes := [(0, 0x34#8), (1, 0x12#8)], caps := [] } 0 2 = some 0x1234 := by decide

/-! ## Loads and stores: one step each (R95 to R109; V12) -/

theorem test_ldd : after (exec (.ldd (.r 4 1 2)) (mk .pure 0x9000#64)) (fun t => t.regCell 4) =
    some (some (.int 0x00000000A1B2C3D4#64)) := by decide
theorem test_ldw : after (exec (.ldw (.i 4 1 0#12)) { mk .pure 0x9000#64 with sem := { answer 0x9000#64 with signed := true } })
    (fun t => t.regCell 4) = some (some (.int 0xFFFFFFFFA1B2C3D4#64)) := by decide
theorem test_ldh : after (exec (.ldh (.r 4 1 2)) (mk .pure 0x9001#64)) (fun t => t.regCell 4) =
    some (some (.int 0xB2C3#64)) := by decide
theorem test_ldb : after (exec (.ldb (.r 4 1 2)) { mk .pure 0x9003#64 with sem := { answer 0x9003#64 with signed := true } })
    (fun t => t.regCell 4) = some (some (.int 0xFFFFFFFFFFFFFFA1#64)) := by decide

/-- V12 (e): a load into `x0` leaves the registers, the authorising one included, as they were. -/
theorem test_ldd_x0 : after (exec (.ldd (.r 0 1 2)) (mk .pure 0x9000#64)) (fun t => t.regs) = some (mk .pure 0x9000#64).regs := by
  decide

theorem test_std : after (exec (.std (.r 4 1 2)) (mk .pure 0x9008#64)) (fun t => t.mem.read 0x9008 8) = some (some 0xA1B2C3D4) := by
  decide
theorem test_stw : after (exec (.stw (.r 4 1 2)) (mk .pure 0x9004#64)) (fun t => t.mem.read 0x9000 8) =
    some (some 0xA1B2C3D4A1B2C3D4) := by decide
theorem test_sth : after (exec (.sth (.r 4 1 2)) (mk .pure 0x9002#64)) (fun t => t.mem.read 0x9000 8) = some (some 0xC3D4C3D4) := by
  decide
theorem test_stb : after (exec (.stb (.r 4 1 2)) (mk .pure 0x9003#64)) (fun t => t.mem.read 0x9000 8) = some (some 0xD4B2C3D4) := by
  decide

theorem test_ldc : after (exec (.ldc (.r 4 1 2)) { mk .pure 0x9010#64 with sem := { answer 0x9010#64 with memLeft := .null } })
    (fun t => (t.regCell 4, t.mem.capAt 0x901)) = some (some (.cap capK), some cnull) := by decide
theorem test_stc : after (exec (.stc (.r 4 1 3)) { mk .pure 0x9000#64 with sem := { answer 0x9000#64 with regLeft := .null } })
    (fun t => (t.regCell 3, t.mem.capAt 0x900, t.mem.byteAt 0x9000)) = some (some (.cap cnull), some capK, none) := by decide
theorem test_ldcr : after (exec (.ldcr (.r 4 2 3)) (mk hybridV 0x410#64)) (fun t => t.regCell 4) = some (some (.cap capK)) := by
  decide
theorem test_stcr : after (exec (.stcr (.r 4 2 3)) (mk hybridV 0x7FF0#64)) (fun t => t.mem.capAt 0x7FF) = some (some capK) := by
  decide

/-- V12 (a), (b): an LDD at 0x7FF8 and at 0xFFFC, an LDC at 0x7FF0, an LDCR at 0x8000, and an LDCR in the pure variant. -/
theorem test_reach : exec (.ldd (.r 4 1 2)) (mk hybridV 0x7FF8#64) = .refused (.outsideReach .ldd 0x7FF8#64) ∧
    exec (.ldd (.r 4 1 2)) (mk hybridV 0xFFFC#64) = .refused (.outsideReach .ldd 0xFFFC#64) ∧
    exec (.ldc (.r 4 1 2)) (mk hybridV 0x7FF0#64) = .refused (.outsideReach .ldc 0x7FF0#64) ∧
    exec (.ldcr (.r 4 2 3)) (mk hybridV 0x8000#64) = .refused (.outsideReach .ldcr 0x8000#64) ∧
    exec (.ldcr (.r 4 2 3)) (mk .pure 0x410#64) = .refused (.semNotSupplied .ldcr) := ⟨rfl, rfl, rfl, rfl, rfl⟩

/-- R139: `c0`, an invalid capability, authorises no access. -/
theorem test_no_authority : exec (.ldd (.r 4 0 2)) (mk .pure 0x9000#64) = .fault (.accessCheck .ldd) ∧
    exec (.stc (.r 4 0 3)) (mk .pure 0x9000#64) = .fault (.accessCheck .stc) := ⟨rfl, rfl⟩

/-- R105: of two failed tests the first that the pseudocode lists is reported, the alignment before the reach. -/
theorem test_first_stop :
    exec (.ldc (.r 4 1 2)) (mk hybridV 0x7FF8#64) = .refused (.capAlignment .ldc 0x7FF8#64) := rfl

/-- V12 (c), (f). -/
theorem test_confusion : exec (.ldc (.r 4 1 2)) (mk .pure 0x9000#64) = .fault (.memTypeConfusion 0x9000#64) ∧
    exec (.ldd (.r 4 1 2)) (mk .pure 0x9010#64) = .fault (.memTypeConfusion 0x9010#64) ∧
    exec (.stc (.r 4 1 3)) (mk .pure 0x9008#64) = .refused (.capAlignment .stc 0x9008#64) ∧
    exec (.ldd (.r 4 2 1)) (mk .pure 0x9000#64) = .fault (.regTypeConfusion 2) := ⟨rfl, rfl, rfl, rfl⟩

/-! ## CCSRs: V13, V14 -/

/-- The spec's default machine in a variant and world. -/
def inWorld (v : Variant) (w : World) : State := { State.resetWith (Config.t0 v) with cwrld := w }

/-- V13, rows 1, 3, 5 to 11, 13 and 14. -/
theorem test_ccsr_matrix :
    exec (.ccsrRead 5 0#12) (inWorld .pure .normal) = .refused (.semNotSupplied .ccsrRead) ∧
    exec (.ccsrRead 5 2#12) (inWorld .pure .normal) = .fault (.ccsrConstraint .cih .read) ∧
    exec (.ccsrWrite 2#12 6) { inWorld .pure .normal with cih := .cap { capK with ctype := .sealed } } =
      .fault (.ccsrConstraint .cih .write) ∧
    exec (.ccsrWrite 2#12 6) { inWorld .pure .normal with cih := .cap { capK with valid := false } } =
      .fault (.ccsrConstraint .cih .write) ∧
    exec (.ccsrRead 5 3#12) (inWorld .pure .normal) = .refused (.csrAccessNotInSource .epc) ∧
    exec (.ccsrRead 5 4#12) (inWorld .pure .normal) = .refused (.unknownCustom2 (.ccsrNumber 4#12)) ∧
    exec (.ccsrRead 5 5#12) (inWorld .pure .normal) = .refused (.unknownCustom2 (.ccsrNumber 5#12)) ∧
    exec (.ccsrRead 5 0#12) (inWorld hybridV .normal) = .fault (.ccsrConstraint .ceh .read) ∧
    exec (.ccsrWrite 0#12 5) (inWorld hybridV .secure) = .refused (.semNotSupplied .ccsrWrite) ∧
    exec (.ccsrRead 5 5#12) (inWorld hybridV .secure) = .fault (.ccsrConstraint .switchCap .read) ∧
    exec (.ccsrRead 5 2#12) (inWorld hybridV .secure) = .refused (.unknownCustom2 (.ccsrNumber 2#12)) :=
  ⟨rfl, rfl, rfl, rfl, rfl, rfl, rfl, rfl, rfl, rfl, rfl⟩

/-- V13, rows 15 to 17. -/
theorem test_csr : after ((inWorld .pure .normal).csrRead 5 0#12) (fun t => t.regCell 5) = some (some (.int 0#64)) ∧
    ({ inWorld .pure .normal with cih := .cap capK }.csrWrite 0#12 5) = .fault (.ccsrConstraint .cis .write) ∧
    (inWorld hybridV .normal).csrRead 5 2#12 = .refused (.csrAccessNotInSource .cause) := ⟨rfl, rfl, rfl⟩

theorem test_ccsr_read : after (exec (.ccsrRead 5 0#12) { mk .pure 0#64 with ceh := .cap capK, sem := { answer 0#64 with regLeft := .null } })
    (fun t => (t.regCell 5, t.ceh, t.deh)) = some (some (.cap capK), .cap cnull, .int 0#64) := by decide

theorem test_ccsr_write : after (exec (.ccsrWrite 1#12 3) { mk .pure 0#64 with sem := { answer 0#64 with regLeft := .int 7#64 } })
    (fun t => (t.deh, t.ceh, t.regCell 3)) = some (.cap capK, .int 0#64, some (.int 7#64)) := by decide

/-- V14, rows 1, 4 and 2. -/
theorem test_cinit : after (step (t0At .pure 0x1000#64 0x0100055B)) (fun t => (t.regCell 10, t.cinitRead, t.pc)) =
      some (some (.cap (initialCap .pure)), true, .cap { initialCap .pure with cursor := 0x1004#64 }) ∧
    after (exec (.ccsrReadCinit 10) (inWorld hybridV .normal)) (fun t => t.regCell 10) =
      some (some (.cap (pcOf 0x8000#64 0x8000#64 0x10000 7#3))) ∧
    exec (.ccsrReadCinit 11) { inWorld .pure .normal with cinitRead := true } =
      .next { inWorld .pure .normal with cinitRead := true } := ⟨rfl, rfl, rfl⟩

/-- V14, rows 3, 5, 6 and 7. -/
theorem test_cinit_ignored : exec (.ccsrReadCinit 0) (inWorld .pure .normal) = .next { inWorld .pure .normal with cinitRead := true } ∧
    exec (.ccsrReadCinit 10) (inWorld hybridV .secure) = .fault (.ccsrConstraint .cinit .read) ∧
    exec (.ccsrReadCinit 10) { inWorld hybridV .secure with cinitRead := true } =
      .next { inWorld hybridV .secure with cinitRead := true } ∧
    exec (.ccsrWriteCinit 7) (inWorld .pure .normal) = .next (inWorld .pure .normal) := ⟨rfl, rfl, rfl, rfl⟩

/-! ## Witnesses: states that meet the hypotheses of the obligations -/

theorem witness_PermissionOrderIsBitSubset : permLe 5#3 5#3 = true ∧ permLe 1#3 3#3 = true ∧ permLe 3#3 7#3 = true := by decide

/-- An empty region, and regions that touch. -/
theorem witness_AliasingIsRegionIntersection :
    (region 0x1000#64 0x1000).limit.val ≤ (region 0x1000#64 0x1000).base.toNat ∧
    (region 0x1000#64 0x2000).limit.val = (region 0x2000#64 0x3000).base.toNat := by decide

theorem witness_CreationOrderIsStrict :
    { region 0x1000#64 0x2000 with stamp := 3 }.createdBefore { region 0x1800#64 0x3000 with stamp := 5 } = some true := by decide

theorem witness_RegisterZeroIsHardwired : State.reset.cinitRead = false ∧ State.reset.cfg.variant = .pure := ⟨rfl, rfl⟩

theorem witness_RegisterKeepsItsKind : (31 : RegIdx) ≠ 0 ∧ (1 : RegIdx) ≠ 31 := by decide

/-- Each condition of the access fault alone (V6 rows 2, 8, 13, 16, 18), and the misaligned case (row 20). -/
theorem witness_FetchExceptionsInPriorityOrder :
    (∀ c : Cap, { State.reset with pc := .cap c }.pc = .cap c) ∧
    { pcOf 0x1000#64 0x1000#64 0x2000 7#3 with valid := false }.valid = false ∧
    ({ pcOf 0x1000#64 0x1000#64 0x2000 7#3 with ctype := .exit }.ctype ≠ .linear ∧
      { pcOf 0x1000#64 0x1000#64 0x2000 7#3 with ctype := .exit }.ctype ≠ .nonLinear) ∧
    permLe 1#3 (pcOf 0x1000#64 0x1000#64 0x2000 4#3).perms = false ∧
    ¬ (0x1000#64).toNat ≤ (0x0FFC#64).toNat ∧ ¬ (0x1FFD#64).toNat + 4 ≤ (0x2000 : EndAddr).val ∧
    ((pcOf 0x1002#64 0x1000#64 0x2000 7#3).valid = true ∧
      ((pcOf 0x1002#64 0x1000#64 0x2000 7#3).ctype = .linear ∨ (pcOf 0x1002#64 0x1000#64 0x2000 7#3).ctype = .nonLinear) ∧
      permLe 1#3 (pcOf 0x1002#64 0x1000#64 0x2000 7#3).perms = true ∧
      (pcOf 0x1002#64 0x1000#64 0x2000 7#3).base.toNat ≤ (pcOf 0x1002#64 0x1000#64 0x2000 7#3).cursor.toNat ∧
      (pcOf 0x1002#64 0x1000#64 0x2000 7#3).cursor.toNat + 4 ≤ (pcOf 0x1002#64 0x1000#64 0x2000 7#3).limit.val ∧
      (pcOf 0x1002#64 0x1000#64 0x2000 7#3).cursor.toNat % 4 ≠ 0) := by
  refine ⟨fun _ => rfl, ?_⟩
  decide

/-- What `StepRunsDecodedInstruction` and `WordsOutsideEncodingRefused` ask of the fetch, for a word at an address of a variant. -/
def fetches (v : Variant) (cur : Word) (w : Nat) : Prop :=
  (t0At v cur w).pc = .cap { initialCap .pure with cursor := cur } ∧ fetchCheck { initialCap .pure with cursor := cur } = none ∧
  fetchReach v cur.toNat = true ∧ (t0At v cur w).mem.fetchWord cur.toNat = some (BitVec.ofNat 32 w)

/-- The four cases: a next state below the top, a next state at the top, a fault, a refusal. -/
theorem witness_StepRunsDecodedInstruction :
    (fetches .pure 0x1000#64 0x0100105B ∧ decode Enc.t0 0x0100105B#32 = .ok (.ccsrWriteCinit 0) ∧
      exec (.ccsrWriteCinit 0) (t0At .pure 0x1000#64 0x0100105B) = .next (t0At .pure 0x1000#64 0x0100105B)) ∧
    (fetches .pure 0xFFFFFFFFFFFFFFFC#64 0x0100105B ∧
      exec (.ccsrWriteCinit 0) (t0At .pure 0xFFFFFFFFFFFFFFFC#64 0x0100105B) =
        .next (t0At .pure 0xFFFFFFFFFFFFFFFC#64 0x0100105B) ∧ 2 ^ 64 ≤ (0xFFFFFFFFFFFFFFFC#64).toNat + 4) ∧
    (fetches .pure 0x1000#64 0x002002DB ∧ decode Enc.t0 0x002002DB#32 = .ok (.ccsrRead 5 2#12) ∧
      exec (.ccsrRead 5 2#12) (t0At .pure 0x1000#64 0x002002DB) = .fault (.ccsrConstraint .cih .read)) ∧
    (fetches hybridV 0x8000#64 0x003002DB ∧ decode Enc.t0 0x003002DB#32 = .ok (.ccsrRead 5 3#12) ∧
      exec (.ccsrRead 5 3#12) (t0At hybridV 0x8000#64 0x003002DB) = .refused (.csrAccessNotInSource .epc)) :=
  ⟨⟨⟨rfl, rfl, rfl, rfl⟩, rfl, rfl⟩, ⟨⟨rfl, rfl, rfl, rfl⟩, rfl, by decide⟩, ⟨⟨rfl, rfl, rfl, rfl⟩, rfl, rfl⟩,
    ⟨rfl, rfl, rfl, rfl⟩, rfl, rfl⟩

theorem witness_EveryStepAdvancesCursorByFour : ∃ t, step (t0At .pure 0xFFFFFFFFFFFFFFF8#64 0x0100105B) = .next t := ⟨_, rfl⟩

/-- The last word below `SBASE`, and the first word past `SEND`. -/
theorem witness_HybridFetchRefusals :
    { State.resetWith (Config.t0 hybridV) with pc := .int 0x1000#64 }.pc = .int 0x1000#64 ∧
    (t0At hybridV 0x7FFC#64 0).cfg.variant = .hybrid 0x8000#64 0x10000 ∧
    (fetchCheck { initialCap .pure with cursor := 0x7FFC#64 } = none ∧
      ¬ ((0x8000#64).toNat ≤ (0x7FFC#64).toNat ∧ (0x7FFC#64).toNat + 4 ≤ (0x10000 : EndAddr).val)) ∧
    (fetchCheck { initialCap .pure with cursor := 0x10000#64 } = none ∧
      ¬ ((0x8000#64).toNat ≤ (0x10000#64).toNat ∧ (0x10000#64).toNat + 4 ≤ (0x10000 : EndAddr).val)) := by
  refine ⟨rfl, rfl, ?_⟩
  decide

/-- Program E1: the first word of a granule that holds a capability. -/
theorem witness_FetchFromCapabilityGranuleFaults :
    fetchCheck (pcOf 0x5010#64 0x5000#64 0x6000 7#3) = none ∧ fetchReach .pure 0x5010 = true ∧
    ((Memory.capAt { bytes := [], caps := [(0x501, capK)] }) (0x5010 / 16)).isSome = true := by decide

theorem witness_WordsOutsideEncodingRefused :
    (fetches .pure 0x1000#64 0x0000005A ∧ (0x0000005A#32).toNat % 128 ≠ 0x5B) ∧
    (fetches .pure 0x1000#64 0x0000705B ∧ (0x0000705B#32).toNat % 128 = 0x5B ∧
      ∀ row ∈ Enc.t0, row.matchesWord 0x0000705B#32 = false) :=
  ⟨⟨⟨rfl, rfl, rfl, rfl⟩, by decide⟩, ⟨rfl, rfl, rfl, rfl⟩, by decide, by decide⟩

theorem witness_InstructionWordIsLittleEndian : 0x9000 % 4 = 0 ∧ (mk .pure 0#64).mem.byteAt 0x9000 = some 0xD4#8 ∧
    (mk .pure 0#64).mem.byteAt 0x9001 = some 0xC3#8 ∧ (mk .pure 0#64).mem.byteAt 0x9002 = some 0xB2#8 ∧
    (mk .pure 0#64).mem.byteAt 0x9003 = some 0xA1#8 := by decide

/-- An eight-byte write that straddles two raw granules. -/
theorem witness_RawReadAfterWrite : 8 ≤ 8 ∧ ∃ m', mem9.write 0x2009 8 0x1122334455667788 = some m' := ⟨by decide, _, rfl⟩

theorem witness_RawAccessOfCapabilityGranuleFails : (1 ≤ 1 ∧ 1 ≤ 8) ∧ (1 ≤ 8 ∧ 8 ≤ 8) := by decide

theorem witness_CapabilityWriteThenRead : 0x1010 % 16 = 0 ∧ 0x101 ≠ 0x1000 / 16 := by decide

/-- In the hybrid variant, ending at `SEND`; in the pure variant, at the top of the address space. -/
theorem witness_DataLoadsComplete : (Mnemonic.ldd, 8, Instr.ldd) ∈ dataLoads ∧ (mk hybridV 0xFFF8#64).canAccess .ldd (.r 4 1 2) 8 ∧
    (mk hybridV 0xFFF8#64).mem.read 0xFFF8 8 = some 0 ∧ (OperandForm.r 4 1 2).rdField ≠ 0 ∧
    (mk .pure 0xFFFFFFFFFFFFFFFF#64).canAccess .ldb (.i 4 1 0#12) 1 ∧
    (mk .pure 0xFFFFFFFFFFFFFFFF#64).sem.cursorAfter = none ∧ operandReg (.r 4 1 2) .rs1 ≠ (OperandForm.r 4 1 2).rdField ∧
    (mk hybridV 0xFFF8#64).regCell 1 = some (.cap capK) :=
  ⟨by simp [dataLoads], ⟨by decide, ⟨capK, rfl, rfl⟩, rfl, by decide⟩, by decide, by decide,
    ⟨by decide, ⟨capK, rfl, rfl⟩, rfl, by decide⟩, rfl, by decide, rfl⟩

theorem witness_DataStoresComplete : (Mnemonic.std, 8, Instr.std) ∈ dataStores ∧
    (mk hybridV 0x8000#64).canAccess .std (.r 4 1 2) 8 ∧ (mk hybridV 0x8000#64).xint 2 = .ok 0xA1B2C3D4#64 ∧
    (mk hybridV 0x8000#64).mem.touchesCap 0x8000 8 = false ∧ (mk hybridV 0x8000#64).sem.cursorAfter = none :=
  ⟨by simp [dataStores], ⟨by decide, ⟨capK, rfl, rfl⟩, rfl, by decide⟩, rfl, by decide, rfl⟩

theorem witness_LoadCapabilityCompletes : (mk hybridV 0x9010#64).canAccess .ldc (.r 4 1 2) 16 ∧ 0x9010 % 16 = 0 ∧
    (mk hybridV 0x9010#64).mem.capAt (0x9010 / 16) = some capK ∧ (mk hybridV 0x9010#64).sem.memLeft = .kept ∧
    (∀ r : MemResidue, State.canAccess { mk hybridV 0x9010#64 with sem := { answer 0x9010#64 with memLeft := r } } .ldc (.r 4 1 2) 16) :=
  ⟨⟨by decide, ⟨capK, rfl, rfl⟩, rfl, by decide⟩, by decide, by decide, rfl,
    fun _ => ⟨rfl, ⟨capK, rfl, rfl⟩, rfl, rfl⟩⟩

theorem witness_StoreCapabilityCompletes : (mk hybridV 0xFFF0#64).canAccess .stc (.r 4 1 3) 16 ∧ 0xFFF0 % 16 = 0 ∧
    (mk hybridV 0xFFF0#64).xcap 3 = .ok capK ∧ (mk hybridV 0xFFF0#64).sem.regLeft = .kept :=
  ⟨⟨by decide, ⟨capK, rfl, rfl⟩, rfl, by decide⟩, by decide, rfl, rfl⟩

/-- One register is authority and data, it keeps its capability, and its `cursor` moves. -/
theorem witness_StoreCapabilityCompletes_sameRegister : ∃ s : State, s.canAccess .stc (.r 4 3 3) 16 ∧ s.sem.addr.toNat % 16 = 0 ∧
    s.xcap (operandReg (.r 4 3 3) s.sem.data) = .ok capK ∧
    operandReg (.r 4 3 3) s.sem.auth = operandReg (.r 4 3 3) s.sem.data ∧ s.sem.regLeft = .kept ∧
    s.regCell (operandReg (.r 4 3 3) s.sem.auth) = some (.cap capK) ∧ s.sem.cursorAfter = some 0x9030#64 :=
  ⟨{ mk hybridV 0xFFF0#64 with sem := { answer 0xFFF0#64 with cursorAfter := some 0x9030#64 } },
    ⟨by decide, ⟨capK, rfl, rfl⟩, rfl, by decide⟩, by decide, rfl, rfl, rfl, rfl, rfl⟩

theorem witness_RawLoadCapabilityCompletes : (mk hybridV 0x410#64).canAccessRaw .ldcr (.r 4 2 3) ∧ 0x410 % 16 = 0 ∧
    (mk hybridV 0x410#64).mem.capAt (0x410 / 16) = some capK ∧ (mk hybridV 0x410#64).sem.memLeft = .kept :=
  ⟨⟨rfl, by decide, ⟨0xA1B2C3D4#64, rfl⟩, rfl, by decide⟩, by decide, by decide, rfl⟩

/-- The last granule below `SBASE`, and the first at `SEND`. -/
theorem witness_RawStoreCapabilityCompletes : (mk hybridV 0x7FF0#64).canAccessRaw .stcr (.r 4 2 3) ∧
    (mk hybridV 0x10000#64).canAccessRaw .stcr (.r 4 2 3) ∧ 0x7FF0 % 16 = 0 ∧ 0x10000 % 16 = 0 ∧
    (mk hybridV 0x7FF0#64).xcap 3 = .ok capK ∧ (mk hybridV 0x7FF0#64).sem.regLeft = .kept :=
  ⟨⟨rfl, by decide, ⟨0xA1B2C3D4#64, rfl⟩, rfl, by decide⟩, ⟨rfl, by decide, ⟨0xA1B2C3D4#64, rfl⟩, rfl, by decide⟩,
    by decide, by decide, rfl, rfl⟩

theorem witness_StoredCapabilityLoadsUnchanged : ∃ t u, exec (.stc (.r 0 1 3)) (mk .pure 0x9000#64) = .next t ∧
    (answer 0x9000#64).addr = (mk .pure 0x9000#64).sem.addr ∧ (OperandForm.r 4 1 2).rdField ≠ 0 ∧
    exec (.ldc (.r 4 1 2)) { t with sem := answer 0x9000#64 } = .next u := ⟨_, _, rfl, rfl, by decide, rfl⟩

theorem witness_WithoutSemInstructionsAreRefused : (State.resetWith (Config.t0 .pure)).supplied .ldd = false ∧
    (State.resetWith (Config.t0 hybridV)).supplied .ldcr = false ∧ (mk .pure 0#64).cfg.variant = .pure ∧
    (ccsrNamed .pure 2#12 = some .cih ∧ (inWorld .pure .normal).writeAllowed .cih = true ∧
      (inWorld .pure .normal).supplied .ccsrWrite = false) ∧
    (ccsrNamed hybridV 5#12 = some .switchCap ∧ (inWorld hybridV .normal).readAllowed .switchCap = true ∧
      (inWorld hybridV .normal).supplied .ccsrRead = false) := by decide

theorem witness_AuthorityIsChecked :
    ((mk .pure 0#64).supplied .ldd = true ∧ (mk .pure 0#64).regCell (operandReg (.r 4 2 1) .rs1) = some (.int 0xA1B2C3D4#64)) ∧
    ((mk .pure 0#64).xcap (operandReg (.r 4 0 1) .rs1) = .ok cnull ∧ { answer 0#64 with completes := false }.completes = false) ∧
    ((mk hybridV 0#64).supplied .ldcr = true ∧ hasMmu (mk hybridV 0#64).cfg.variant = true ∧
      (mk hybridV 0#64).regCell (operandReg (.r 4 1 2) .rs1) = some (.cap capK) ∧
      (mk hybridV 0#64).xint (operandReg (.r 4 2 1) .rs1) = .ok 0xA1B2C3D4#64) :=
  ⟨⟨by decide, rfl⟩, ⟨rfl, rfl⟩, by decide, rfl, rfl, rfl⟩

/-- The last byte of an eight-byte access falls on the granule; a data register that holds a capability; a raw granule; an address one
past a multiple of 16; an integer. -/
theorem witness_ConfusedAccessesNeverComplete :
    (7 < 8 ∧ ((mk .pure 0x9009#64).mem.capAt ((0x9009 + 7) / 16)).isSome = true) ∧
    (mk .pure 0x9000#64).regCell (operandReg (.r 4 1 3) .rs2) = some (.cap capK) ∧
    (mk .pure 0x9000#64).mem.capAt (0x9000 / 16) = none ∧ (mk .pure 0x9001#64).sem.addr.toNat % 16 ≠ 0 ∧
    (mk .pure 0x9000#64).regCell (operandReg (.r 4 1 2) .rs2) = some (.int 0xA1B2C3D4#64) := by decide

theorem witness_CompletedAccessesAreInReach : (∃ t, exec (.ldd (.r 4 1 2)) (mk hybridV 0xFFF8#64) = .next t) ∧
    (mk hybridV 0xFFF8#64).cfg.variant = .hybrid 0x8000#64 0x10000 ∧
    (∃ t, exec (.ldb (.r 4 1 2)) (mk .pure 0xFFFFFFFFFFFFFFFF#64) = .next t) ∧
    (∃ t, exec (.stcr (.r 4 2 3)) (mk hybridV 0x7FF0#64) = .next t) ∧
    (∃ t, exec (.stcr (.r 4 2 3)) (mk hybridV 0xFFFFFFFFFFFFFFF0#64) = .next t) :=
  ⟨⟨_, rfl⟩, rfl, ⟨_, rfl⟩, ⟨_, rfl⟩, ⟨_, rfl⟩⟩

theorem witness_FirstCinitReadDelivers : State.reset.cinitRead = false ∧ State.reset.cfg.variant = .pure ∧
    (inWorld hybridV .normal).cinitRead = false ∧ (inWorld hybridV .normal).cwrld = .normal ∧ (10 : RegIdx) ≠ 0 :=
  ⟨rfl, rfl, rfl, rfl, by decide⟩

theorem witness_CinitWriteAndLaterReadIgnored : { State.reset with cinitRead := true }.cinitRead = true := rfl

theorem witness_SecureWorldFirstCinitReadFaults : (inWorld hybridV .secure).cfg.variant = .hybrid 0x8000#64 0x10000 ∧
    (inWorld hybridV .secure).cwrld = .secure ∧ (inWorld hybridV .secure).cinitRead = false := ⟨rfl, rfl, rfl⟩

theorem witness_CinitWriteStepsAsNoOperation :
    (t0At .pure 0xFFFFFFFFFFFFFFF8#64 0x0103905B).fetch =
      .ok ({ initialCap .pure with cursor := 0xFFFFFFFFFFFFFFF8#64 }, 0x0103905B#32) ∧
    decode Enc.t0 0x0103905B#32 = .ok (.ccsrWriteCinit 7) ∧ (0xFFFFFFFFFFFFFFF8#64).toNat + 4 < 2 ^ 64 :=
  ⟨rfl, rfl, by decide⟩

/-- An integer content and a kept capability; each CCSR that can be read. -/
theorem witness_CcsrReadDeliversContent :
    (ccsrNamed (mk .pure 0#64).cfg.variant 0#12 = some .ceh ∧ (mk .pure 0#64).readAllowed .ceh = true ∧
      (mk .pure 0#64).supplied .ccsrRead = true ∧ ((mk .pure 0#64).getCcsr .ceh).isCap = false) ∧
    (ccsrNamed (mk .pure 0#64).cfg.variant 1#12 = some .deh ∧ (mk .pure 0#64).readAllowed .deh = true) ∧
    (ccsrNamed (mk hybridV 0#64).cfg.variant 5#12 = some .switchCap ∧ (mk hybridV 0#64).readAllowed .switchCap = true ∧
      (mk hybridV 0#64).supplied .ccsrRead = true ∧ (mk hybridV 0#64).sem.regLeft = .kept) := by decide

/-- An integer source, and a capability that is kept; each CCSR the statement speaks of. -/
theorem witness_CcsrWriteStoresContent :
    (ccsrNamed (mk .pure 0#64).cfg.variant 0#12 = some .ceh ∧ (mk .pure 0#64).writeAllowed .ceh = true ∧
      (mk .pure 0#64).supplied .ccsrWrite = true ∧ ((mk .pure 0#64).content 2 false).isCap = false) ∧
    (ccsrNamed (mk .pure 0#64).cfg.variant 1#12 = some .deh ∧ (mk .pure 0#64).writeAllowed .deh = true ∧
      ((mk .pure 0#64).content 3 false).isCap = true ∧ (mk .pure 0#64).sem.regLeft = .kept) ∧
    (ccsrNamed (mk .pure 0#64).cfg.variant 2#12 = some .cih ∧ (mk .pure 0#64).writeAllowed .cih = true) := by decide

theorem witness_SwitchCapTakesCapabilities : (mk hybridV 0#64).cfg.variant = .hybrid 0x8000#64 0x10000 ∧
    (mk hybridV 0#64).cwrld = .normal ∧ (mk hybridV 0#64).supplied .ccsrWrite = true ∧ (mk hybridV 0#64).xcap 3 = .ok capK ∧
    (mk hybridV 0#64).xcap 0 = .ok cnull ∧ (mk hybridV 0#64).sem.regLeft = .kept ∧
    (mk hybridV 0#64).regCell 2 = some (.int 0xA1B2C3D4#64) := ⟨rfl, rfl, by decide, rfl, rfl, rfl, rfl⟩

/-- The same, where the source register does not keep the capability. -/
theorem witness_SwitchCapTakesCapabilities_residue : ∀ l : Residue, ∃ s : State, s.cfg.variant = .hybrid 0x8000#64 0x10000 ∧
    s.cwrld = .normal ∧ s.supplied .ccsrWrite = true ∧ s.xcap 3 = .ok capK ∧ s.sem.regLeft = l :=
  fun l => ⟨{ mk hybridV 0#64 with sem := { answer 0#64 with regLeft := l } }, rfl, rfl, rfl, rfl, rfl⟩

/-- R110: the old content of `deh` goes to `x5` and the integer of `x2` to `deh`; `cih` is never readable, so the whole stops. -/
theorem test_combined :
    after ({ mk .pure 0#64 with deh := .cap capK }.combinedCcsr 5 1#12 2) (fun t => (t.regCell 5, t.deh, t.regCell 2)) =
      some (some (.cap capK), .int 0xA1B2C3D4#64, some (.int 0xA1B2C3D4#64)) ∧
    (mk .pure 0#64).combinedCcsr 5 2#12 2 = .fault (.ccsrConstraint .cih .read) := ⟨rfl, rfl⟩

/-- Sources: a register, `x0`, and the destination itself; each stop's condition; the secure world's first read of `cinit`. -/
theorem witness_CombinedCcsrReadsThenWrites :
    (ccsrNamed (mk .pure 0#64).cfg.variant 1#12 = some .deh ∧ (mk .pure 0#64).readAllowed .deh = true ∧
      (mk .pure 0#64).supplied .ccsrRead = true ∧ (mk .pure 0#64).supplied .ccsrWrite = true ∧
      (mk .pure 0#64).redraw.ccsrSource .deh 3 = .ok (.cap capK)) ∧
    (ccsrNamed (mk hybridV 0#64).cfg.variant 5#12 = some .switchCap ∧ (mk hybridV 0#64).readAllowed .switchCap = true ∧
      (mk hybridV 0#64).redraw.ccsrSource .switchCap 0 = .ok (.cap cnull) ∧
      (mk hybridV 0#64).regCell 2 = some (.int 0xA1B2C3D4#64)) ∧
    (ccsrNamed (mk .pure 0#64).cfg.variant 2#12 = some .cih ∧ (mk .pure 0#64).readAllowed .cih = false) ∧
    ((inWorld .pure .normal).readAllowed .ceh = true ∧ (inWorld .pure .normal).supplied .ccsrRead = false) ∧
    ({ mk .pure 0#64 with cfg := { (mk .pure 0#64).cfg with semSupplied := [.ccsrRead] } }.supplied .ccsrWrite = false) ∧
    (ccsrNamed .pure 0x10#12 = some .cinit ∧ (mk .pure 0#64).cinitRead = false ∧ (mk .pure 0#64).readAllowed .cinit = true ∧
      (inWorld hybridV .secure).cinitRead = false ∧ (inWorld hybridV .secure).readAllowed .cinit = false) ∧
    ccsrNamed .pure 3#12 = some .epc ∧ ccsrNamed .pure 4#12 = none :=
  ⟨⟨rfl, rfl, rfl, rfl, rfl⟩, ⟨rfl, rfl, rfl, rfl⟩, ⟨rfl, rfl⟩, ⟨rfl, rfl⟩, rfl, ⟨rfl, rfl, rfl, rfl, rfl⟩, rfl, rfl⟩

theorem witness_CcsrConstraintsByVariantAndWorld : (inWorld .pure .normal).cfg.variant = .pure ∧
    (inWorld hybridV .normal).cfg.variant = .hybrid 0x8000#64 0x10000 ∧ (inWorld hybridV .normal).cwrld = .normal ∧
    (inWorld hybridV .secure).cwrld = .secure := ⟨rfl, rfl, rfl, rfl⟩

theorem witness_ForbiddenCcsrAccessesStop :
    (ccsrNamed (inWorld hybridV .normal).cfg.variant 0#12 = some .ceh ∧ (inWorld hybridV .normal).readAllowed .ceh = false ∧
      (inWorld hybridV .normal).writeAllowed .ceh = false) ∧
    ccsrNamed (inWorld .pure .normal).cfg.variant 3#12 = some .epc ∧
    ccsrNamed (inWorld .pure .normal).cfg.variant 0xFFF#12 = none := by decide

theorem witness_CsrAccessFollowsCih : (mk .pure 0#64).cfg.variant = .pure ∧ (mk .pure 0#64).cih.isCap = false ∧
    (mk .pure 0#64).xint 2 = .ok 0xA1B2C3D4#64 ∧ { mk .pure 0#64 with cih := .cap capK }.cih.isCap = true ∧
    (mk hybridV 0#64).cfg.variant = .hybrid 0x8000#64 0x10000 ∧ 2 < (3#12).toNat := ⟨rfl, rfl, rfl, rfl, rfl, by decide⟩

theorem witness_EveryStepKeepsInstalledCih : ∃ t, { t0At .pure 0x1000#64 0x0100055B with cih := .cap capK }.cih = .cap capK ∧
    step { t0At .pure 0x1000#64 0x0100055B with cih := .cap capK } = .next t := ⟨_, rfl, rfl⟩

/-- A read of `cinit`, and a step after it. -/
theorem witness_CinitIsReadAtMostOnce :
    (∃ t, step (t0At .pure 0x1000#64 0x0100055B) = .next t ∧ (t0At .pure 0x1000#64 0x0100055B).cinitRead = false ∧
      t.cinitRead = true) ∧
    ∃ t, step { t0At .pure 0x1000#64 0x0100055B with cinitRead := true } = .next t := ⟨⟨_, rfl, rfl, rfl⟩, _, rfl⟩

theorem witness_EveryStepKeepsUnnumberedState : ∃ t, step (t0At hybridV 0x8000#64 0x0100055B) = .next t := ⟨_, rfl⟩

theorem witness_EveryStepKeepsWellFormed : ∃ t, (t0At .pure 0x1000#64 0x0100055B).wellFormed ∧
    step (t0At .pure 0x1000#64 0x0100055B) = .next t :=
  ⟨_, ⟨by decide, fun _ => rfl⟩, rfl⟩

/-- The machine after reset with the no-op at `SBASE`. -/
def secureStart : State := (State.resetWith (Config.t0 hybridV)).withFetchWord 32 0x0100105B

/-- The hybrid machine after reset with the no-op placed: its capabilities are `pc`, `cinit` and `cnull`, all inside. -/
theorem witness_EveryStepKeepsCapabilitiesInsideSecureMemory : secureStart.secureCaps ∧ ∃ t, step secureStart = .next t := by
  refine ⟨fun c hc => ?_, _, rfl⟩
  have inside : ∀ d : Cap, d = launchPc hybridV ∨ d = initialCap hybridV ∨ d = cnull → d.insideSecure hybridV := by
    rintro d (rfl | rfl | rfl)
    · exact fun _ _ => by decide
    · exact fun _ _ => by decide
    · exact fun h => by cases h
  have hpc : secureStart.pc = .cap (launchPc hybridV) := rfl
  have hreg : ∀ i, secureStart.regCell i ≠ some (.cap c) := by
    intro i h
    unfold State.regCell at h
    split at h
    · cases h
    · simp [secureStart, State.withFetchWord, State.resetWith] at h
  rcases hc with hc | ⟨i, hc⟩ | hc | hc | hc | hc | hc | hc | ⟨g, hc⟩
  · rw [hpc] at hc
    cases hc
    exact inside _ (.inl rfl)
  · exact absurd hc (hreg i)
  · cases hc
  · cases hc
  · cases hc
  · cases hc
  · exact inside _ (.inr (.inl hc.symm))
  · exact inside _ (.inr (.inr hc.symm))
  · cases hc

theorem witness_NoStepMakesAuthority : ∃ t, step (t0At .pure 0x1000#64 0x0100055B) = .next t ∧ t.holds (initialCap .pure) :=
  ⟨_, rfl, .inr (.inl ⟨10, rfl⟩)⟩

/-- The pure machine after reset with the write of `cinit` placed, which leaves `cinit` unread. -/
theorem witness_NoProgramCapabilityBeforeCinitRead : ∃ s t : State, s.noProgramCap ∧ step s = .next t ∧ t.cinitRead = false ∧
    s.cfg.variant = .pure := by
  refine ⟨t0At .pure 0x1000#64 0x0100105B, _, ⟨fun i c h => ?_, fun c h => ?_, fun g c h => ?_⟩, rfl, rfl, rfl⟩
  · unfold State.regCell at h
    split at h
    · cases h
    · simp [t0At, State.resetWith] at h
  · rcases h with h | h | h | h | h
    · cases h
    · cases h
    · cases h
    · cases h
    · exact h ▸ rfl
  · cases h

/-- An STC in the secure memory and an STCR in the normal memory, each run by a step under the model's encoding. -/
theorem witness_EachMemoryChangesOnlyByItsInstructions : hybridV.wf = true ∧
    (∃ t c, ((mk hybridV 0x9000#64).withFetchWord 32 0x0A30A05B).fetch = .ok (c, 0x0A30A05B#32) ∧
      decode Enc.model 0x0A30A05B#32 = .ok (.stc (.r 0 1 3)) ∧
      step ((mk hybridV 0x9000#64).withFetchWord 32 0x0A30A05B) = .next t) ∧
    (∃ t c, ((mk hybridV 0x400#64).withFetchWord 32 0x0E31205B).fetch = .ok (c, 0x0E31205B#32) ∧
      decode Enc.model 0x0E31205B#32 = .ok (.stcr (.r 0 2 3)) ∧
      step ((mk hybridV 0x400#64).withFetchWord 32 0x0E31205B) = .next t) :=
  ⟨by decide, ⟨_, _, rfl, rfl, rfl⟩, _, _, rfl, rfl, rfl⟩

theorem witness_DecodeReadsBackEveryEncoding : Enc.wf Enc.model = true ∧
    (Enc.wf [Enc.rRow .ccsrRead 0#7] = true ∧ (Instr.ccsrRead 31 31#12).wf [Enc.rRow .ccsrRead 0#7] = true) ∧ (Instr.ldd (.i 31 31 0xFFF#12)).wf Enc.model = true ∧
    (Instr.stcr (.r 31 31 31)).wf Enc.model = true ∧ (Instr.ccsrRead 31 0xFFF#12).wf Enc.model = true ∧
    (Instr.ccsrWriteCinit 31).wf Enc.model = true := by decide

theorem witness_DecodedInstructionsAreWellFormed : Enc.wf Enc.model = true ∧ Enc.model.Pairwise (fun a b => a.mnem ≠ b.mnem) ∧
    decode Enc.model 0xFFF002DB#32 = .ok (.ccsrRead 5 0xFFF#12) := by decide

end Sys2Proof.Tests
end

/-! SUPPORT. Facts about capability values, register numbers, the fetch, the effects of an instruction and the reset state, and the
statements about the machine's state settled from them. -/

namespace Sys2Proof.Machine

open Sys2Proof

/-! # Capability values -/

/-- The 27 listed pairs are the subset order; everything else about the order follows from this. -/
theorem permLe_iff_and (a b : Perms) : permLe a b = true ↔ a &&& b = a := by
  revert a b
  decide

theorem permLe_antisymm {a b : Perms} (hab : permLe a b = true) (hba : permLe b a = true) : a = b := by
  rw [permLe_iff_and] at hab hba
  calc a = a &&& b := hab.symm
    _ = b &&& a := BitVec.and_comm a b
    _ = b := hba

theorem permLe_trans {a b c : Perms} (hab : permLe a b = true) (hbc : permLe b c = true) : permLe a c = true := by
  rw [permLe_iff_and] at hab hbc ⊢
  calc a &&& c = a &&& b &&& c := by rw [hab]
    _ = a &&& (b &&& c) := BitVec.and_assoc a b c
    _ = a := by rw [hbc, hab]

theorem permLe_bounds (a : Perms) : permLe a a = true ∧ permLe 0#3 a = true ∧ permLe a 7#3 = true := by
  revert a
  decide

theorem perm_predicates (p : Perms) :
    executable p = p.getLsbD 0 ∧ writable p = p.getLsbD 1 ∧ readable p = p.getLsbD 2 := by
  revert p
  decide

theorem Cap.aliases_iff_lt (c d : Cap) :
    c.aliases d = true ↔ max c.base.toNat d.base.toNat < min c.limit.val d.limit.val := by
  simp only [Cap.aliases, decide_eq_true_eq]

/-- The greater of the two bases is the address the regions share. -/
theorem Cap.aliases_iff_exists (c d : Cap) :
    c.aliases d = true ↔
      ∃ a : Nat, (c.base.toNat ≤ a ∧ a < c.limit.val) ∧ (d.base.toNat ≤ a ∧ a < d.limit.val) := by
  rw [Cap.aliases_iff_lt]
  constructor
  · intro h
    exact ⟨max c.base.toNat d.base.toNat, by omega, by omega⟩
  · rintro ⟨a, hc, hd⟩
    omega

theorem Cap.aliases_comm (c d : Cap) : c.aliases d = d.aliases c := by
  simp only [Cap.aliases, max_comm, min_comm]

theorem Cap.aliases_eq_false (c d : Cap) (h : min c.limit.val d.limit.val ≤ max c.base.toNat d.base.toNat) :
    c.aliases d = false := by
  simpa only [Cap.aliases, decide_eq_false_iff_not, not_lt] using h

theorem Cap.createdBefore_isSome (c d : Cap) :
    (c.createdBefore d).isSome = true ↔ c.ctype = .revocation ∧ d.ctype = .revocation := by
  unfold Cap.createdBefore
  split <;> simp [*]

theorem Cap.createdBefore_eq_true (c d : Cap) :
    c.createdBefore d = some true ↔
      c.ctype = .revocation ∧ d.ctype = .revocation ∧ c.aliases d = true ∧ c.stamp < d.stamp := by
  unfold Cap.createdBefore
  split
  · next h => simp [h]
  · next h => simp only [reduceCtorEq, false_iff]; tauto

theorem Cap.createdBefore_asymm {c d : Cap} (h : c.createdBefore d = some true) : d.createdBefore c = some false := by
  obtain ⟨hc, hd, -, hlt⟩ := (Cap.createdBefore_eq_true c d).mp h
  simp [Cap.createdBefore, hc, hd, Nat.le_of_lt hlt]

theorem Cap.createdBefore_irrefl (c : Cap) : c.createdBefore c ≠ some true := by
  intro h
  obtain ⟨-, -, -, hlt⟩ := (Cap.createdBefore_eq_true c c).mp h
  exact Nat.lt_irrefl _ hlt

/-! # The numbers of the added registers, and the accesses they name -/

/-- The one number that names `cinit` is its own. -/
theorem ccsrNamed_cinit {v : Variant} {n : Imm} (h : ccsrNamed v n = some .cinit) : n = cinitNumber := by
  have hp := List.find?_some h
  simp only [AddedReg.ccsrNumber, Bool.and_eq_true, decide_eq_true_eq, Option.some.injEq] at hp
  exact hp.2.symm

/-- `cinit`'s number has its own constructor, so the other one never carries it (R112, R114). -/
theorem instrOf_ccsrRead_number {m : Mnemonic} {ops : OperandForm} {num : NumberAt} {rd : RegIdx} {n : Imm}
    (h : instrOf m ops num = .ccsrRead rd n) : n ≠ cinitNumber := by
  cases m <;> simp only [instrOf, ccsrReadOf, ccsrWriteOf, reduceCtorEq] at h
  case ccsrRead =>
    split at h
    · cases h
    · next hne =>
      cases h
      exact hne
  case ccsrWrite => split at h <;> cases h

theorem decode_ccsrRead_number {enc : Enc} {w : InstrWord} {rd : RegIdx} {n : Imm}
    (h : decode enc w = .ok (.ccsrRead rd n)) : n ≠ cinitNumber := by
  unfold decode at h
  split at h
  · split at h
    · cases h
    · exact instrOf_ccsrRead_number (Except.ok.inj h)
  · cases h

/-- The search of a table as a chain of tests, the form the statements have. -/
theorem find?_cons_ite {α : Type} (p : α → Bool) (x : α) (xs : List α) :
    (x :: xs).find? p = if p x = true then some x else xs.find? p := by
  cases hp : p x <;> simp [hp]

theorem ccsrNamed_pure (n : Imm) : ccsrNamed .pure n =
    if n = 0#12 then some .ceh else if n = 1#12 then some .deh else if n = 2#12 then some .cih
    else if n = 3#12 then some .epc else if n = 0x10#12 then some .cinit else none := by
  simp [ccsrNamed, allAddedRegs, find?_cons_ite, AddedReg.existsIn, AddedReg.ccsrNumber, eq_comm (b := n)]

theorem ccsrNamed_hybrid (sbase : Word) (send : EndAddr) (n : Imm) : ccsrNamed (.hybrid sbase send) n =
    if n = 0#12 then some .ceh else if n = 1#12 then some .deh else if n = 3#12 then some .epc
    else if n = 5#12 then some .switchCap else if n = 0x10#12 then some .cinit else none := by
  by_cases h : n = 5#12
  · subst h
    rfl
  · simp [ccsrNamed, allAddedRegs, find?_cons_ite, AddedReg.existsIn, AddedReg.ccsrNumber, eq_comm (b := n), h]

theorem csrNamed_pure (n : Imm) : csrNamed .pure n =
    if n = 0#12 then some .cis else if n = 1#12 then some .tval else if n = 2#12 then some .cause else none := by
  simp [csrNamed, allAddedRegs, find?_cons_ite, AddedReg.existsIn, AddedReg.csrNumber, eq_comm (b := n)]

theorem csrNamed_hybrid (sbase : Word) (send : EndAddr) (n : Imm) : csrNamed (.hybrid sbase send) n =
    if n = 1#12 then some .tval else if n = 2#12 then some .cause else none := by
  simp [csrNamed, allAddedRegs, find?_cons_ite, AddedReg.existsIn, AddedReg.csrNumber, eq_comm (b := n)]

/-- The two exception CSRs have their numbers in either variant. -/
theorem csrNamed_tval (v : Variant) : csrNamed v 1#12 = some .tval := by
  cases v <;> rfl

theorem csrNamed_cause (v : Variant) : csrNamed v 2#12 = some .cause := by
  cases v <;> rfl

/-- No number above 2 names a CSR. -/
theorem csrNamed_above (v : Variant) {n : Imm} (h : 2 < n.toNat) : csrNamed v n = none := by
  have h0 : n ≠ 0#12 := by bv_omega
  have h1 : n ≠ 1#12 := by bv_omega
  have h2 : n ≠ 2#12 := by bv_omega
  cases v with
  | pure => simp [csrNamed_pure, h0, h1, h2]
  | hybrid sbase send => simp [csrNamed_hybrid, h1, h2]

/-! ## The abstract CSR accesses, by the register the number names -/

theorem State.csr_unnamed {s : State} {n : Imm} (i : RegIdx) (h : csrNamed s.cfg.variant n = none) :
    s.csrRead i n = .refused (.unknownCustom2 (.csrNumber n)) ∧ s.csrWrite n i = .refused (.unknownCustom2 (.csrNumber n)) := by
  simp [State.csrRead, State.csrWrite, h]

theorem State.csr_notInSource {s : State} {n : Imm} {r : AddedReg} (i : RegIdx) (h : csrNamed s.cfg.variant n = some r)
    (hr : r ≠ .cis) :
    s.csrRead i n = .refused (.csrAccessNotInSource r) ∧ s.csrWrite n i = .refused (.csrAccessNotInSource r) := by
  simp [State.csrRead, State.csrWrite, h, hr]

/-- While `cih` holds no capability, `cis` is read and written (R56). -/
theorem State.csr_cis_open {s : State} {n : Imm} (i : RegIdx) (h : csrNamed s.cfg.variant n = some .cis)
    (hcih : s.cih.isCap = false) :
    s.csrRead i n = .next (s.writeReg i (.int s.cis)) ∧ ∀ v, s.xint i = .ok v → s.csrWrite n i = .next { s with cis := v } := by
  refine ⟨by simp [State.csrRead, State.readAllowed, h, hcih], fun v hv => ?_⟩
  simp [State.csrWrite, State.writeAllowed, h, hcih, hv]

/-- Once `cih` holds a capability, `cis` is closed (R56). -/
theorem State.csr_cis_closed {s : State} {n : Imm} (i : RegIdx) (h : csrNamed s.cfg.variant n = some .cis)
    (hcih : s.cih.isCap = true) :
    s.csrRead i n = .fault (.ccsrConstraint .cis .read) ∧ s.csrWrite n i = .fault (.ccsrConstraint .cis .write) := by
  simp [State.csrRead, State.csrWrite, State.readAllowed, State.writeAllowed, h, hcih]

/-! ## The constraints of the CCSRs, by variant and world -/

theorem State.pureOrSecure_pure {s : State} (h : s.cfg.variant = .pure) : s.pureOrSecure = true := by
  simp [State.pureOrSecure, h]

theorem State.pureOrSecure_hybrid {s : State} {sbase : Word} {send : EndAddr} (h : s.cfg.variant = .hybrid sbase send) :
    s.pureOrSecure = decide (s.cwrld = .secure) := by
  simp [State.pureOrSecure, h]

theorem State.hybridNormal_pure {s : State} (h : s.cfg.variant = .pure) : s.hybridNormal = false := by
  simp [State.hybridNormal, h]

theorem State.hybridNormal_hybrid {s : State} {sbase : Word} {send : EndAddr} (h : s.cfg.variant = .hybrid sbase send) :
    s.hybridNormal = decide (s.cwrld = .normal) := by
  simp [State.hybridNormal, h]

theorem Cell.isCap_eq_false_iff (x : Cell) : x.isCap = false ↔ ∀ c, x ≠ .cap c := by
  cases x <;> simp [Cell.isCap]

/-- `cih` may be written in the pure variant while it holds no capability (R53). -/
theorem State.writeAllowed_cih_pure {s : State} (h : s.cfg.variant = .pure) :
    s.writeAllowed .cih = true ↔ ∀ c, s.cih ≠ .cap c := by
  rw [← Cell.isCap_eq_false_iff]
  simp [State.writeAllowed, h]

/-! # Reading a register by what it holds -/

section Operands
variable {s : State} {i : RegIdx}

theorem State.xint_of_int {v : Word} (h : s.regCell i = some (.int v)) : s.xint i = .ok v := by
  simp [State.xint, h]

theorem State.xint_of_cap {c : Cap} (h : s.regCell i = some (.cap c)) : s.xint i = .error (.regTypeConfusion i) := by
  simp [State.xint, h]

theorem State.xcap_of_cap {c : Cap} (h : s.regCell i = some (.cap c)) : s.xcap i = .ok c := by
  simp [State.xcap, h]

theorem State.xcap_of_int {v : Word} (h : s.regCell i = some (.int v)) : s.xcap i = .error (.regTypeConfusion i) := by
  simp [State.xcap, h]

end Operands

/-! # The fetch check and the parts of a step -/

/-- The four conditions of the access fault come first, the alignment after them (R29, R127). -/
theorem fetchCheck_eq (c : Cap) : fetchCheck c =
    if c.valid = false ∨ (c.ctype ≠ .linear ∧ c.ctype ≠ .nonLinear) ∨ permLe 1#3 c.perms = false ∨
        ¬ (c.base.toNat ≤ c.cursor.toNat ∧ c.cursor.toNat + 4 ≤ c.limit.val)
    then some .instructionAccessFault
    else if c.cursor.toNat % 4 ≠ 0 then some .instructionAddressMisaligned else none := by
  simp only [fetchCheck, ite_or, executable, Cap.cursorInFetchRange, decide_eq_false_iff_not]

/-! ## What the fetch answers -/

theorem State.fetch_int {s : State} {v : Word} (h : s.pc = .int v) : s.fetch = .error (.refused .baseIsaFetch) := by
  simp [State.fetch, h]

theorem State.fetch_exception {s : State} {c : Cap} {x : ExcName} (hpc : s.pc = .cap c) (hx : fetchCheck c = some x) :
    s.fetch = .error (raiseException x c) := by
  simp [State.fetch, hpc, hx]

theorem State.fetch_outside {s : State} {c : Cap} (hpc : s.pc = .cap c) (hc : fetchCheck c = none)
    (hr : fetchReach s.cfg.variant c.cursor.toNat = false) : s.fetch = .error (.refused .fetchOutsideSecure) := by
  simp [State.fetch, hpc, hc, hr]

theorem fetchReach_hybrid (sbase : Word) (send : EndAddr) (a : Nat) :
    fetchReach (.hybrid sbase send) a = decide (sbase.toNat ≤ a ∧ a + 4 ≤ send.val) := rfl

/-! ## What the step makes of it -/

theorem step_of_fetch_error {s : State} {e : Stop} (h : s.fetch = .error e) : step s = e.outcome := by
  simp [step, h]

/-- A fetch exception is the step's outcome, with its record (R126). -/
theorem step_exception {s : State} {c : Cap} {x : ExcName} (hpc : s.pc = .cap c) (hx : fetchCheck c = some x) :
    step s = .fault (.exception { name := x, cause := x.cause, pc := c }) :=
  step_of_fetch_error (State.fetch_exception hpc hx)

section Decoded
variable {s : State} {c : Cap} {w : InstrWord} {i : Instr} (hf : s.fetch = .ok (c, w)) (hd : decode s.cfg.enc w = .ok i)
include hf hd

theorem step_of_exec_next {t : State} (h : exec i s = .next t) : step s = t.advancePc c := by
  simp [step, State.decoded, hf, hd, h]

theorem step_of_exec_fault {f : Fault} (h : exec i s = .fault f) : step s = .fault f := by
  simp [step, State.decoded, hf, hd, h]

theorem step_of_exec_refused {r : Refusal} (h : exec i s = .refused r) : step s = .refused r := by
  simp [step, State.decoded, hf, hd, h]

end Decoded

/-- At the top of the address space the advance is refused (R31). -/
theorem State.advancePc_wrap (s : State) {c : Cap} (h : addrSpace ≤ c.cursor.toNat + 4) :
    s.advancePc c = .refused .pcWrap := by
  simp [State.advancePc, Nat.not_lt.mpr h]

theorem cursor_add_four_toNat {a : Word} (h : a.toNat + 4 < addrSpace) : (a + 4#64).toNat = a.toNat + 4 := by
  rw [BitVec.toNat_add]
  exact Nat.mod_eq_of_lt h

/-! # What one instruction can do to the state outside registers and memory

`ExecEffect` lists every way an instruction that goes on changes the control state; the step invariants read their answer off it. -/

/-! ## Frames of the shared bodies -/

theorem State.sameControl_refl (s : State) : s.sameControl s := by
  simp [State.sameControl, State.sameBackground, State.sameCcsrs]

theorem State.loadData_sameControl {s t : State} {m : Mnemonic} {n : Nat} {ops : OperandForm}
    (h : s.loadData m n ops = .next t) : s.sameControl t := by
  obtain ⟨-, v, -, rfl⟩ := (State.loadData_next s t m n ops).mp h
  simp [State.sameControl, State.sameBackground, State.sameCcsrs, State.afterLoad]

theorem State.storeData_sameControl {s t : State} {m : Mnemonic} {n : Nat} {ops : OperandForm}
    (h : s.storeData m n ops = .next t) : s.sameControl t := by
  obtain ⟨-, v, mem, -, -, rfl⟩ := (State.storeData_next s t m n ops).mp h
  simp [State.sameControl, State.sameBackground, State.sameCcsrs]

theorem State.loadCap_sameControl {s t : State} {m : Mnemonic} {ops : OperandForm}
    (h : s.loadCap m ops = .next t) : s.sameControl t := by
  obtain ⟨-, -, c, -, rfl⟩ := (State.loadCap_next s t m ops).mp h
  simp [State.sameControl, State.sameBackground, State.sameCcsrs, State.afterLoad]

theorem State.storeCap_sameControl {s t : State} {m : Mnemonic} {ops : OperandForm}
    (h : s.storeCap m ops = .next t) : s.sameControl t := by
  obtain ⟨-, -, c, -, rfl⟩ := (State.storeCap_next s t m ops).mp h
  simp [State.sameControl, State.sameBackground, State.sameCcsrs]

theorem State.loadCapRaw_sameControl {s t : State} {m : Mnemonic} {ops : OperandForm}
    (h : s.loadCapRaw m ops = .next t) : s.sameControl t := by
  obtain ⟨-, -, c, -, rfl⟩ := (State.loadCapRaw_next s t m ops).mp h
  simp [State.sameControl, State.sameBackground, State.sameCcsrs]

theorem State.storeCapRaw_sameControl {s t : State} {m : Mnemonic} {ops : OperandForm}
    (h : s.storeCapRaw m ops = .next t) : s.sameControl t := by
  obtain ⟨-, -, c, -, rfl⟩ := (State.storeCapRaw_next s t m ops).mp h
  simp [State.sameControl, State.sameBackground, State.sameCcsrs]

theorem State.afterCcsrRead_sameBackground (s : State) (rd : RegIdx) (r : AddedReg) :
    s.sameBackground (s.afterCcsrRead rd r) := by
  simp [State.sameBackground, State.afterCcsrRead]

theorem State.afterCcsrWrite_sameBackground (s : State) (r : AddedReg) (rs1 : RegIdx) (v : Cell) :
    s.sameBackground (s.afterCcsrWrite r rs1 v) := by
  simp [State.sameBackground, State.afterCcsrWrite]

theorem State.writeReg_sameBackground (s : State) (i : RegIdx) (v : Cell) : s.sameBackground (s.writeReg i v) := by
  simp [State.sameBackground]

theorem State.leaveCcsr_cih_of_ne (s : State) (r : AddedReg) (l : Residue) (h : r ≠ .cih) :
    (s.leaveCcsr r l).cih = s.cih := by
  cases l <;> simp [State.leaveCcsr, State.setCcsr_cih, h]

/-! ## The inversion of `exec` -/

/-- Every way an instruction that goes on acts on the CCSRs, on `cinit_read` and on the state no instruction writes; what it does to
the registers and to memory is left to the lemmas about each operation. -/
inductive ExecEffect (i : Instr) (s : State) : State → Prop where
  /-- a load, a store, or an access to `cinit` that is ignored (R114, R115) -/
  | control {t : State} (h : s.sameControl t) : ExecEffect i s t
  /-- the first read of `cinit` (R114) -/
  | firstCinitRead (rd : RegIdx)
      (hi : i = .ccsrReadCinit rd ∨ ∃ n, i = .ccsrRead rd n ∧ ccsrNamed s.cfg.variant n = some .cinit)
      (hfirst : s.cinitRead = false) : ExecEffect i s { s.writeReg rd (.cap s.cinit) with cinitRead := true }
  /-- a read of another CCSR (R112) -/
  | ccsrRead (rd : RegIdx) (r : AddedReg) (hr : s.readAllowed r = true) : ExecEffect i s (s.afterCcsrRead rd r)
  /-- a write of another CCSR (R113) -/
  | ccsrWrite (r : AddedReg) (rs1 : RegIdx) (v : Cell) (hr : s.writeAllowed r = true) :
      ExecEffect i s (s.afterCcsrWrite r rs1 v)

theorem readCinit_effect {i : Instr} {s t : State} {rd : RegIdx}
    (hi : i = .ccsrReadCinit rd ∨ ∃ n, i = .ccsrRead rd n ∧ ccsrNamed s.cfg.variant n = some .cinit)
    (h : s.readCinit rd = .next t) : ExecEffect i s t := by
  rcases (State.readCinit_next s t rd).mp h with ⟨-, rfl⟩ | ⟨hfirst, -, rfl⟩
  · exact .control t.sameControl_refl
  · exact .firstCinitRead rd hi hfirst

theorem readCcsr_effect {s t : State} {rd : RegIdx} {n : Imm} (h : s.readCcsr rd n = .next t) :
    ExecEffect (.ccsrRead rd n) s t := by
  obtain ⟨r, hn, ⟨rfl, hc⟩ | ⟨-, -, hr, -, rfl⟩⟩ := (State.readCcsr_next s t rd n).mp h
  · exact readCinit_effect (.inr ⟨n, rfl, hn⟩) hc
  · exact .ccsrRead rd r hr

theorem writeCcsr_effect {i : Instr} {s t : State} {n : Imm} {rs1 : RegIdx} (h : s.writeCcsr n rs1 = .next t) :
    ExecEffect i s t := by
  obtain ⟨r, -, ⟨-, rfl⟩ | ⟨-, -, hr, -, v, -, rfl⟩⟩ := (State.writeCcsr_next s t n rs1).mp h
  · exact .control t.sameControl_refl
  · exact .ccsrWrite r rs1 v hr

/-- The instructions and the operations they are written over, case by case. -/
theorem exec_effect {i : Instr} {s t : State} (h : exec i s = .next t) : ExecEffect i s t := by
  cases i with
  | ldd ops => exact .control (State.loadData_sameControl h)
  | ldw ops => exact .control (State.loadData_sameControl h)
  | ldh ops => exact .control (State.loadData_sameControl h)
  | ldb ops => exact .control (State.loadData_sameControl h)
  | std ops => exact .control (State.storeData_sameControl h)
  | stw ops => exact .control (State.storeData_sameControl h)
  | sth ops => exact .control (State.storeData_sameControl h)
  | stb ops => exact .control (State.storeData_sameControl h)
  | ldc ops => exact .control (State.loadCap_sameControl h)
  | stc ops => exact .control (State.storeCap_sameControl h)
  | ldcr ops => exact .control (State.loadCapRaw_sameControl h)
  | stcr ops => exact .control (State.storeCapRaw_sameControl h)
  | ccsrRead rd n => exact readCcsr_effect h
  | ccsrReadCinit rd => exact readCinit_effect (.inl rfl) h
  | ccsrWrite n rs1 => exact writeCcsr_effect h
  | ccsrWriteCinit rs1 =>
    obtain rfl : t = s := (next_eq_next s t).mp h
    exact .control t.sameControl_refl

theorem exec_sameBackground {i : Instr} {s t : State} (h : exec i s = .next t) : s.sameBackground t := by
  cases exec_effect h with
  | control hk => exact hk.1
  | firstCinitRead rd => exact s.writeReg_sameBackground rd _
  | ccsrRead rd r => exact s.afterCcsrRead_sameBackground rd r
  | ccsrWrite r rs1 v => exact s.afterCcsrWrite_sameBackground r rs1 v

/-- `cih` is never readable, and not writable once it holds a capability (R53). -/
theorem exec_keeps_installed_cih {i : Instr} {s t : State} {c : Cap} (hc : s.cih = .cap c) (h : exec i s = .next t) :
    t.cih = .cap c := by
  rw [← hc]
  cases exec_effect h with
  | control hk =>
    obtain ⟨-, ⟨-, -, hcih, -⟩, -⟩ := hk
    exact hcih
  | firstCinitRead rd => exact s.writeReg_cih rd _
  | ccsrRead rd r hr =>
    have hne : r ≠ .cih := by
      rintro rfl
      simp [State.readAllowed] at hr
    simp [State.afterCcsrRead, State.leaveCcsr_cih_of_ne _ _ _ hne]
  | ccsrWrite r rs1 v hr =>
    have hne : r ≠ .cih := by
      rintro rfl
      simp [State.writeAllowed, hc, Cell.isCap] at hr
    simp [State.afterCcsrWrite, State.setCcsr_cih, hne]

theorem exec_cinitRead {i : Instr} {s t : State} (h : exec i s = .next t) :
    t.cinitRead = s.cinitRead ∨
    (t.cinitRead = true ∧
      ∃ rd, i = .ccsrReadCinit rd ∨ ∃ n, i = .ccsrRead rd n ∧ ccsrNamed s.cfg.variant n = some .cinit) := by
  cases exec_effect h with
  | control hk =>
    obtain ⟨-, -, hread⟩ := hk
    exact .inl hread
  | firstCinitRead rd hi => exact .inr ⟨rfl, rd, hi⟩
  | ccsrRead rd r => exact .inl (by simp [State.afterCcsrRead])
  | ccsrWrite r rs1 v => exact .inl (by simp [State.afterCcsrWrite])

/-! # The machine at reset -/

theorem State.regCell_resetWith_ne_cap (cfg : Config) (i : RegIdx) (c : Cap) :
    (State.resetWith cfg).regCell i ≠ some (.cap c) := by
  unfold State.regCell
  split <;> simp [State.resetWith]

/-- The only capabilities at reset stand in `pc`, in `cinit` and in `switch_cap`. -/
theorem State.holds_resetWith {cfg : Config} {c : Cap} (h : (State.resetWith cfg).holds c) :
    c = launchPc cfg.variant ∨ c = initialCap cfg.variant ∨ c = cnull := by
  rcases h with hpc | ⟨i, hreg⟩ | hceh | hdeh | hcih | hepc | hcinit | hswitch | ⟨g, hmem⟩
  · cases hpc
    exact .inl rfl
  · exact absurd hreg (State.regCell_resetWith_ne_cap cfg i c)
  · cases hceh
  · cases hdeh
  · cases hcih
  · cases hepc
  · exact .inr (.inl hcinit.symm)
  · exact .inr (.inr hswitch.symm)
  · cases hmem

theorem cnull_insideSecure (v : Variant) : cnull.insideSecure v := by
  cases v with
  | pure => trivial
  | hybrid sbase send => exact fun h => nomatch h

/-- The bounds of the initial capability are those of the secure memory. -/
theorem initialCap_insideSecure (v : Variant) : (initialCap v).insideSecure v := by
  cases v with
  | pure => trivial
  | hybrid sbase send => exact fun _ _ => ⟨le_refl _, le_refl _⟩

theorem launchPc_insideSecure (v : Variant) : (launchPc v).insideSecure v := by
  cases v with
  | pure => trivial
  | hybrid sbase send => exact fun _ _ => ⟨le_refl _, le_refl _⟩

theorem State.resetWith_secureCaps (cfg : Config) : (State.resetWith cfg).secureCaps := by
  intro c hc
  show c.insideSecure cfg.variant
  rcases State.holds_resetWith hc with rfl | rfl | rfl
  · exact launchPc_insideSecure _
  · exact initialCap_insideSecure _
  · exact cnull_insideSecure _

theorem State.resetWith_atReset (cfg : Config) : (State.resetWith cfg).atReset := by
  refine ⟨rfl, rfl, rfl, rfl, rfl, rfl, fun i c h => absurd h (State.regCell_resetWith_ne_cap cfg i c), ?_⟩
  rintro c (hceh | hdeh | hepc | hswitch)
  · cases hceh
  · cases hdeh
  · cases hepc
  · cases hswitch
    rfl

theorem State.resetWith_wellFormed (cfg : Config) : (State.resetWith cfg).wellFormed :=
  ⟨State.resetWith_mem_wf cfg, fun _ => rfl⟩

/-! # The statements about the machine's state -/

/-- Settles O40: a step is an instruction and the advance of `pc`, and neither replaces a capability in `cih`. -/
theorem everyStepKeepsInstalledCih : Obligations.EveryStepKeepsInstalledCih := by
  intro s t c hc h
  obtain ⟨d, w, i, u, -, -, he, -, rfl⟩ := step_next s t h
  have hu : u.cih = .cap c := exec_keeps_installed_cih hc he
  exact hu

/-- Settles O9, from what a step that goes on did (`step_next`) and what its fetch asked (`State.fetch_ok`). -/
theorem everyStepAdvancesCursorByFour : Obligations.EveryStepAdvancesCursorByFour := by
  intro s t h
  obtain ⟨c, w, i, u, hf, -, -, hlt, rfl⟩ := step_next s t h
  obtain ⟨hpc, hcheck, -, -⟩ := (State.fetch_ok s c w).mp hf
  exact ⟨c, hpc, hcheck, rfl, cursor_add_four_toNat hlt⟩

/-- Settles O41: the read of `cinit` alone touches the flag, and the decoder gives it one constructor only. -/
theorem cinitIsReadAtMostOnce : Obligations.CinitIsReadAtMostOnce := by
  intro s t h
  obtain ⟨c, w, i, u, hf, hd, he, -, rfl⟩ := step_next s t h
  obtain ⟨-, -, hcinit, -⟩ := exec_sameBackground he
  refine ⟨hcinit, fun hs => ?_, fun hs ht => ?_⟩
  · rcases exec_cinitRead he with hsame | ⟨hset, -⟩
    · exact hsame.trans hs
    · exact hset
  · rcases exec_cinitRead he with hsame | ⟨-, rd, rfl | ⟨n, rfl, hn⟩⟩
    · exact absurd (hsame.symm.trans ht) (by simp [hs])
    · exact ⟨c, w, rd, hf, hd⟩
    · exact absurd (ccsrNamed_cinit hn) (decode_ccsrRead_number hd)

/-- Settles O42: no instruction writes this state, and the advance of `pc` does not either. -/
theorem everyStepKeepsUnnumberedState : Obligations.EveryStepKeepsUnnumberedState := by
  intro s t h
  obtain ⟨c, w, i, u, -, -, he, -, rfl⟩ := step_next s t h
  have hu : s.sameBackground u := exec_sameBackground he
  exact hu

/-- Settles O1: the listed pairs are the subset order, so the order laws are those of `&&&`. -/
theorem permissionOrderIsBitSubset : Obligations.PermissionOrderIsBitSubset :=
  ⟨permLe_iff_and, permLe_bounds, fun _ _ => permLe_antisymm, fun _ _ _ => permLe_trans, perm_predicates⟩

/-- Settles O2: the greater base and the smaller end bound the shared addresses. -/
theorem aliasingIsRegionIntersection : Obligations.AliasingIsRegionIntersection := by
  intro c d
  refine ⟨c.aliases_iff_exists d, c.aliases_iff_lt d, c.aliases_comm d, fun hempty => ?_, fun htouch => ?_⟩
  · exact c.aliases_eq_false d (by omega)
  · exact c.aliases_eq_false d (by omega)

/-- Settles O3: both order laws come from the stamps. -/
theorem creationOrderIsStrict : Obligations.CreationOrderIsStrict := fun c d =>
  ⟨c.createdBefore_isSome d, c.createdBefore_eq_true d, Cap.createdBefore_asymm, c.createdBefore_irrefl⟩

/-- Settles O4, by the definition of each variant's capability. -/
theorem initialCapabilityFields : Obligations.InitialCapabilityFields :=
  ⟨⟨rfl, rfl, rfl, rfl, rfl, rfl⟩, fun _ _ => ⟨rfl, rfl, rfl, rfl, rfl, rfl⟩⟩

/-- Settles O5: `x0` has no storage, and the first read of `cinit` into it keeps its other effect. -/
theorem registerZeroIsHardwired : Obligations.RegisterZeroIsHardwired := by
  intro s
  refine ⟨rfl, rfl, ⟨rfl, rfl, rfl, rfl, rfl, rfl⟩, s.writeReg_zero, fun hfirst hpure => ?_⟩
  have hallowed : s.readAllowed .cinit = true := by simp [State.readAllowed, State.pureOrNormal, hpure]
  exact (State.readCinit_next s _ 0).mpr (.inr ⟨hfirst, hallowed, rfl⟩)

/-- Settles O6, from what a register holds after a write to it and to another. -/
theorem registerKeepsItsKind : Obligations.RegisterKeepsItsKind := by
  intro s i hi
  have hsame (x : Cell) : (s.writeReg i x).regCell i = some x := s.regCell_writeReg_same i x hi
  refine ⟨fun v => ?_, fun c => ?_, fun v j hj => s.regCell_writeReg_other i j v hj⟩
  · exact ⟨State.xint_of_int (hsame _), State.xcap_of_int (hsame _)⟩
  · exact ⟨State.xcap_of_cap (hsame _), State.xint_of_cap (hsame _)⟩

/-- Settles O7, from the two tests of `fetchCheck_eq` in their order. -/
theorem fetchExceptionsInPriorityOrder : Obligations.FetchExceptionsInPriorityOrder := by
  intro s c hpc
  refine ⟨fun hbad => ?_, fun ⟨hvalid, htype, hperm, hbase, hend, halign⟩ => ?_⟩
  · exact step_exception hpc (by rw [fetchCheck_eq, if_pos hbad])
  · refine step_exception hpc ?_
    rw [fetchCheck_eq, if_neg, if_pos halign]
    rintro (h | ⟨hl, hn⟩ | h | h)
    · simp [hvalid] at h
    · exact htype.elim hl hn
    · simp [hperm] at h
    · exact h ⟨hbase, hend⟩

/-- Settles O8, one outcome of the instruction after the other. -/
theorem stepRunsDecodedInstruction : Obligations.StepRunsDecodedInstruction := by
  intro s c w i hpc hcheck hreach hword hd
  have hf : s.fetch = .ok (c, w) := (State.fetch_ok s c w).mpr ⟨hpc, hcheck, hreach, hword⟩
  refine ⟨fun t he hlt => ?_, fun t he hwrap => ?_, fun f he => step_of_exec_fault hf hd he,
    fun r he => step_of_exec_refused hf hd he⟩
  · rw [step_of_exec_next hf hd he]
    exact (State.advancePc_next t _ c).mpr ⟨hlt, rfl⟩
  · rw [step_of_exec_next hf hd he]
    exact t.advancePc_wrap hwrap

/-- Settles O10: the fetch stops, and its stop is the step's outcome. -/
theorem hybridFetchRefusals : Obligations.HybridFetchRefusals := by
  refine ⟨fun s v hpc => step_of_fetch_error (State.fetch_int hpc), fun s c sbase send hv hpc hcheck hout => ?_⟩
  have hreach : fetchReach s.cfg.variant c.cursor.toNat = false := by
    rw [hv, fetchReach_hybrid, decide_eq_false hout]
  exact step_of_fetch_error (State.fetch_outside hpc hcheck hreach)

/-- Settles O29: the write is no operation, and with the flag set the read is the same. -/
theorem cinitWriteAndLaterReadIgnored : Obligations.CinitWriteAndLaterReadIgnored := fun s r =>
  ⟨rfl, fun hread => (State.readCinit_next s s r).mpr (.inl ⟨hread, rfl⟩)⟩

/-- Settles O35, variant by variant and world by world. -/
theorem ccsrConstraintsByVariantAndWorld : Obligations.CcsrConstraintsByVariantAndWorld := by
  intro s
  refine ⟨fun hpure => ?_, fun sbase send hv hw => ?_, fun sbase send hv hw => ?_⟩
  · have hps := State.pureOrSecure_pure hpure
    have hhn := State.hybridNormal_pure hpure
    exact ⟨hps, hps, hps, hps, rfl, State.writeAllowed_cih_pure hpure, hhn, hhn⟩
  · have hps : s.pureOrSecure = false := by simp [State.pureOrSecure_hybrid hv, hw]
    have hhn : s.hybridNormal = true := by simp [State.hybridNormal_hybrid hv, hw]
    exact ⟨hps, hps, hps, hps, hhn, hhn⟩
  · have hps : s.pureOrSecure = true := by simp [State.pureOrSecure_hybrid hv, hw]
    have hhn : s.hybridNormal = false := by simp [State.hybridNormal_hybrid hv, hw]
    exact ⟨hps, hps, hps, hps, hhn, hhn⟩

/-- Settles O38: the four tables. -/
theorem ccsrNumbersNameTheTablesRegisters : Obligations.CcsrNumbersNameTheTablesRegisters :=
  ⟨ccsrNamed_pure, ccsrNamed_hybrid, csrNamed_pure, csrNamed_hybrid⟩

/-- Settles O39: the number names a register of the variant or none, and that decides the access. -/
theorem csrAccessFollowsCih : Obligations.CsrAccessFollowsCih := by
  intro s i
  refine ⟨fun hpure => ?_, fun sbase send hv => ?_, ?_, fun n hn => State.csr_unnamed i (csrNamed_above _ hn)⟩
  · have hcis : csrNamed s.cfg.variant 0#12 = some .cis := by rw [hpure]; rfl
    exact ⟨State.csr_cis_open i hcis, State.csr_cis_closed i hcis⟩
  · exact State.csr_unnamed i (by rw [hv]; rfl)
  · obtain ⟨htr, htw⟩ := State.csr_notInSource i (csrNamed_tval s.cfg.variant) (by decide)
    obtain ⟨hcr, hcw⟩ := State.csr_notInSource i (csrNamed_cause s.cfg.variant) (by decide)
    exact ⟨htr, htw, hcr, hcw⟩

/-- Settles O44: reset memory is empty, and `pc` holds the launch capability. -/
theorem resetIsWellFormed : Obligations.ResetIsWellFormed :=
  ⟨State.resetWith_wellFormed, State.resetWith_wellFormed Config.model⟩

/-- Settles O46: the capabilities at reset are the launch capability, the initial one and `cnull`. -/
theorem resetMeetsLaunchPremises : Obligations.ResetMeetsLaunchPremises := fun cfg =>
  ⟨State.resetWith_secureCaps cfg, State.resetWith_atReset cfg⟩

end Sys2Proof.Machine

/-! SUPPORT. What raw and capability accesses do to memory byte by byte, what an instruction that goes on does to memory as a whole,
and the statements about memory settled from them. -/

namespace Sys2Proof.Machine

open Sys2Proof

/-! # Bytes and little-endian numbers -/

theorem readLE_writeLE (l : List Host.Cell) (n : Nat) : ∀ a v : Nat, readLE (writeLE l a n v) a n = v % 256 ^ n := by
  induction n with
  | zero => intro a v; simp [readLE, Nat.mod_one]
  | succ n ih =>
    intro a v
    have hrest : readLE (writeLE l a (n + 1) v) (a + 1) n = v / 256 % 256 ^ n := by
      rw [← ih (a + 1) (v / 256)]
      refine readLE_congr _ _ n (a + 1) fun j hj _ => ?_
      rw [writeLE, byteOf_setByte, if_neg (by omega)]
    calc readLE (writeLE l a (n + 1) v) a (n + 1)
        = v % 256 + 256 * (v / 256 % 256 ^ n) := by
          rw [readLE, hrest]
          simp [writeLE, byteOf_setByte]
      _ = v % 256 ^ (n + 1) := by rw [Nat.pow_succ', Nat.mod_mul]

/-- The `k`-th byte of the number read is the byte `k` addresses on. -/
theorem ofNat_readLE_div (l : List Host.Cell) (n : Nat) : ∀ a k : Nat, k < n →
    BitVec.ofNat 8 (readLE l a n / 256 ^ k) = byteOf l (a + k) := by
  induction n with
  | zero => intro a k hk; omega
  | succ n ih =>
    intro a k hk
    have hlt : (byteOf l a).toNat < 256 := (byteOf l a).isLt
    cases k with
    | zero =>
      apply BitVec.eq_of_toNat_eq
      simp only [readLE, Nat.pow_zero, Nat.div_one, Nat.add_zero, BitVec.toNat_ofNat]
      omega
    | succ k =>
      have hdrop : readLE l a (n + 1) / 256 = readLE l (a + 1) n := by
        rw [readLE]
        omega
      rw [Nat.pow_succ', ← Nat.div_div_eq_div_mul, hdrop, ih (a + 1) k (by omega), Nat.add_right_comm, Nat.add_assoc]

/-! # Raw accesses and the granules they touch -/

section Raw
variable {m m' : Memory} {a n v : Nat}

theorem Memory.byteAt_eq_some_iff {b : Byte} :
    m.byteAt a = some b ↔ m.capAt (a / clenBytes) = none ∧ byteOf m.bytes a = b := by
  unfold Memory.byteAt
  cases m.capAt (a / clenBytes) <;> simp

/-- An access of up to sixteen bytes touches no granule but the first and the last of its bytes'. -/
theorem Memory.touchesCap_of_byte {k : Nat} (hn : n ≤ 16) (hk : k < n)
    (hcap : (m.capAt ((a + k) / clenBytes)).isSome = true) : m.touchesCap a n = true := by
  rw [Memory.touchesCap, Bool.or_eq_true]
  rcases granule_of_access a n (a + k) (by omega) (by omega) hn with hg | hg
  · exact .inl (hg ▸ hcap)
  · exact .inr (hg ▸ hcap)

theorem Memory.touchesCap_iff (h1 : 1 ≤ n) (hn : n ≤ 16) :
    m.touchesCap a n = true ↔ ∃ k, k < n ∧ (m.capAt ((a + k) / clenBytes)).isSome = true := by
  constructor
  · intro h
    rw [Memory.touchesCap, Bool.or_eq_true] at h
    rcases h with hfirst | hlast
    · exact ⟨0, h1, hfirst⟩
    · exact ⟨n - 1, by omega, by rwa [← Nat.add_sub_assoc h1]⟩
  · rintro ⟨k, hk, hcap⟩
    exact Memory.touchesCap_of_byte hn hk hcap

theorem Memory.read_eq_none_iff : m.read a n = none ↔ m.touchesCap a n = true := by
  simp [Memory.read]

theorem Memory.write_eq_none_iff : m.write a n v = none ↔ m.touchesCap a n = true := by
  simp [Memory.write]

theorem Memory.read_eq_some_iff : m.read a n = some v ↔ m.touchesCap a n = false ∧ readLE m.bytes a n = v := by
  simp [Memory.read]

theorem Memory.write_eq_some_iff :
    m.write a n v = some m' ↔ m.touchesCap a n = false ∧ m' = { m with bytes := writeLE m.bytes a n v } := by
  simp [Memory.write, eq_comm (a := m')]

/-- Each byte of an access that touches no capability lies in a raw granule. -/
theorem Memory.capAt_of_not_touchesCap {k : Nat} (hraw : m.touchesCap a n = false) (hn : n ≤ 16) (hk : k < n) :
    m.capAt ((a + k) / clenBytes) = none := by
  by_contra hcap
  have := Memory.touchesCap_of_byte hn hk (Option.isSome_iff_ne_none.mpr hcap)
  simp [hraw] at this

/-- A raw write followed by the raw read of the same bytes (R79). -/
theorem Memory.read_after_write (h : m.write a n v = some m') : m'.read a n = some (v % 256 ^ n) := by
  obtain ⟨hraw, rfl⟩ := Memory.write_eq_some_iff.mp h
  exact Memory.read_eq_some_iff.mpr ⟨hraw, readLE_writeLE m.bytes n a v⟩

theorem Memory.write_byteAt {k : Nat} (h : m.write a n v = some m') (hn : n ≤ 16) (hk : k < n) :
    m'.byteAt (a + k) = some (BitVec.ofNat 8 (v / 256 ^ k)) := by
  obtain ⟨hraw, rfl⟩ := Memory.write_eq_some_iff.mp h
  exact Memory.byteAt_eq_some_iff.mpr
    ⟨Memory.capAt_of_not_touchesCap hraw hn hk, byteOf_writeLE m.bytes n a v k hk⟩

theorem Memory.read_byteAt {k : Nat} (h : m.read a n = some v) (hn : n ≤ 16) (hk : k < n) :
    m.byteAt (a + k) = some (BitVec.ofNat 8 (v / 256 ^ k)) := by
  obtain ⟨hraw, rfl⟩ := Memory.read_eq_some_iff.mp h
  exact Memory.byteAt_eq_some_iff.mpr
    ⟨Memory.capAt_of_not_touchesCap hraw hn hk, (ofNat_readLE_div m.bytes n a k hk).symm⟩

end Raw

/-! # The instruction word -/

theorem extractLsb'_ofNat_word {k : Nat} (v : Nat) (hk : k < 4) :
    (BitVec.ofNat 32 v).extractLsb' (8 * k) 8 = BitVec.ofNat 8 (v / 256 ^ k) := by
  apply BitVec.eq_of_toNat_eq
  simp only [BitVec.extractLsb'_toNat, BitVec.toNat_ofNat, Nat.shiftRight_eq_div_pow]
  interval_cases k <;> omega

theorem Memory.fetchWord_byteAt {m : Memory} {a k : Nat} {w : InstrWord} (h : m.fetchWord a = some w) (hk : k < 4) :
    m.byteAt (a + k) = some (w.extractLsb' (8 * k) 8) := by
  obtain ⟨v, hr, rfl⟩ := Option.map_eq_some_iff.mp h
  rw [extractLsb'_ofNat_word v hk]
  exact Memory.read_byteAt hr (by decide) hk

theorem Memory.fetchWord_eq_none_iff {m : Memory} {a : Nat} : m.fetchWord a = none ↔ m.touchesCap a 4 = true := by
  rw [Memory.fetchWord, Option.map_eq_none_iff, Memory.read_eq_none_iff]

/-- A fetch that passes the check is aligned (R29). -/
theorem fetchCheck_aligned {c : Cap} (h : fetchCheck c = none) : c.cursor.toNat % 4 = 0 := by
  by_contra halign
  rw [fetchCheck_eq, if_pos halign] at h
  split at h <;> cases h

theorem State.fetch_confusion {s : State} {c : Cap} (hpc : s.pc = .cap c) (hc : fetchCheck c = none)
    (hr : fetchReach s.cfg.variant c.cursor.toNat = true) (hw : s.mem.fetchWord c.cursor.toNat = none) :
    s.fetch = .error (.fault (.fetchTypeConfusion c.cursor)) := by
  simp [State.fetch, hpc, hc, hr, hw]

/-! # What each group of instructions asks before it goes on -/

section Groups
variable {s t : State} {ops : OperandForm}

theorem exec_dataLoad {x : Mnemonic × Nat × (OperandForm → Instr)} (hx : x ∈ dataLoads) :
    exec (x.2.2 ops) s = s.loadData x.1 x.2.1 ops := by
  simp only [dataLoads, List.mem_cons, List.not_mem_nil, or_false] at hx
  rcases hx with rfl | rfl | rfl | rfl <;> rfl

theorem exec_dataStore {x : Mnemonic × Nat × (OperandForm → Instr)} (hx : x ∈ dataStores) :
    exec (x.2.2 ops) s = s.storeData x.1 x.2.1 ops := by
  simp only [dataStores, List.mem_cons, List.not_mem_nil, or_false] at hx
  rcases hx with rfl | rfl | rfl | rfl <;> rfl

theorem dataInstr_width_le {x : Mnemonic × Nat × (OperandForm → Instr)} (hx : x ∈ dataLoads ++ dataStores) : x.2.1 ≤ 8 := by
  simp only [dataLoads, dataStores, List.cons_append, List.nil_append, List.mem_cons, List.not_mem_nil, or_false] at hx
  rcases hx with rfl | rfl | rfl | rfl | rfl | rfl | rfl | rfl <;> decide

theorem capInstr_capGate {x : Mnemonic × Nat × (OperandForm → Instr)} (hx : x ∈ capInstrs)
    (h : exec (x.2.2 ops) s = .next t) : s.capGate x.1 ops x.2.1 = .ok () := by
  simp only [capInstrs, List.mem_append, List.mem_cons, List.not_mem_nil, or_false] at hx
  rcases hx with (hload | hstore) | rfl | rfl
  · rw [exec_dataLoad hload] at h
    obtain ⟨hgate, -⟩ := (State.loadData_next s t _ _ ops).mp h
    exact hgate
  · rw [exec_dataStore hstore] at h
    obtain ⟨hgate, -⟩ := (State.storeData_next s t _ _ ops).mp h
    exact hgate
  · obtain ⟨hgate, -⟩ := (State.loadCap_next s t .ldc ops).mp h
    exact hgate
  · obtain ⟨hgate, -⟩ := (State.storeCap_next s t .stc ops).mp h
    exact hgate

theorem rawInstr_mmuGate {x : Mnemonic × (OperandForm → Instr)} (hx : x ∈ rawInstrs)
    (h : exec (x.2 ops) s = .next t) : s.mmuGate x.1 ops clenBytes = .ok () := by
  simp only [rawInstrs, List.mem_cons, List.not_mem_nil, or_false] at hx
  rcases hx with rfl | rfl
  · obtain ⟨hgate, -⟩ := (State.loadCapRaw_next s t .ldcr ops).mp h
    exact hgate
  · obtain ⟨hgate, -⟩ := (State.storeCapRaw_next s t .stcr ops).mp h
    exact hgate

end Groups

/-! # Which memory an instruction may reach -/

theorem capReach_hybrid (sbase : Word) (send : EndAddr) (a n : Nat) :
    capReach (.hybrid sbase send) a n = true ↔ sbase.toNat ≤ a ∧ a + n ≤ send.val :=
  decide_eq_true_iff

theorem mmuReach_hybrid (sbase : Word) (send : EndAddr) (a n : Nat) :
    mmuReach (.hybrid sbase send) a n = true ↔ a + n ≤ sbase.toNat ∨ (send.val ≤ a ∧ a + n ≤ addrSpace) :=
  decide_eq_true_iff

theorem capReach_le {v : Variant} {a n : Nat} (h : capReach v a n = true) : a + n ≤ addrSpace := by
  cases v with
  | pure => exact decide_eq_true_iff.mp h
  | hybrid sbase send =>
    obtain ⟨-, hend⟩ := (capReach_hybrid sbase send a n).mp h
    have := send.isLt
    simp only [addrSpace]
    omega

/-- The memory an instruction reaches: LDCR and STCR the normal memory, the others what capabilities reach (R67, R68,
R107); a CCSR access touches no memory, so what stands for it here is of no effect. -/
def reachOf (m : Mnemonic) : Variant → Nat → Nat → Bool :=
  match m with
  | .ldcr | .stcr => mmuReach
  | .ldd | .ldw | .ldh | .ldb | .std | .stw | .sth | .stb | .ldc | .stc | .ccsrRead | .ccsrWrite => capReach

theorem reachOf_raw {m : Mnemonic} (h : m = .ldcr ∨ m = .stcr) : reachOf m = mmuReach := by
  rcases h with rfl | rfl <;> rfl

theorem reachOf_not_raw {m : Mnemonic} (h : m ≠ .ldcr ∧ m ≠ .stcr) : reachOf m = capReach := by
  obtain ⟨hldcr, hstcr⟩ := h
  cases m with
  | ldcr => exact absurd rfl hldcr
  | stcr => exact absurd rfl hstcr
  | _ => rfl

/-- Each byte of an access in reach is in reach. -/
theorem reachOf_byte {m : Mnemonic} {v : Variant} {a n j : Nat} (h : reachOf m v a n = true)
    (hlo : a ≤ j) (hhi : j < a + n) : reachOf m v j 1 = true := by
  by_cases hm : m = .ldcr ∨ m = .stcr
  · rw [reachOf_raw hm] at h ⊢
    cases v with
    | pure => exact h
    | hybrid sbase send =>
      rw [mmuReach_hybrid] at h ⊢
      omega
  · rw [reachOf_not_raw (not_or.mp hm)] at h ⊢
    cases v with
    | pure =>
      have := capReach_le h
      exact decide_eq_true_iff.mpr (by omega)
    | hybrid sbase send =>
      rw [capReach_hybrid] at h ⊢
      omega

/-! # What an instruction that goes on does to memory -/

/-- The byte at an address, and the capability its granule may hold, are the same in both memories. -/
def Memory.sameAt (m m' : Memory) (j : Nat) : Prop :=
  m'.byteAt j = m.byteAt j ∧ m'.capAt (j / clenBytes) = m.capAt (j / clenBytes)

theorem Memory.sameAt_refl (m : Memory) (j : Nat) : m.sameAt m j := ⟨rfl, rfl⟩

theorem Memory.sameAt_write {m m' : Memory} {a n v j : Nat} (h : m.write a n v = some m') (hj : j < a ∨ a + n ≤ j) :
    m.sameAt m' j :=
  ⟨Memory.write_byteAt_other h j hj, Memory.write_capAt h _⟩

theorem Memory.sameAt_writeCap {m : Memory} {a j : Nat} (c : Cap) (hj : j / clenBytes ≠ a / clenBytes) :
    m.sameAt (m.writeCap a c) j := by
  simp [Memory.sameAt, Memory.writeCap_byteAt, Memory.writeCap_capAt, hj]

theorem Memory.sameAt_leave {m : Memory} {a j : Nat} (r : MemResidue) (hj : j / clenBytes ≠ a / clenBytes) :
    m.sameAt (m.leave a r) j :=
  ⟨m.leave_byteAt_other a r j hj, m.leave_capAt_other a r _ hj⟩

/-- Every way an instruction of a mnemonic that goes on acts on memory: it changes memory at the free answer's address only, by one
of three operations, and every byte of the access is in its reach. -/
inductive MemEffect (m : Mnemonic) (s : State) : Memory → Prop where
  /-- a load of raw data, or a CCSR access -/
  | unchanged : MemEffect m s s.mem
  /-- a store of raw data (R95) -/
  | write {n v : Nat} {mem : Memory} (hn : n ≤ 8) (hreach : reachOf m s.cfg.variant s.sem.addr.toNat n = true)
      (hw : s.mem.write s.sem.addr.toNat n v = some mem) : MemEffect m s mem
  /-- a load of a capability (R104, R108) -/
  | leave (halign : s.sem.addr.toNat % clenBytes = 0)
      (hreach : reachOf m s.cfg.variant s.sem.addr.toNat clenBytes = true) :
      MemEffect m s (s.mem.leave s.sem.addr.toNat s.sem.memLeft)
  /-- a store of a capability that stood in a register (R104, R109) -/
  | writeCap {i : RegIdx} {c : Cap} (hc : s.xcap i = .ok c) (halign : s.sem.addr.toNat % clenBytes = 0)
      (hreach : reachOf m s.cfg.variant s.sem.addr.toNat clenBytes = true) :
      MemEffect m s (s.mem.writeCap s.sem.addr.toNat c)

theorem MemEffect.of_mem_eq {m : Mnemonic} {s t : State} (h : t.mem = s.mem) : MemEffect m s t.mem :=
  h ▸ .unchanged

section Bodies
variable {s t : State} {m : Mnemonic} {ops : OperandForm} {n : Nat}

theorem State.capGate_reach (hm : reachOf m = capReach) (h : s.capGate m ops n = .ok ()) :
    reachOf m s.cfg.variant s.sem.addr.toNat n = true := by
  obtain ⟨-, -, -, hreach⟩ := (State.capGate_ok s m ops n).mp h
  rwa [hm]

theorem State.mmuGate_reach (hm : reachOf m = mmuReach) (h : s.mmuGate m ops n = .ok ()) :
    reachOf m s.cfg.variant s.sem.addr.toNat n = true := by
  obtain ⟨-, -, -, -, hreach⟩ := (State.mmuGate_ok s m ops n).mp h
  rwa [hm]

theorem State.loadData_mem (h : s.loadData m n ops = .next t) : t.mem = s.mem := by
  obtain ⟨-, v, -, rfl⟩ := (State.loadData_next s t m n ops).mp h
  simp [State.afterLoad]

theorem State.storeData_memEffect (hm : reachOf m = capReach) (hn : n ≤ 8) (h : s.storeData m n ops = .next t) :
    MemEffect m s t.mem := by
  obtain ⟨hgate, v, mem, -, hw, rfl⟩ := (State.storeData_next s t m n ops).mp h
  exact .write hn (State.capGate_reach hm hgate) hw

theorem State.loadCap_memEffect (hm : reachOf m = capReach) (h : s.loadCap m ops = .next t) : MemEffect m s t.mem := by
  obtain ⟨hgate, halign, c, -, rfl⟩ := (State.loadCap_next s t m ops).mp h
  exact .leave ((State.alignGate_ok s m).mp halign) (State.capGate_reach hm hgate)

theorem State.storeCap_memEffect (hm : reachOf m = capReach) (h : s.storeCap m ops = .next t) : MemEffect m s t.mem := by
  obtain ⟨hgate, halign, c, hc, rfl⟩ := (State.storeCap_next s t m ops).mp h
  exact .writeCap hc ((State.alignGate_ok s m).mp halign) (State.capGate_reach hm hgate)

theorem State.loadCapRaw_memEffect (hm : reachOf m = mmuReach) (h : s.loadCapRaw m ops = .next t) :
    MemEffect m s t.mem := by
  obtain ⟨hgate, halign, c, -, rfl⟩ := (State.loadCapRaw_next s t m ops).mp h
  exact .leave ((State.alignGate_ok s m).mp halign) (State.mmuGate_reach hm hgate)

theorem State.storeCapRaw_memEffect (hm : reachOf m = mmuReach) (h : s.storeCapRaw m ops = .next t) :
    MemEffect m s t.mem := by
  obtain ⟨hgate, halign, c, hc, rfl⟩ := (State.storeCapRaw_next s t m ops).mp h
  exact .writeCap hc ((State.alignGate_ok s m).mp halign) (State.mmuGate_reach hm hgate)

end Bodies

/-! No CCSR access touches memory. -/

theorem State.readCinit_mem {s t : State} {rd : RegIdx} (h : s.readCinit rd = .next t) : t.mem = s.mem := by
  rcases (State.readCinit_next s t rd).mp h with ⟨-, rfl⟩ | ⟨-, -, rfl⟩
  · rfl
  · exact s.writeReg_mem rd _

theorem State.readCcsr_mem {s t : State} {rd : RegIdx} {n : Imm} (h : s.readCcsr rd n = .next t) : t.mem = s.mem := by
  obtain ⟨r, -, ⟨-, hc⟩ | ⟨-, -, -, -, rfl⟩⟩ := (State.readCcsr_next s t rd n).mp h
  · exact State.readCinit_mem hc
  · simp [State.afterCcsrRead]

theorem State.writeCcsr_mem {s t : State} {n : Imm} {rs1 : RegIdx} (h : s.writeCcsr n rs1 = .next t) : t.mem = s.mem := by
  obtain ⟨r, -, ⟨-, rfl⟩ | ⟨-, -, -, -, v, -, rfl⟩⟩ := (State.writeCcsr_next s t n rs1).mp h
  · rfl
  · simp [State.afterCcsrWrite]

/-- The instructions and the operations they are written over, case by case. -/
theorem exec_memEffect {i : Instr} {s t : State} (h : exec i s = .next t) : MemEffect i.mnemonic s t.mem := by
  cases i with
  | ldd ops => exact .of_mem_eq (State.loadData_mem h)
  | ldw ops => exact .of_mem_eq (State.loadData_mem h)
  | ldh ops => exact .of_mem_eq (State.loadData_mem h)
  | ldb ops => exact .of_mem_eq (State.loadData_mem h)
  | std ops => exact State.storeData_memEffect rfl (by decide) h
  | stw ops => exact State.storeData_memEffect rfl (by decide) h
  | sth ops => exact State.storeData_memEffect rfl (by decide) h
  | stb ops => exact State.storeData_memEffect rfl (by decide) h
  | ldc ops => exact State.loadCap_memEffect rfl h
  | stc ops => exact State.storeCap_memEffect rfl h
  | ldcr ops => exact State.loadCapRaw_memEffect rfl h
  | stcr ops => exact State.storeCapRaw_memEffect rfl h
  | ccsrRead rd n => exact .of_mem_eq (State.readCcsr_mem h)
  | ccsrReadCinit rd => exact .of_mem_eq (State.readCinit_mem h)
  | ccsrWrite n rs1 => exact .of_mem_eq (State.writeCcsr_mem h)
  | ccsrWriteCinit rs1 => exact .of_mem_eq (congrArg State.mem ((next_eq_next s t).mp h))

/-- An address out of an instruction's reach is outside its access, and outside the granule of a capability access. -/
theorem MemEffect.sameAt_of_unreachable {m : Mnemonic} {s : State} {mem : Memory} {j : Nat} (h : MemEffect m s mem)
    (hj : reachOf m s.cfg.variant j 1 = false) : s.mem.sameAt mem j := by
  have houtside {n : Nat} (hreach : reachOf m s.cfg.variant s.sem.addr.toNat n = true) :
      j < s.sem.addr.toNat ∨ s.sem.addr.toNat + n ≤ j := by
    by_contra hin
    have := reachOf_byte (j := j) hreach (by omega) (by omega)
    simp [hj] at this
  have hgranule (halign : s.sem.addr.toNat % clenBytes = 0)
      (hreach : reachOf m s.cfg.variant s.sem.addr.toNat clenBytes = true) :
      j / clenBytes ≠ s.sem.addr.toNat / clenBytes := by
    have := houtside hreach
    simp only [clenBytes] at *
    omega
  cases h with
  | unchanged => exact s.mem.sameAt_refl j
  | write hn hreach hw => exact Memory.sameAt_write hw (houtside hreach)
  | leave halign hreach => exact Memory.sameAt_leave _ (hgranule halign hreach)
  | writeCap hc halign hreach => exact Memory.sameAt_writeCap _ (hgranule halign hreach)

/-- A step of a given instruction changes memory as the instruction does. -/
theorem step_memEffect {s t : State} {c : Cap} {w : InstrWord} {i : Instr} (hf : s.fetch = .ok (c, w))
    (hd : decode s.cfg.enc w = .ok i) (h : step s = .next t) : MemEffect i.mnemonic s t.mem := by
  obtain ⟨c', w', i', u, hf', hd', he, -, rfl⟩ := step_next s t h
  cases hf.symm.trans hf'
  cases hd.symm.trans hd'
  have hu : MemEffect i.mnemonic s u.mem := exec_memEffect he
  exact hu

/-! # The statements about memory -/

/-- Settles O49: an instruction changes memory in its reach only, and in the hybrid variant no address is in both reaches. -/
theorem eachMemoryChangesOnlyByItsInstructions : Obligations.EachMemoryChangesOnlyByItsInstructions := by
  intro s t c w i sbase send hv _ hf hd h j
  have heffect : MemEffect i.mnemonic s t.mem := step_memEffect hf hd h
  refine ⟨fun hi hj => ?_, fun hi hj => ?_⟩
  · refine heffect.sameAt_of_unreachable ?_
    rw [reachOf_not_raw hi, hv, Bool.eq_false_iff, ne_eq, capReach_hybrid]
    omega
  · refine heffect.sameAt_of_unreachable ?_
    rw [reachOf_raw hi, hv, Bool.eq_false_iff, ne_eq, mmuReach_hybrid]
    omega

/-- Settles O13: four raw bytes can be fetched, and each is a byte of the word fetched. -/
theorem instructionWordIsLittleEndian : Obligations.InstructionWordIsLittleEndian := by
  intro m a b0 b1 b2 b3 _ h0 h1 h2 h3
  have hraw : m.fetchWord a ≠ none := by
    obtain ⟨hfirst, -⟩ := Memory.byteAt_eq_some_iff.mp h0
    obtain ⟨hlast, -⟩ := Memory.byteAt_eq_some_iff.mp h3
    simp [Memory.fetchWord_eq_none_iff, Memory.touchesCap, hfirst, hlast]
  obtain ⟨w, hw⟩ := Option.ne_none_iff_exists'.mp hraw
  have hbyte {k : Nat} {b : Byte} (hk : k < 4) (hb : m.byteAt (a + k) = some b) : w.extractLsb' (8 * k) 8 = b :=
    Option.some.inj ((Memory.fetchWord_byteAt hw hk).symm.trans hb)
  exact ⟨w, hw, hbyte (k := 0) (by decide) h0, hbyte (by decide) h1, hbyte (by decide) h2, hbyte (by decide) h3⟩

/-- Settles O14: a write leaves the granules' kinds, so each read of its bytes succeeds. -/
theorem rawReadAfterWrite : Obligations.RawReadAfterWrite := fun _ _ _ _ _ hn h =>
  ⟨Memory.read_after_write h, fun _ hk => Memory.write_byteAt h (by omega) hk, Memory.write_byteAt_other h,
    Memory.write_capAt h⟩

/-- Settles O15: eight bytes lie in one granule or two, those of the first and the last byte. -/
theorem rawAccessOfCapabilityGranuleFails : Obligations.RawAccessOfCapabilityGranuleFails := fun _ _ _ _ h1 hn =>
  have hbytes := Memory.touchesCap_iff h1 (by omega)
  ⟨Memory.read_eq_none_iff.trans hbytes, Memory.write_eq_none_iff.trans hbytes⟩

/-- Settles O16: an aligned granule is the sixteen addresses from its own on. -/
theorem capabilityWriteThenRead : Obligations.CapabilityWriteThenRead := by
  intro m a c halign
  refine ⟨?_, fun k hk => ?_, fun g hg => ?_, fun j hj => ?_⟩
  · rw [Memory.readCap, Memory.writeCap_capAt, if_pos rfl]
  · rw [Memory.writeCap_byteAt, if_pos (by simp only [clenBytes]; omega)]
  · rw [Memory.writeCap_capAt, if_neg hg]
  · rw [Memory.writeCap_byteAt, if_neg (by simp only [clenBytes]; omega)]

/-- Settles O26, each confusion from what the instruction's completion says of the granule, the register or the address. -/
theorem confusedAccessesNeverComplete : Obligations.ConfusedAccessesNeverComplete := by
  refine ⟨fun x hx s t ops k hk hcap h => ?_, fun x hx s t ops c hreg h => ?_, fun s t ops hraw => ?_,
    fun s t ops hodd => ?_, fun s t ops v hreg => ?_⟩
  · have hwidth := dataInstr_width_le hx
    have htouch : s.mem.touchesCap s.sem.addr.toNat x.2.1 = true := Memory.touchesCap_of_byte (by omega) hk hcap
    rcases List.mem_append.mp hx with hload | hstore
    · rw [exec_dataLoad hload] at h
      obtain ⟨-, v, hread, -⟩ := (State.loadData_next s t _ _ ops).mp h
      simp [Memory.read_eq_none_iff.mpr htouch] at hread
    · rw [exec_dataStore hstore] at h
      obtain ⟨-, v, mem, -, hwrite, -⟩ := (State.storeData_next s t _ _ ops).mp h
      simp [Memory.write_eq_none_iff.mpr htouch] at hwrite
  · rw [exec_dataStore hx] at h
    obtain ⟨-, v, mem, hint, -⟩ := (State.storeData_next s t _ _ ops).mp h
    simp [State.xint_of_cap hreg] at hint
  · have hnone (c : Cap) : s.mem.readCap s.sem.addr.toNat ≠ some c := by simp [Memory.readCap, hraw]
    refine ⟨fun h => ?_, fun h => ?_⟩
    · obtain ⟨-, -, c, hc, -⟩ := (State.loadCap_next s t .ldc ops).mp h
      exact hnone c hc
    · obtain ⟨-, -, c, hc, -⟩ := (State.loadCapRaw_next s t .ldcr ops).mp h
      exact hnone c hc
  · have hclosed (m : Mnemonic) : s.alignGate m ≠ .ok () := fun h => hodd ((State.alignGate_ok s m).mp h)
    refine ⟨fun h => ?_, fun h => ?_, fun h => ?_, fun h => ?_⟩
    · obtain ⟨-, halign, -⟩ := (State.loadCap_next s t .ldc ops).mp h
      exact hclosed _ halign
    · obtain ⟨-, halign, -⟩ := (State.storeCap_next s t .stc ops).mp h
      exact hclosed _ halign
    · obtain ⟨-, halign, -⟩ := (State.loadCapRaw_next s t .ldcr ops).mp h
      exact hclosed _ halign
    · obtain ⟨-, halign, -⟩ := (State.storeCapRaw_next s t .stcr ops).mp h
      exact hclosed _ halign
  · have hint (c : Cap) : s.xcap (operandReg ops s.sem.data) ≠ .ok c := by simp [State.xcap_of_int hreg]
    refine ⟨fun h => ?_, fun h => ?_⟩
    · obtain ⟨-, -, c, hc, -⟩ := (State.storeCap_next s t .stc ops).mp h
      exact hint c hc
    · obtain ⟨-, -, c, hc, -⟩ := (State.storeCapRaw_next s t .stcr ops).mp h
      exact hint c hc

/-- Settles O27: the gate of each instruction was open, and its reach is the last thing the gate asks. -/
theorem completedAccessesAreInReach : Obligations.CompletedAccessesAreInReach := by
  refine ⟨fun x hx s t ops h => ?_, fun x hx s t ops h => ?_⟩
  · obtain ⟨-, -, -, hreach⟩ := (State.capGate_ok s _ ops _).mp (capInstr_capGate hx h)
    refine ⟨capReach_le hreach, fun sbase send hv => ?_⟩
    rw [hv] at hreach
    exact (capReach_hybrid sbase send _ _).mp hreach
  · obtain ⟨hmmu, -, -, -, hreach⟩ := (State.mmuGate_ok s _ ops _).mp (rawInstr_mmuGate hx h)
    cases hv : s.cfg.variant with
    | pure => simp [hv, hasMmu] at hmmu
    | hybrid sbase send =>
      rw [hv] at hreach
      exact ⟨sbase, send, rfl, (mmuReach_hybrid sbase send _ _).mp hreach⟩

/-- Settles O11: an aligned word lies in one granule, and a capability there stops the fetch. -/
theorem fetchFromCapabilityGranuleFaults : Obligations.FetchFromCapabilityGranuleFaults := by
  intro s c hpc hcheck hreach
  have halign := fetchCheck_aligned hcheck
  refine ⟨by omega, fun hcap => ?_⟩
  have hnone : s.mem.fetchWord c.cursor.toNat = none :=
    Memory.fetchWord_eq_none_iff.mpr (Memory.touchesCap_of_byte (k := 0) (by decide) (by decide) hcap)
  exact step_of_fetch_error (State.fetch_confusion hpc hcheck hreach hnone)

/-- Settles O52, by running the decoder on each of the fifteen lists of bytes. -/
theorem testWordsDecodeAsListed : Obligations.TestWordsDecodeAsListed :=
  ⟨rfl, rfl, rfl, rfl, rfl, rfl, rfl, rfl, rfl, rfl, rfl, rfl, rfl, rfl, rfl⟩

end Sys2Proof.Machine

/-! SUPPORT. Where the opcode stands in a word, what an instruction's operand form carries and which operand forms a row admits, and
the statements about the encoding settled from them. -/

namespace Sys2Proof

open Machine

/-! # The opcode, and the words that are refused -/

/-- The opcode is the word's low seven bits (R84). -/
theorem opcodeOf_eq_custom2_iff (w : InstrWord) : opcodeOf w = custom2 ↔ w.toNat % 128 = 0x5B := by
  rw [← BitVec.toNat_inj]
  simp [opcodeOf, BitVec.extractLsb'_toNat]

theorem decode_baseIsa (enc : Enc) {w : InstrWord} (h : opcodeOf w ≠ custom2) : decode enc w = .error (.baseIsa w) := by
  simp [decode, h]

theorem decode_unknown {enc : Enc} {w : InstrWord} (hop : opcodeOf w = custom2)
    (hnone : ∀ row ∈ enc, row.matchesWord w = false) : decode enc w = .error (.unknownCustom2 w) := by
  have hfind : enc.find? (fun row => row.matchesWord w) = none := by
    simpa [List.find?_eq_none] using hnone
  simp [decode, hop, hfind]

/-- What the decoder reads, it reads by the first row of `ENC` that matches the word (R90). -/
theorem decode_ok_iff {enc : Enc} {w : InstrWord} {i : Instr} :
    decode enc w = .ok i ↔ opcodeOf w = custom2 ∧ ∃ row, enc.find? (fun row => row.matchesWord w) = some row ∧
      instrOf row.mnem (row.operands w) row.numberAt = i := by
  unfold decode
  split
  · next hop => cases enc.find? (fun row => row.matchesWord w) <;> simp [hop]
  · next hop => simp [hop]

/-- A fetched word the decoder does not read is refused by its name (R91, R92). -/
theorem step_of_decode_error {s : State} {c : Cap} {w : InstrWord} {e : DecodeRefusal} (hf : s.fetch = .ok (c, w))
    (hd : decode s.cfg.enc w = .error e) : step s = .refused (refusalOf e) := by
  simp [step, State.decoded, hf, hd, Stop.outcome]

/-- Settles O12: the decoder asks for the opcode first and for a row of `ENC` second. -/
theorem wordsOutsideEncodingRefused : Obligations.WordsOutsideEncodingRefused := by
  intro s c w hpc hcheck hreach hword
  have hfetch : s.fetch = .ok (c, w) := (State.fetch_ok s c w).mpr ⟨hpc, hcheck, hreach, hword⟩
  refine ⟨fun hop => ?_, fun hop hnone => ?_⟩
  · exact step_of_decode_error hfetch (decode_baseIsa _ (mt (opcodeOf_eq_custom2_iff w).mp hop))
  · exact step_of_decode_error hfetch (decode_unknown ((opcodeOf_eq_custom2_iff w).mpr hop) hnone)

/-- Settles O53, by comparing the rows of each encoding two by two. -/
theorem configuredEncodingsAreUnambiguous : Obligations.ConfiguredEncodingsAreUnambiguous :=
  ⟨by decide, by decide⟩

/-! # The rows of an unambiguous `ENC` -/

theorem Enc.wf_iff (enc : Enc) :
    Enc.wf enc = true ↔ enc.Pairwise (fun a b => a.disjoint b = true) ∧ ∀ row ∈ enc, row.shapeOk = true := by
  simp [Enc.wf]

/-- The row of a name is a row of `ENC`, and has the name. -/
theorem Enc.mem_of_rowOf {enc : Enc} {m : Mnemonic} {row : EncRow} (h : enc.rowOf m = some row) :
    row ∈ enc ∧ row.mnem = m :=
  ⟨List.mem_of_find?_eq_some h, by simpa using List.find?_some h⟩

/-- With one row for each name, a row is the one its name finds. -/
theorem Enc.rowOf_mnem {enc : Enc} {row : EncRow} (hone : enc.Pairwise fun a b => a.mnem ≠ b.mnem) (hm : row ∈ enc) :
    enc.rowOf row.mnem = some row := by
  obtain ⟨row', hrow'⟩ : ∃ row', enc.rowOf row.mnem = some row' :=
    Option.isSome_iff_exists.mp (List.find?_isSome.mpr ⟨row, hm, by simp⟩)
  obtain ⟨hm', hname⟩ := Enc.mem_of_rowOf hrow'
  have hnames : (enc.map EncRow.mnem).Nodup := List.pairwise_map.mpr hone
  rw [hrow', List.inj_on_of_nodup_map hnames hm' hm hname]

theorem Instr.wf_iff (enc : Enc) (i : Instr) :
    i.wf enc = true ↔ ∃ row, enc.rowOf i.mnemonic = some row ∧
      row.accepts (i.formIn row) = true ∧ i.numberOk = true ∧ i.numberFits row = true := by
  unfold Instr.wf
  cases enc.rowOf i.mnemonic <;> simp [and_assoc]

theorem EncRow.shapeOk_ccsrRead {row : EncRow} (h : row.shapeOk = true) (hm : row.mnem = .ccsrRead) : row.numberAt ≠ .rd := by
  intro hrd
  simp [EncRow.shapeOk, hm, hrd] at h

theorem EncRow.shapeOk_ccsrWrite {row : EncRow} (h : row.shapeOk = true) (hm : row.mnem = .ccsrWrite) :
    row.numberAt ≠ .rs1 := by
  intro hrs1
  simp [EncRow.shapeOk, hm, hrs1] at h

/-! # CCSR accesses by their number

`ccsrReadOf` and `ccsrWriteOf` are the CCSR instructions, `cinit`'s own cases included; these are their names, operand forms and
numbers, whichever case it is. -/

section Ccsr
variable (row : EncRow) (rd rs1 : RegIdx) (n : Imm)

@[simp] theorem ccsrReadOf_cinit : ccsrReadOf rd cinitNumber = .ccsrReadCinit rd := if_pos rfl

@[simp] theorem ccsrWriteOf_cinit : ccsrWriteOf cinitNumber rs1 = .ccsrWriteCinit rs1 := if_pos rfl

theorem ccsrReadOf_ne {n : Imm} (h : n ≠ cinitNumber) : ccsrReadOf rd n = .ccsrRead rd n := if_neg h

theorem ccsrWriteOf_ne {n : Imm} (h : n ≠ cinitNumber) : ccsrWriteOf n rs1 = .ccsrWrite n rs1 := if_neg h

@[simp] theorem mnemonic_ccsrReadOf : (ccsrReadOf rd n).mnemonic = .ccsrRead := by
  unfold ccsrReadOf
  split <;> rfl

@[simp] theorem mnemonic_ccsrWriteOf : (ccsrWriteOf n rs1).mnemonic = .ccsrWrite := by
  unfold ccsrWriteOf
  split <;> rfl

@[simp] theorem formIn_ccsrReadOf : (ccsrReadOf rd n).formIn row = row.ccsrForm rd (row.rs1.getD 0) n := by
  by_cases h : n = cinitNumber
  · rw [h, ccsrReadOf_cinit, Instr.formIn]
  · rw [ccsrReadOf_ne rd h, Instr.formIn]

@[simp] theorem formIn_ccsrWriteOf : (ccsrWriteOf n rs1).formIn row = row.ccsrForm (row.rd.getD 0) rs1 n := by
  by_cases h : n = cinitNumber
  · rw [h, ccsrWriteOf_cinit, Instr.formIn]
  · rw [ccsrWriteOf_ne rs1 h, Instr.formIn]

@[simp] theorem numberOk_ccsrReadOf : (ccsrReadOf rd n).numberOk = true := by
  unfold ccsrReadOf
  split <;> simp [Instr.numberOk, *]

@[simp] theorem numberOk_ccsrWriteOf : (ccsrWriteOf n rs1).numberOk = true := by
  unfold ccsrWriteOf
  split <;> simp [Instr.numberOk, *]

/-- `cinit`'s number has room in every field. -/
theorem EncRow.numberFits_cinit : row.numberFits cinitNumber = true := by
  unfold EncRow.numberFits
  split <;> rfl

theorem numberFits_ccsrReadOf {n : Imm} (h : row.numberFits n = true) : (ccsrReadOf rd n).numberFits row = true := by
  unfold ccsrReadOf
  split
  · rfl
  · exact h

theorem numberFits_ccsrWriteOf {n : Imm} (h : row.numberFits n = true) : (ccsrWriteOf n rs1).numberFits row = true := by
  unfold ccsrWriteOf
  split
  · rfl
  · exact h

end Ccsr

/-! # From an instruction to its word and back -/

/-- A CCSR read is read back from its operand form: its number from the field the row says, `rd` from the field of its name. -/
theorem instrOf_ccsrForm_read {row : EncRow} {n : Imm} (rd rs1 : RegIdx) (hat : row.numberAt ≠ .rd)
    (hfits : row.numberFits n = true) : instrOf .ccsrRead (row.ccsrForm rd rs1 n) row.numberAt = ccsrReadOf rd n := by
  rw [instrOf, row.rdField_ccsrForm rd rs1 n hat, row.numberIn_ccsrForm rd rs1 n hfits]

/-- A CCSR write is read back from its operand form. -/
theorem instrOf_ccsrForm_write {row : EncRow} {n : Imm} (rd rs1 : RegIdx) (hat : row.numberAt ≠ .rs1)
    (hfits : row.numberFits n = true) : instrOf .ccsrWrite (row.ccsrForm rd rs1 n) row.numberAt = ccsrWriteOf n rs1 := by
  rw [instrOf, row.rs1Field_ccsrForm rd rs1 n hat, row.numberIn_ccsrForm rd rs1 n hfits]

/-- An instruction is what its name and its operand form say: a load or store carries its operands as they are, and the four CCSR
cases are the two accesses by number. -/
theorem instrOf_formIn {row : EncRow} {i : Instr} (hshape : row.shapeOk = true) (hm : row.mnem = i.mnemonic)
    (hok : i.numberOk = true) (hfits : i.numberFits row = true) :
    instrOf i.mnemonic (i.formIn row) row.numberAt = i := by
  cases i with
  | ccsrRead rd n =>
    calc instrOf .ccsrRead (row.ccsrForm rd (row.rs1.getD 0) n) row.numberAt
        = ccsrReadOf rd n := instrOf_ccsrForm_read rd _ (EncRow.shapeOk_ccsrRead hshape hm) hfits
      _ = .ccsrRead rd n := ccsrReadOf_ne rd (of_decide_eq_true hok)
  | ccsrReadCinit rd =>
    calc instrOf .ccsrRead (row.ccsrForm rd (row.rs1.getD 0) cinitNumber) row.numberAt
        = ccsrReadOf rd cinitNumber :=
          instrOf_ccsrForm_read rd _ (EncRow.shapeOk_ccsrRead hshape hm) row.numberFits_cinit
      _ = .ccsrReadCinit rd := ccsrReadOf_cinit rd
  | ccsrWrite n rs1 =>
    calc instrOf .ccsrWrite (row.ccsrForm (row.rd.getD 0) rs1 n) row.numberAt
        = ccsrWriteOf n rs1 := instrOf_ccsrForm_write _ rs1 (EncRow.shapeOk_ccsrWrite hshape hm) hfits
      _ = .ccsrWrite n rs1 := ccsrWriteOf_ne rs1 (of_decide_eq_true hok)
  | ccsrWriteCinit rs1 =>
    calc instrOf .ccsrWrite (row.ccsrForm (row.rd.getD 0) rs1 cinitNumber) row.numberAt
        = ccsrWriteOf cinitNumber rs1 :=
          instrOf_ccsrForm_write _ rs1 (EncRow.shapeOk_ccsrWrite hshape hm) row.numberFits_cinit
      _ = .ccsrWriteCinit rs1 := ccsrWriteOf_cinit rs1
  | _ => rfl

/-- Settles O50: the word of an instruction matches the row it was made by, which is the only row it matches, and the row reads
the operand form back. -/
theorem decodeReadsBackEveryEncoding : Obligations.DecodeReadsBackEveryEncoding := by
  intro enc i henc hi
  obtain ⟨hdisjoint, hshape⟩ := (Enc.wf_iff enc).mp henc
  obtain ⟨row, hrow, haccepts, hok, hfits⟩ := (Instr.wf_iff enc i).mp hi
  obtain ⟨hmem, hname⟩ := Enc.mem_of_rowOf hrow
  have hop : opcodeOf (row.encode i) = custom2 := by simp [EncRow.encode]
  have hfind : enc.find? (fun r => r.matchesWord (row.encode i)) = some row :=
    find_matchesWord hdisjoint hmem (EncRow.matchesWord_encode haccepts)
  refine ⟨row.encode i, by simp [encode, hrow], (opcodeOf_eq_custom2_iff _).mp hop, ?_⟩
  refine decode_ok_iff.mpr ⟨hop, row, hfind, ?_⟩
  rw [EncRow.operands_encode haccepts, hname]
  exact instrOf_formIn (hshape row hmem) hname hok hfits

/-! # From a word to its instruction and back -/

/-- The row admits this value of the last field: the immediate, or the field `rs2` with its low five bits. -/
def EncRow.lastAgrees (row : EncRow) (last : Imm) : Bool :=
  match row.hi with
  | .r _ frs2 => fixedAgrees frs2 (numberField last)
  | .i fimm => fixedAgrees fimm last

/-- A row admits an operand form field by field. -/
theorem EncRow.accepts_form (row : EncRow) (rd rs1 : RegIdx) (last : Imm) :
    row.accepts (row.form rd rs1 last) = true ↔
      fixedAgrees row.rd rd = true ∧ fixedAgrees row.rs1 rs1 = true ∧ row.lastAgrees last = true := by
  cases hhi : row.hi <;> simp [EncRow.accepts, EncRow.form, EncRow.lastAgrees, hhi, and_assoc]

/-- A form a row admits is the row's form of its own three fields. -/
theorem EncRow.form_fields {row : EncRow} {ops : OperandForm} (h : row.accepts ops = true) :
    row.form ops.rdField ops.rs1Field (ops.numberIn .last) = ops := by
  unfold EncRow.accepts at h
  split at h
  · next hhi => simp [EncRow.form, hhi, OperandForm.rdField, OperandForm.rs1Field, OperandForm.numberIn]
  · next hhi => simp [EncRow.form, hhi, OperandForm.rdField, OperandForm.rs1Field, OperandForm.numberIn]
  · cases h

theorem EncRow.fields_of_accepts {row : EncRow} {ops : OperandForm} (h : row.accepts ops = true) :
    fixedAgrees row.rd ops.rdField = true ∧ fixedAgrees row.rs1 ops.rs1Field = true ∧
      row.lastAgrees (ops.numberIn .last) = true := by
  rw [← row.accepts_form, EncRow.form_fields h]
  exact h

/-- The value a field takes where it is no operand agrees with the row. -/
theorem fixedAgrees_getD {α : Type} [DecidableEq α] (fixed : Option α) (v : α) : fixedAgrees fixed (fixed.getD v) = true := by
  cases fixed <;> simp [fixedAgrees]

theorem EncRow.lastAgrees_lastFixed (row : EncRow) : row.lastAgrees row.lastFixed = true := by
  cases hhi : row.hi <;> simp [EncRow.lastAgrees, EncRow.lastFixed, hhi, fixedAgrees_getD]

/-- A row admits the operands of every word that matches it. -/
theorem EncRow.accepts_operands {row : EncRow} {w : InstrWord} (h : row.matchesWord w = true) :
    row.accepts (row.operands w) = true := by
  cases hhi : row.hi with
  | r f7 frs2 => simp_all [EncRow.matchesWord, HiPattern.accepts, EncRow.accepts, EncRow.operands]
  | i fimm => simp_all [EncRow.matchesWord, HiPattern.accepts, EncRow.accepts, EncRow.operands]

/-- The number an operand form of a row carries has room in the field it was carried in. -/
theorem EncRow.numberFits_numberIn {row : EncRow} {ops : OperandForm} (h : row.accepts ops = true) :
    row.numberFits (ops.numberIn row.numberAt) = true := by
  unfold EncRow.numberFits
  cases row.numberAt with
  | rd => exact decide_eq_true (fieldNumber_lt _)
  | rs1 => exact decide_eq_true (fieldNumber_lt _)
  | last =>
    unfold EncRow.accepts at h
    cases hhi : row.hi with
    | i fimm => rfl
    | r f7 frs2 =>
      cases ops with
      | r rd rs1 rs2 => exact decide_eq_true (fieldNumber_lt rs2)
      | i rd rs1 imm => simp [hhi] at h

/-- The form of the CCSR access an admitted form stands for: the register operand and the number keep their values, the fields that
are no operand take the row's. -/
theorem EncRow.accepts_ccsrForm {row : EncRow} {ops : OperandForm} {rd rs1 : RegIdx} (h : row.accepts ops = true)
    (hrd : fixedAgrees row.rd rd = true) (hrs1 : fixedAgrees row.rs1 rs1 = true) :
    row.accepts (row.ccsrForm rd rs1 (ops.numberIn row.numberAt)) = true := by
  obtain ⟨hrd', hrs1', hlast⟩ := EncRow.fields_of_accepts h
  unfold EncRow.ccsrForm
  cases hat : row.numberAt with
  | last => exact (row.accepts_form ..).mpr ⟨hrd, hrs1, hlast⟩
  | rs1 => exact (row.accepts_form ..).mpr ⟨hrd, by simpa [OperandForm.numberIn] using hrs1', row.lastAgrees_lastFixed⟩
  | rd => exact (row.accepts_form ..).mpr ⟨by simpa [OperandForm.numberIn] using hrd', hrs1, row.lastAgrees_lastFixed⟩

theorem mnemonic_instrOf (m : Mnemonic) (ops : OperandForm) (num : NumberAt) : (instrOf m ops num).mnemonic = m := by
  cases m with
  | ccsrRead => exact mnemonic_ccsrReadOf ..
  | ccsrWrite => exact mnemonic_ccsrWriteOf ..
  | _ => rfl

/-- The instruction of an admitted operand form has an operand form the row admits, stands in the constructor of its own, and its
number fits. -/
theorem instrOf_admitted {row : EncRow} {m : Mnemonic} {ops : OperandForm} (h : row.accepts ops = true) :
    row.accepts ((instrOf m ops row.numberAt).formIn row) = true ∧ (instrOf m ops row.numberAt).numberOk = true ∧
      (instrOf m ops row.numberAt).numberFits row = true := by
  obtain ⟨hrd, hrs1, -⟩ := EncRow.fields_of_accepts h
  have hfits : row.numberFits (ops.numberIn row.numberAt) = true := EncRow.numberFits_numberIn h
  cases m with
  | ccsrRead =>
    rw [instrOf, formIn_ccsrReadOf]
    exact ⟨EncRow.accepts_ccsrForm h hrd (fixedAgrees_getD _ _), numberOk_ccsrReadOf _ _, numberFits_ccsrReadOf _ _ hfits⟩
  | ccsrWrite =>
    rw [instrOf, formIn_ccsrWriteOf]
    exact ⟨EncRow.accepts_ccsrForm h (fixedAgrees_getD _ _) hrs1, numberOk_ccsrWriteOf _ _, numberFits_ccsrWriteOf _ _ hfits⟩
  | _ => exact ⟨h, rfl, rfl⟩

/-- Settles O51: the row the word matched is the row of the instruction's name, and admits the operands it was matched with. -/
theorem decodedInstructionsAreWellFormed : Obligations.DecodedInstructionsAreWellFormed := by
  intro enc w i _ hone hd
  obtain ⟨hop, row, hfind, rfl⟩ := decode_ok_iff.mp hd
  have hrow : enc.rowOf row.mnem = some row := Enc.rowOf_mnem hone (List.mem_of_find?_eq_some hfind)
  have hmatch : row.matchesWord w = true := by simpa using List.find?_some hfind
  refine ⟨(Instr.wf_iff enc _).mpr ⟨row, ?_, instrOf_admitted (EncRow.accepts_operands hmatch)⟩, hop⟩
  rw [mnemonic_instrOf, hrow]

end Sys2Proof

/-! SUPPORT. Where a closed gate stops the loads, the stores and the CCSR accesses, what a completed access through a capability
leaves in the registers, and the statements about the raw accesses through a capability settled from them. -/

namespace Sys2Proof.Machine

open Sys2Proof

/-! # What a completed access does to the registers and to memory -/

section Completion
variable {s t : State} {m : Mnemonic} {n : Nat} {ops : OperandForm}

theorem State.sameMemory_of_mem_eq (h : t.mem = s.mem) : s.sameMemory t := by
  simp [State.sameMemory, h]

/-- A cursor update changes the authorising register alone (R95). -/
theorem State.moveCursor_sameRegsBut (s : State) (i : RegIdx) (a : Option Word) : s.sameRegsBut (s.moveCursor i a) [i] :=
  fun _ hj => s.regCell_moveCursor_other _ _ a (List.ne_of_not_mem_cons hj)

theorem State.moveCursor_none_sameRegsBut (s : State) (i : RegIdx) {a : Option Word} (h : a = none) :
    s.sameRegsBut (s.moveCursor i a) [] := by
  subst h
  exact fun _ _ => rfl

theorem State.afterLoad_xint_rd {v : Word} (h : ops.rdField ≠ 0) : (s.afterLoad ops (.int v)).xint ops.rdField = .ok v :=
  State.xint_of_int (State.regCell_writeReg_same _ _ _ h)

/-- The delivery leaves every register but `x[rd]` as the cursor update left it. -/
theorem State.afterLoad_regCell_of_ne {i : RegIdx} (v : Cell) (h : i ≠ ops.rdField) :
    (s.afterLoad ops v).regCell i = (s.redraw.moveCursor (operandReg ops s.sem.auth) s.sem.cursorAfter).regCell i :=
  State.regCell_writeReg_other _ _ _ v h

theorem State.afterLoad_sameRegsBut (s : State) (ops : OperandForm) (v : Cell) :
    s.sameRegsBut (s.afterLoad ops v) [ops.rdField, operandReg ops s.sem.auth] := by
  intro i hi
  obtain ⟨hrd, hauth⟩ := List.ne_and_not_mem_of_not_mem_cons hi
  rw [State.afterLoad_regCell_of_ne v hrd]
  exact s.redraw.moveCursor_sameRegsBut _ _ i hauth

/-- Where the cursor stays as it is, a load changes its destination alone. -/
theorem State.afterLoad_sameRegsBut_rd (v : Cell) (h : s.sem.cursorAfter = none) :
    s.sameRegsBut (s.afterLoad ops v) [ops.rdField] := by
  intro i hi
  rw [State.afterLoad_regCell_of_ne v (List.ne_of_not_mem_cons hi)]
  exact s.redraw.moveCursor_none_sameRegsBut _ h i List.not_mem_nil

/-- An authorising register that is not the destination keeps its capability but for the cursor. -/
theorem State.afterLoad_regCell_auth {a : Cap} (v : Cell) (hne : operandReg ops s.sem.auth ≠ ops.rdField)
    (ha : s.regCell (operandReg ops s.sem.auth) = some (.cap a)) :
    (s.afterLoad ops v).regCell (operandReg ops s.sem.auth) =
      some (.cap { a with cursor := s.sem.cursorAfter.getD a.cursor }) := by
  rw [State.afterLoad_regCell_of_ne v hne]
  exact s.redraw.regCell_moveCursor_self _ _ a ha

theorem State.canAccess_iff_capGate : s.canAccess m ops n ↔ s.capGate m ops n = .ok () :=
  (State.capGate_ok s m ops n).symm

/-- A load of raw bytes that can be read completes (R95). -/
theorem State.loadData_completes {v : Nat} (hacc : s.canAccess m ops n) (hread : s.mem.read s.sem.addr.toNat n = some v) :
    s.loadData m n ops = .next (s.afterLoad ops (.int (extendLoaded n s.sem.signed v))) :=
  (State.loadData_next s _ m n ops).mpr ⟨State.canAccess_iff_capGate.mp hacc, v, hread, rfl⟩

/-- A store of an integer register onto raw bytes completes (R95). -/
theorem State.storeData_completes {v : Word} {mem : Memory} (hacc : s.canAccess m ops n)
    (hint : s.xint (operandReg ops s.sem.data) = .ok v) (hw : s.mem.write s.sem.addr.toNat n v.toNat = some mem) :
    s.storeData m n ops = .next { s.redraw.moveCursor (operandReg ops s.sem.auth) s.sem.cursorAfter with mem := mem } :=
  (State.storeData_next s _ m n ops).mpr ⟨State.canAccess_iff_capGate.mp hacc, v, mem, hint, hw, rfl⟩

end Completion

/-! # Where a closed gate stops an access -/

section Gates
variable {s : State} {m : Mnemonic} {ops : OperandForm} {e : Stop}

/-- Without `SEM` nothing else of an access is asked (R94). -/
theorem State.authGate_unsupplied (h : s.supplied m = false) :
    s.authGate m ops = .error (.refused (.semNotSupplied m)) := by
  simp [State.authGate, h]

theorem State.authGate_of_int {v : Word} (hsem : s.supplied m = true)
    (hv : s.regCell (operandReg ops s.sem.auth) = some (.int v)) :
    s.authGate m ops = .error (.fault (.regTypeConfusion (operandReg ops s.sem.auth))) := by
  simp [State.authGate, hsem, State.xcap_of_int hv]

/-- An invalid authority, or a lost check that fails (R125, R139). -/
theorem State.authGate_accessCheck {c : Cap} (hsem : s.supplied m = true)
    (hc : s.xcap (operandReg ops s.sem.auth) = .ok c) (hbad : c.valid = false ∨ s.sem.completes = false) :
    s.authGate m ops = .error (.fault (.accessCheck m)) := by
  have hfails : (c.valid && s.sem.completes) = false := Bool.and_eq_false_iff.mpr hbad
  simp [State.authGate, hsem, hc, hfails]

theorem State.mmuGate_unsupplied (n : Nat) (h : s.cfg.variant = .pure ∨ s.supplied m = false) :
    s.mmuGate m ops n = .error (.refused (.semNotSupplied m)) := by
  rcases h with hpure | hsem
  · simp [State.mmuGate, hpure, hasMmu]
  · simp [State.mmuGate, hsem]

theorem State.mmuGate_of_cap {c : Cap} (n : Nat) (hmmu : hasMmu s.cfg.variant = true) (hsem : s.supplied m = true)
    (hc : s.regCell (operandReg ops s.sem.auth) = some (.cap c)) :
    s.mmuGate m ops n = .error (.fault (.regTypeConfusion (operandReg ops s.sem.auth))) := by
  simp [State.mmuGate, hmmu, hsem, State.xint_of_cap hc]

theorem State.mmuGate_accessCheck {v : Word} (n : Nat) (hmmu : hasMmu s.cfg.variant = true) (hsem : s.supplied m = true)
    (hv : s.xint (operandReg ops s.sem.auth) = .ok v) (hfails : s.sem.completes = false) :
    s.mmuGate m ops n = .error (.fault (.accessCheck m)) := by
  simp [State.mmuGate, hmmu, hsem, hv, hfails]

/-- Every access through a capability stops where its authority does: that is the first test of either gate
(notes/assumptions/38.md). -/
theorem exec_of_authGate_error {x : Mnemonic × Nat × (OperandForm → Instr)} (hx : x ∈ capInstrs)
    (h : s.authGate x.1 ops = .error e) : exec (x.2.2 ops) s = e.outcome := by
  have hraw (n : Nat) : s.capGate x.1 ops n = .error e := by simp [State.capGate, firstStop, h]
  have hgranule : s.granuleGate x.1 ops = .error e := by simp [State.granuleGate, firstStop, h]
  simp only [capInstrs, List.mem_append, List.mem_cons, List.not_mem_nil, or_false] at hx
  rcases hx with (hload | hstore) | rfl | rfl
  · simp [exec_dataLoad hload, State.loadData, hraw]
  · simp [exec_dataStore hstore, State.storeData, hraw]
  · simp [exec, execLdc, State.loadCap, hgranule]
  · simp [exec, execStc, State.storeCap, hgranule]

/-- LDCR and STCR stop where the MMU's gate does. -/
theorem exec_of_mmuGate_error {x : Mnemonic × (OperandForm → Instr)} (hx : x ∈ rawInstrs)
    (h : s.mmuGate x.1 ops clenBytes = .error e) : exec (x.2 ops) s = e.outcome := by
  simp only [rawInstrs, List.mem_cons, List.not_mem_nil, or_false] at hx
  rcases hx with rfl | rfl
  · simp [exec, execLdcr, State.loadCapRaw, h]
  · simp [exec, execStcr, State.storeCapRaw, h]

end Gates

/-- A CCSR access its constraint allows is refused where `SEM` is not supplied (R112, R113). -/
theorem State.readCcsr_unsupplied {s : State} {r : AddedReg} {n : Imm} (rd : RegIdx)
    (hn : ccsrNamed s.cfg.variant n = some r) (hcinit : r ≠ .cinit) (hepc : r ≠ .epc) (hr : s.readAllowed r = true)
    (hsem : s.supplied .ccsrRead = false) : s.readCcsr rd n = .refused (.semNotSupplied .ccsrRead) := by
  simp [State.readCcsr, hn, hcinit, hepc, hr, hsem]

theorem State.writeCcsr_unsupplied {s : State} {r : AddedReg} {n : Imm} (rs1 : RegIdx)
    (hn : ccsrNamed s.cfg.variant n = some r) (hcinit : r ≠ .cinit) (hepc : r ≠ .epc) (hw : s.writeAllowed r = true)
    (hsem : s.supplied .ccsrWrite = false) : s.writeCcsr n rs1 = .refused (.semNotSupplied .ccsrWrite) := by
  simp [State.writeCcsr, hn, hcinit, hepc, hw, hsem]

/-! # The statements about the accesses -/

/-- Settles O17: the gate opens where the access can, the bytes are read, and the rest is what the delivery does to the registers. -/
theorem dataLoadsComplete : Obligations.DataLoadsComplete := by
  intro x hx s ops v hacc hread
  have hload := State.loadData_completes hacc hread
  exact ⟨_, (exec_dataLoad hx).trans hload, State.afterLoad_xint_rd, s.afterLoad_sameRegsBut ops _,
    fun _ => State.afterLoad_regCell_auth _, State.afterLoad_sameRegsBut_rd _,
    State.sameMemory_of_mem_eq (State.loadData_mem hload), State.loadData_sameControl hload, by simp [State.afterLoad]⟩

/-- Settles O18: raw granules take the write, whose bytes and frame are those of memory's own law. -/
theorem dataStoresComplete : Obligations.DataStoresComplete := by
  intro x hx s ops v hacc hint hraw
  have hwidth := dataInstr_width_le (List.mem_append_right dataLoads hx)
  have hw : s.mem.write s.sem.addr.toNat x.2.1 v.toNat = some _ := Memory.write_eq_some_iff.mpr ⟨hraw, rfl⟩
  have hstore := State.storeData_completes hacc hint hw
  exact ⟨_, (exec_dataStore hx).trans hstore, fun _ hk => Memory.write_byteAt hw (by omega) hk,
    Memory.write_byteAt_other hw, Memory.write_capAt hw, s.redraw.regCell_moveCursor_self _ _,
    s.redraw.moveCursor_sameRegsBut _ _, s.redraw.moveCursor_none_sameRegsBut _, State.storeData_sameControl hstore,
    by simp⟩

/-- Settles O24: each gate asks for `SEM` before anything else of the operands, a CCSR access after its constraint. -/
theorem withoutSemInstructionsAreRefused : Obligations.WithoutSemInstructionsAreRefused :=
  ⟨fun _ hx _ _ hsem => exec_of_authGate_error hx (State.authGate_unsupplied hsem),
    fun _ hx _ _ hsem => exec_of_mmuGate_error hx (State.mmuGate_unsupplied _ hsem),
    fun _ i _ _ hn hcinit hepc =>
      ⟨State.readCcsr_unsupplied i hn hcinit hepc, State.writeCcsr_unsupplied i hn hcinit hepc⟩⟩

/-- Settles O25: each gate asks for the operand's kind, then for a valid authority and the lost checks. -/
theorem authorityIsChecked : Obligations.AuthorityIsChecked :=
  ⟨fun _ hx _ _ hsem =>
      ⟨fun _ hv => exec_of_authGate_error hx (State.authGate_of_int hsem hv),
        fun _ hc hbad => exec_of_authGate_error hx (State.authGate_accessCheck hsem hc hbad)⟩,
    fun _ hx _ _ hsem hmmu =>
      ⟨fun _ hc => exec_of_mmuGate_error hx (State.mmuGate_of_cap _ hmmu hsem hc),
        fun _ hv hfails => exec_of_mmuGate_error hx (State.mmuGate_accessCheck _ hmmu hsem hv hfails)⟩⟩

end Sys2Proof.Machine

/-! SUPPORT. What a completed load or store of a capability leaves in the registers and in its granule, and the statements about LDC
and STC settled from them. -/

namespace Sys2Proof.Machine

open Sys2Proof

/-! # The granule of an aligned address -/

section Granule
variable {m : Memory} {a j : Nat} {r : MemResidue}

/-- The sixteen addresses from an aligned one on are its granule, so no other address is in it (R64). -/
theorem granule_ne_of_outside (halign : a % 16 = 0) (hj : j < a ∨ a + 16 ≤ j) : j / clenBytes ≠ a / clenBytes := by
  simp only [clenBytes]
  omega

theorem Memory.leave_byteAt_outside (halign : a % 16 = 0) (hj : j < a ∨ a + 16 ≤ j) :
    (m.leave a r).byteAt j = m.byteAt j :=
  m.leave_byteAt_other a r j (granule_ne_of_outside halign hj)

/-- A granule whose capability was moved out to `cnull` holds that and no bytes (R80). -/
theorem Memory.leave_null_granule (halign : a % 16 = 0) (h : r = .null) :
    (m.leave a r).capAt (a / 16) = some cnull ∧ ∀ k, k < 16 → (m.leave a r).byteAt (a + k) = none := by
  subst h
  obtain ⟨hcap, hbytes, -, -⟩ := capabilityWriteThenRead m a cnull halign
  exact ⟨hcap, hbytes⟩

/-- A granule that was cleared holds the free answer's bytes, lowest address first, and no capability. -/
theorem Memory.leave_raw_granule {b : BitVec 128} (halign : a % 16 = 0) (h : r = .raw b) :
    (m.leave a r).capAt (a / 16) = none ∧
      ∀ k, k < 16 → (m.leave a r).byteAt (a + k) = some (BitVec.ofNat 8 (b.toNat / 256 ^ k)) := by
  subst h
  exact ⟨(m.makeRaw_capAt a b _).trans (if_pos rfl), fun k hk => m.makeRaw_byteAt a b k halign hk⟩

end Granule

/-! # Registers after a capability was moved -/

section Registers
variable {s t u : State} {m : Mnemonic} {ops : OperandForm} {c : Cap}

/-- What two updates in a row change is what either changes. -/
theorem State.sameRegsBut_trans {l l' : List RegIdx} (hst : s.sameRegsBut t l) (htu : t.sameRegsBut u l') :
    s.sameRegsBut u (l ++ l') := by
  intro i hi
  obtain ⟨hl, hl'⟩ := not_or.mp (mt List.mem_append.mpr hi)
  exact (htu i hl').trans (hst i hl)

theorem State.leaveReg_sameRegsBut (s : State) (i : RegIdx) (r : Residue) : s.sameRegsBut (s.leaveReg i r) [i] :=
  fun _ hj => s.regCell_leaveReg_other _ _ r (List.ne_of_not_mem_cons hj)

/-- What is left of a moved capability is no matter to another register, nor to its own where the capability stays. -/
theorem State.regCell_leaveReg_of_spared {i j : RegIdx} {r : Residue} (h : j ≠ i ∨ r = .kept) :
    (s.leaveReg i r).regCell j = s.regCell j := by
  rcases h with hne | rfl
  · exact s.regCell_leaveReg_other i j r hne
  · rfl

theorem State.afterLoad_xcap_rd (h : ops.rdField ≠ 0) : (s.afterLoad ops (.cap c)).xcap ops.rdField = .ok c :=
  State.xcap_of_cap (State.regCell_writeReg_same _ _ _ h)

/-- A load of a capability that stands at an aligned address completes (R104, R105). -/
theorem State.loadCap_completes (hacc : s.canAccess m ops 16) (halign : s.sem.addr.toNat % 16 = 0)
    (hcap : s.mem.capAt (s.sem.addr.toNat / 16) = some c) :
    s.loadCap m ops = .next { s.afterLoad ops (.cap c) with mem := s.mem.leave s.sem.addr.toNat s.sem.memLeft } :=
  (State.loadCap_next s _ m ops).mpr
    ⟨State.canAccess_iff_capGate.mp hacc, (State.alignGate_ok s m).mpr halign, c, hcap, rfl⟩

/-- A store of a capability register to an aligned address completes, whatever the granule holds (R104, R106). -/
theorem State.storeCap_completes (hacc : s.canAccess m ops 16) (halign : s.sem.addr.toNat % 16 = 0)
    (hc : s.xcap (operandReg ops s.sem.data) = .ok c) :
    s.storeCap m ops = .next
      { (s.redraw.moveCursor (operandReg ops s.sem.auth) s.sem.cursorAfter).leaveReg (operandReg ops s.sem.data)
          s.sem.regLeft with mem := s.mem.writeCap s.sem.addr.toNat c } :=
  (State.storeCap_next s _ m ops).mpr
    ⟨State.canAccess_iff_capGate.mp hacc, (State.alignGate_ok s m).mpr halign, c, hc, rfl⟩

/-- A completed store leaves its granule with the capability that stood in the data register (R80, R104). -/
theorem State.storeCap_readCap (h : s.storeCap m ops = .next t) :
    ∃ c, s.xcap (operandReg ops s.sem.data) = .ok c ∧ t.mem.readCap s.sem.addr.toNat = some c := by
  obtain ⟨-, halign, c, hc, rfl⟩ := (State.storeCap_next s t m ops).mp h
  obtain ⟨hread, -⟩ := capabilityWriteThenRead s.mem s.sem.addr.toNat c ((State.alignGate_ok s m).mp halign)
  exact ⟨c, hc, hread⟩

/-- A completed load delivers the capability its granule held (R80, R104). -/
theorem State.loadCap_xcap_rd (h : s.loadCap m ops = .next t) (hrd : ops.rdField ≠ 0)
    (hread : s.mem.readCap s.sem.addr.toNat = some c) : t.xcap ops.rdField = .ok c := by
  obtain ⟨-, -, c', hread', rfl⟩ := (State.loadCap_next s t m ops).mp h
  obtain rfl : c = c' := Option.some.inj (hread.symm.trans hread')
  exact State.afterLoad_xcap_rd hrd

end Registers

/-! # The statements about LDC and STC -/

/-- Settles O19: the gate opens where the access can; registers are those of any load, the granule holds what the free answer leaves. -/
theorem loadCapabilityCompletes : Obligations.LoadCapabilityCompletes := by
  intro s ops c hacc halign hcap
  have hload := State.loadCap_completes hacc halign hcap
  exact ⟨_, hload, State.afterLoad_xcap_rd, s.afterLoad_sameRegsBut ops _, fun _ => State.afterLoad_regCell_auth _,
    fun hkept => State.sameMemory_of_mem_eq (by simp [hkept, Memory.leave]),
    Memory.leave_null_granule halign, fun _ => Memory.leave_raw_granule halign,
    fun _ => Memory.leave_byteAt_outside halign, s.mem.leave_capAt_other _ _,
    State.loadCap_sameControl hload, by simp [State.afterLoad]⟩

/-- Settles O20: the granule is as memory's own law for a capability write has it; of the registers, the cursor update changes the
authority, the residue the stored one after it. -/
theorem storeCapabilityCompletes : Obligations.StoreCapabilityCompletes := by
  intro s ops c hacc halign hc
  have hstore := State.storeCap_completes hacc halign hc
  obtain ⟨hcap, hbytes, hcaps, hrest⟩ := capabilityWriteThenRead s.mem s.sem.addr.toNat c halign
  have hmoved := s.redraw.moveCursor_sameRegsBut (operandReg ops s.sem.auth) s.sem.cursorAfter
  refine ⟨_, hstore, hcap, hbytes, hrest, hcaps, State.sameRegsBut_trans hmoved (State.leaveReg_sameRegsBut _ _ _),
    fun a hspared ha => ?auth, fun hkept => ?kept, fun hdata => ⟨fun v hint => ?int, fun hnull => ?null⟩,
    State.storeCap_sameControl hstore, by simp⟩
  case auth => exact (State.regCell_leaveReg_of_spared hspared).trans (s.redraw.regCell_moveCursor_self _ _ a ha)
  case kept => exact fun i hi => (State.regCell_leaveReg_of_spared (.inr hkept)).trans (hmoved i hi)
  case int =>
    rw [hint]
    exact State.regCell_leaveReg_int _ _ v hdata
  case null =>
    rw [hnull]
    exact State.regCell_leaveReg_null _ _ hdata

/-- Settles O23: the store leaves its capability in the granule, which is the one the load reads. -/
theorem storedCapabilityLoadsUnchanged : Obligations.StoredCapabilityLoadsUnchanged := by
  intro s t u ops ops' ans hstc haddr hrd hldc
  obtain ⟨c, hc, hread⟩ := State.storeCap_readCap hstc
  rw [← haddr] at hread
  exact ⟨c, hc, State.loadCap_xcap_rd hldc hrd hread⟩

end Sys2Proof.Machine

/-! SUPPORT. That a capability access by an integer address completes, what it leaves in the registers, and the statements about LDCR
and STCR settled from them. -/

namespace Sys2Proof.Machine

open Sys2Proof

section RawCapability
variable {s : State} {m : Mnemonic} {ops : OperandForm} {c : Cap}

theorem State.canAccessRaw_iff_mmuGate : s.canAccessRaw m ops ↔ s.mmuGate m ops clenBytes = .ok () :=
  (State.mmuGate_ok s m ops clenBytes).symm

/-- A raw load of a capability that stands at an aligned address of the normal memory completes (R107, R108). -/
theorem State.loadCapRaw_completes (hacc : s.canAccessRaw m ops) (halign : s.sem.addr.toNat % 16 = 0)
    (hcap : s.mem.capAt (s.sem.addr.toNat / 16) = some c) :
    s.loadCapRaw m ops =
      .next { s.redraw.writeReg ops.rdField (.cap c) with mem := s.mem.leave s.sem.addr.toNat s.sem.memLeft } :=
  (State.loadCapRaw_next s _ m ops).mpr
    ⟨State.canAccessRaw_iff_mmuGate.mp hacc, (State.alignGate_ok s m).mpr halign, c, hcap, rfl⟩

/-- A raw store of a capability register to an aligned address of the normal memory completes, whatever the granule holds (R107,
R109). -/
theorem State.storeCapRaw_completes (hacc : s.canAccessRaw m ops) (halign : s.sem.addr.toNat % 16 = 0)
    (hc : s.xcap (operandReg ops s.sem.data) = .ok c) :
    s.storeCapRaw m ops = .next
      { s.redraw.leaveReg (operandReg ops s.sem.data) s.sem.regLeft with mem := s.mem.writeCap s.sem.addr.toNat c } :=
  (State.storeCapRaw_next s _ m ops).mpr
    ⟨State.canAccessRaw_iff_mmuGate.mp hacc, (State.alignGate_ok s m).mpr halign, c, hc, rfl⟩

theorem State.writeReg_sameRegsBut (s : State) (i : RegIdx) (v : Cell) : s.sameRegsBut (s.writeReg i v) [i] :=
  fun j hj => s.regCell_writeReg_other i j v (List.ne_of_not_mem_cons hj)

/-- A register that kept its moved capability is as before, and so is every other. -/
theorem State.leaveReg_kept_sameRegsBut (s : State) (i : RegIdx) {r : Residue} (h : r = .kept) :
    s.sameRegsBut (s.leaveReg i r) [] :=
  fun _ _ => State.regCell_leaveReg_of_spared (.inr h)

/-- A register other than `c0` whose capability did not stay holds what the free answer left in it. -/
theorem State.regCell_leaveReg_moved {i : RegIdx} {r : Residue} (hi : i ≠ 0) :
    (∀ v, r = .int v → (s.leaveReg i r).regCell i = some (.int v)) ∧
      (r = .null → (s.leaveReg i r).regCell i = some (.cap cnull)) := by
  refine ⟨fun v hint => ?int, fun hnull => ?null⟩
  case int =>
    subst hint
    exact s.regCell_leaveReg_int i v hi
  case null =>
    subst hnull
    exact s.regCell_leaveReg_null i hi

end RawCapability

/-! # The statements about LDCR and STCR -/

/-- Settles O21: the MMU's gate opens where the raw access can; the destination alone changes, and the granule holds what the free
answer leaves. -/
theorem rawLoadCapabilityCompletes : Obligations.RawLoadCapabilityCompletes := by
  intro s ops c hacc halign hcap
  have hload := State.loadCapRaw_completes hacc halign hcap
  exact ⟨_, hload, fun hrd => State.xcap_of_cap (State.regCell_writeReg_same _ _ _ hrd), s.redraw.writeReg_sameRegsBut _ _,
    fun hkept => State.sameMemory_of_mem_eq (by simp [hkept, Memory.leave]),
    Memory.leave_null_granule halign, fun _ => Memory.leave_raw_granule halign,
    fun _ => Memory.leave_byteAt_outside halign, s.mem.leave_capAt_other _ _,
    State.loadCapRaw_sameControl hload, by simp⟩

/-- Settles O22: the granule is as memory's own law for a capability write has it, and of the registers the residue changes the
stored one alone; the address is an integer, so no authority's cursor moves. -/
theorem rawStoreCapabilityCompletes : Obligations.RawStoreCapabilityCompletes := by
  intro s ops c hacc halign hc
  have hstore := State.storeCapRaw_completes hacc halign hc
  obtain ⟨hcap, hbytes, hcaps, hrest⟩ := capabilityWriteThenRead s.mem s.sem.addr.toNat c halign
  exact ⟨_, hstore, hcap, hbytes, hrest, hcaps, s.redraw.leaveReg_sameRegsBut _ _, s.redraw.leaveReg_kept_sameRegsBut _,
    State.regCell_leaveReg_moved, State.storeCapRaw_sameControl hstore, by simp⟩

end Sys2Proof.Machine

/-! SUPPORT. What a CCSR access that goes on leaves in the CCSRs and in the registers, where one stops, and the statements about the
CCSR accesses settled from them. -/

namespace Sys2Proof.Machine

open Sys2Proof

/-! # The CCSRs a program accesses by number -/

/-- A register a number names has that number; so no CSR and no register without a number is among them (R59). -/
theorem ccsrNamed_number {v : Variant} {n : Imm} {r : AddedReg} (h : ccsrNamed v n = some r) : r.ccsrNumber = some n := by
  have hp := List.find?_some h
  simp only [Bool.and_eq_true, decide_eq_true_eq] at hp
  exact hp.2

/-- The CCSRs R112 and R113 speak of: `cinit` and `epc` have rules of their own (R54, R57). -/
def AddedReg.isPlainCcsr (r : AddedReg) : Prop := r = .ceh ∨ r = .deh ∨ r = .cih ∨ r = .switchCap

theorem ccsrNamed_isPlainCcsr {v : Variant} {n : Imm} {r : AddedReg} (h : ccsrNamed v n = some r) (hcinit : r ≠ .cinit)
    (hepc : r ≠ .epc) : r.isPlainCcsr := by
  have hnum := ccsrNamed_number h
  cases r <;> simp_all [AddedReg.ccsrNumber, AddedReg.isPlainCcsr]

section Content
variable {s t : State} {r : AddedReg} {v : Cell}

/-- A CCSR holds what was written to it, `switch_cap` where that is a capability (R48). -/
theorem State.getCcsr_setCcsr (s : State) (hr : r.isPlainCcsr)
    (hv : r = .switchCap → v.isCap = true) : (s.setCcsr r v).getCcsr r = v := by
  rcases hr with rfl | rfl | rfl | rfl
  · rfl
  · rfl
  · rfl
  · cases v with
    | int w => exact nomatch hv rfl
    | cap c => rfl

theorem State.getCcsr_setCcsr_switchCap_int (s : State) (w : Word) :
    (s.setCcsr .switchCap (.int w)).getCcsr .switchCap = .cap cnull := rfl

/-- A register write is no matter to a CCSR. -/
@[simp] theorem State.getCcsr_writeReg (s : State) (i : RegIdx) (v : Cell) (r : AddedReg) :
    (s.writeReg i v).getCcsr r = s.getCcsr r := by
  cases r <;> simp [State.getCcsr]

theorem State.leaveCcsr_ceh_of_ne (s : State) (l : Residue) (h : r ≠ .ceh) : (s.leaveCcsr r l).ceh = s.ceh := by
  cases l <;> simp [State.leaveCcsr, State.setCcsr_ceh, h]

theorem State.leaveCcsr_deh_of_ne (s : State) (l : Residue) (h : r ≠ .deh) : (s.leaveCcsr r l).deh = s.deh := by
  cases l <;> simp [State.leaveCcsr, State.setCcsr_deh, h]

theorem State.leaveCcsr_switchCap_of_ne (s : State) (l : Residue) (h : r ≠ .switchCap) :
    (s.leaveCcsr r l).switchCap = s.switchCap := by
  cases l <;> simp [State.leaveCcsr, State.setCcsr_switchCap, h]

/-- An integer is copied, and so is a capability the free answer keeps. -/
theorem residueOf_eq_kept {left : Residue} (h : v.isCap = false ∨ left = .kept) : residueOf v left = .kept := by
  cases v with
  | int w => rfl
  | cap c => exact h.resolve_left (by simp [Cell.isCap])

/-! # Constraints that carry over -/

/-- The constraints ask for the variant, the world and `cih` alone (R51 to R56). -/
theorem State.readAllowed_congr (hcfg : t.cfg = s.cfg) (hw : t.cwrld = s.cwrld) (hcih : t.cih = s.cih) (r : AddedReg) :
    t.readAllowed r = s.readAllowed r := by
  cases r <;> simp [State.readAllowed, State.pureOrSecure, State.hybridNormal, State.pureOrNormal, hcfg, hw, hcih]

/-- A CCSR that may be read may be written, but for `cinit` (R51 to R56). -/
theorem State.writeAllowed_of_readAllowed (hcinit : r ≠ .cinit) (h : s.readAllowed r = true) : s.writeAllowed r = true := by
  cases r with
  | ceh | deh | switchCap | cis => exact h
  | cinit => exact absurd rfl hcinit
  | cih | epc | tval | cause | cwrld | normalPc | normalSp | switchReg | exitReg => exact nomatch h

theorem State.readAllowed_ne_cih (h : s.readAllowed r = true) : r ≠ .cih := by
  rintro rfl
  exact nomatch h

/-! # The frame of a CCSR access -/

/-- Nothing changed but the CCSR `r`, the registers and the free answer. -/
def State.onlyCcsr (s t : State) (r : AddedReg) : Prop :=
  (r ≠ .ceh → t.ceh = s.ceh) ∧ (r ≠ .deh → t.deh = s.deh) ∧ (r ≠ .cih → t.cih = s.cih) ∧
  (r ≠ .switchCap → t.switchCap = s.switchCap) ∧ s.sameMemory t ∧ s.sameBackground t ∧ t.cinitRead = s.cinitRead ∧ t.pc = s.pc

theorem State.onlyCcsr_trans {u : State} (hst : s.onlyCcsr t r) (htu : t.onlyCcsr u r) : s.onlyCcsr u r := by
  simp_all [State.onlyCcsr, State.sameMemory, State.sameBackground]

theorem State.afterCcsrRead_onlyCcsr (s : State) (rd : RegIdx) (r : AddedReg) : s.onlyCcsr (s.afterCcsrRead rd r) r := by
  refine ⟨fun h => ?_, fun h => ?_, fun h => ?_, fun h => ?_, State.sameMemory_of_mem_eq ?_,
    s.afterCcsrRead_sameBackground rd r, ?_, ?_⟩
  · simp [State.afterCcsrRead, State.leaveCcsr_ceh_of_ne _ _ h]
  · simp [State.afterCcsrRead, State.leaveCcsr_deh_of_ne _ _ h]
  · simp [State.afterCcsrRead, State.leaveCcsr_cih_of_ne _ _ _ h]
  · simp [State.afterCcsrRead, State.leaveCcsr_switchCap_of_ne _ _ h]
  all_goals simp [State.afterCcsrRead]

theorem State.afterCcsrWrite_onlyCcsr (s : State) (r : AddedReg) (rs1 : RegIdx) (v : Cell) :
    s.onlyCcsr (s.afterCcsrWrite r rs1 v) r := by
  refine ⟨fun h => ?_, fun h => ?_, fun h => ?_, fun h => ?_, State.sameMemory_of_mem_eq ?_,
    s.afterCcsrWrite_sameBackground r rs1 v, ?_, ?_⟩
  · simp [State.afterCcsrWrite, State.setCcsr_ceh, h]
  · simp [State.afterCcsrWrite, State.setCcsr_deh, h]
  · simp [State.afterCcsrWrite, State.setCcsr_cih, h]
  · simp [State.afterCcsrWrite, State.setCcsr_switchCap, h]
  all_goals simp [State.afterCcsrWrite]

/-! # What a CCSR read leaves -/

theorem State.afterCcsrRead_cfg (s : State) (rd : RegIdx) (r : AddedReg) : (s.afterCcsrRead rd r).cfg = s.cfg := by
  simp [State.afterCcsrRead]

theorem State.afterCcsrRead_sem (s : State) (rd : RegIdx) (r : AddedReg) : (s.afterCcsrRead rd r).sem = s.redraw.sem := by
  simp [State.afterCcsrRead]

/-- The residue lies in the CCSR, so of the registers the delivery changes `x[rd]` alone (R112). -/
theorem State.afterCcsrRead_regCell_of_ne {rd i : RegIdx} (r : AddedReg) (h : i ≠ rd) :
    (s.afterCcsrRead rd r).regCell i = s.regCell i := by
  simp [State.afterCcsrRead, h]

theorem State.afterCcsrRead_regCell_rd {rd : RegIdx} (r : AddedReg) (h : rd ≠ 0) :
    (s.afterCcsrRead rd r).regCell rd = some (s.getCcsr r) :=
  State.regCell_writeReg_same _ _ _ h

theorem State.afterCcsrRead_sameRegsBut (s : State) (rd : RegIdx) (r : AddedReg) :
    s.sameRegsBut (s.afterCcsrRead rd r) [rd] :=
  fun _ hi => State.afterCcsrRead_regCell_of_ne r (List.ne_of_not_mem_cons hi)

/-- A read of an integer, or of a capability that stays, changes no CCSR. -/
theorem State.afterCcsrRead_sameCcsrs (rd : RegIdx) (h : (s.getCcsr r).isCap = false ∨ s.sem.regLeft = .kept) :
    s.sameCcsrs (s.afterCcsrRead rd r) := by
  simp [State.sameCcsrs, State.afterCcsrRead, residueOf_eq_kept h]

/-- The CCSR holds what the free answer left in it; `switch_cap` holds capabilities only (notes/assumptions/9.md, 25.md). -/
theorem State.afterCcsrRead_getCcsr_moved {c : Cap} (rd : RegIdx) (hr : r.isPlainCcsr)
    (hc : s.getCcsr r = .cap c) :
    (∀ w, s.sem.regLeft = .int w →
      (s.afterCcsrRead rd r).getCcsr r = if r = .switchCap then .cap cnull else .int w) ∧
    (s.sem.regLeft = .null → (s.afterCcsrRead rd r).getCcsr r = .cap cnull) := by
  have hleft : (s.afterCcsrRead rd r).getCcsr r = (s.redraw.leaveCcsr r s.sem.regLeft).getCcsr r := by
    simp [State.afterCcsrRead, hc, residueOf]
  refine ⟨fun w hint => ?int, fun hnull => ?null⟩
  case int =>
    rw [hleft, hint]
    split
    · next hsw =>
      subst hsw
      exact s.redraw.getCcsr_setCcsr_switchCap_int w
    · next hsw => exact s.redraw.getCcsr_setCcsr hr (absurd · hsw)
  case null =>
    rw [hleft, hnull]
    exact s.redraw.getCcsr_setCcsr hr fun _ => rfl

/-! # What a CCSR write takes and leaves -/

/-- The registers after a write hold what the move out of `x[rs1]` left in them. -/
theorem State.afterCcsrWrite_regCell (s : State) (r : AddedReg) (rs1 i : RegIdx) (v : Cell) :
    (s.afterCcsrWrite r rs1 v).regCell i = (s.redraw.leaveReg rs1 (residueOf v s.sem.regLeft)).regCell i :=
  State.setCcsr_regCell _ _ _ _

/-- A write is no matter to another register, nor to its source where that holds an integer or keeps its capability. -/
theorem State.afterCcsrWrite_regCell_of_spared {rs1 i : RegIdx} (r : AddedReg)
    (h : i ≠ rs1 ∨ v.isCap = false ∨ s.sem.regLeft = .kept) : (s.afterCcsrWrite r rs1 v).regCell i = s.regCell i :=
  (s.afterCcsrWrite_regCell r rs1 i v).trans (State.regCell_leaveReg_of_spared (h.imp_right residueOf_eq_kept))

theorem State.afterCcsrWrite_sameRegsBut (s : State) (r : AddedReg) (rs1 : RegIdx) (v : Cell) :
    s.sameRegsBut (s.afterCcsrWrite r rs1 v) [rs1] :=
  fun _ hi => State.afterCcsrWrite_regCell_of_spared r (.inl (List.ne_of_not_mem_cons hi))

theorem State.afterCcsrWrite_kept_sameRegsBut {rs1 : RegIdx} (r : AddedReg)
    (h : v.isCap = false ∨ s.sem.regLeft = .kept) : s.sameRegsBut (s.afterCcsrWrite r rs1 v) [] :=
  fun _ _ => State.afterCcsrWrite_regCell_of_spared r (.inr h)

/-- A source other than `c0` whose capability did not stay holds what the free answer left in it (notes/assumptions/9.md). -/
theorem State.afterCcsrWrite_regCell_moved {rs1 : RegIdx} {c : Cap} (r : AddedReg) (h0 : rs1 ≠ 0) (hv : v = .cap c) :
    (∀ w, s.sem.regLeft = .int w → (s.afterCcsrWrite r rs1 v).regCell rs1 = some (.int w)) ∧
    (s.sem.regLeft = .null → (s.afterCcsrWrite r rs1 v).regCell rs1 = some (.cap cnull)) := by
  subst hv
  rw [State.afterCcsrWrite_regCell]
  exact State.regCell_leaveReg_moved h0

theorem State.afterCcsrWrite_getCcsr (s : State) (rs1 : RegIdx) (hr : r.isPlainCcsr)
    (hv : r = .switchCap → v.isCap = true) : (s.afterCcsrWrite r rs1 v).getCcsr r = v :=
  State.getCcsr_setCcsr _ hr hv

/-! The source of a write. -/

theorem State.ccsrSource_of_ne_switchCap (s : State) (rs1 : RegIdx) (h : r ≠ .switchCap) :
    s.ccsrSource r rs1 = .ok (s.content rs1 s.sem.x0AsCap) := if_neg h

theorem State.ccsrSource_switchCap_of_xcap {rs1 : RegIdx} {c : Cap} (h : s.xcap rs1 = .ok c) :
    s.ccsrSource .switchCap rs1 = .ok (.cap c) := by
  simp [State.ccsrSource, h]

theorem State.ccsrSource_switchCap_of_int {rs1 : RegIdx} {w : Word} (h : s.regCell rs1 = some (.int w)) :
    s.ccsrSource .switchCap rs1 = .error (.regTypeConfusion rs1) := by
  simp [State.ccsrSource, State.xcap_of_int h]

/-- What `switch_cap` takes is a capability (notes/assumptions/25.md). -/
theorem State.isCap_of_ccsrSource_switchCap {rs1 : RegIdx} (h : s.ccsrSource .switchCap rs1 = .ok v) : v.isCap = true := by
  cases hc : s.xcap rs1 with
  | error f => simp [State.ccsrSource, hc] at h
  | ok c =>
    rw [State.ccsrSource_switchCap_of_xcap hc] at h
    cases h
    rfl

/-- A register other than `x0` gives what it holds, to `switch_cap` where that is a capability. -/
theorem State.ccsrSource_of_regCell {rs1 : RegIdx} (h : s.regCell rs1 = some v) (hv : r = .switchCap → v.isCap = true) :
    s.ccsrSource r rs1 = .ok v := by
  by_cases hsw : r = .switchCap
  · subst hsw
    cases v with
    | int w => exact nomatch hv rfl
    | cap c => exact State.ccsrSource_switchCap_of_xcap (State.xcap_of_cap h)
  · simp [State.ccsrSource_of_ne_switchCap s rs1 hsw, State.content, h]

/-- The source depends on its register and on the free answer alone. -/
theorem State.ccsrSource_congr {rs1 : RegIdx} (r : AddedReg) (hreg : t.regCell rs1 = s.regCell rs1) (hsem : t.sem = s.sem) :
    t.ccsrSource r rs1 = s.ccsrSource r rs1 := by
  simp only [State.ccsrSource, State.xcap, State.content, hreg, hsem]

end Content

/-! # Where a CCSR access goes on, and where it stops -/

section Outcomes
variable {s u : State} {n : Imm} {r : AddedReg}

theorem State.ccsr_unnamed (i : RegIdx) (h : ccsrNamed s.cfg.variant n = none) :
    s.readCcsr i n = .refused (.unknownCustom2 (.ccsrNumber n)) ∧
    s.writeCcsr n i = .refused (.unknownCustom2 (.ccsrNumber n)) := by
  simp [State.readCcsr, State.writeCcsr, h]

theorem State.ccsr_epc (i : RegIdx) (h : ccsrNamed s.cfg.variant n = some .epc) :
    s.readCcsr i n = .refused (.csrAccessNotInSource .epc) ∧ s.writeCcsr n i = .refused (.csrAccessNotInSource .epc) := by
  simp [State.readCcsr, State.writeCcsr, h]

/-- At `cinit`'s number an access is the one of `cinit`'s own rules (R114, R115). -/
theorem State.ccsr_cinit (i : RegIdx) (h : ccsrNamed s.cfg.variant n = some .cinit) :
    s.readCcsr i n = s.readCinit i ∧ s.writeCcsr n i = .next s := by
  simp [State.readCcsr, State.writeCcsr, State.writeCinit, h]

theorem State.readCinit_first (rd : RegIdx) (hfirst : s.cinitRead = false) (h : s.readAllowed .cinit = true) :
    s.readCinit rd = .next { s.writeReg rd (.cap s.cinit) with cinitRead := true } :=
  (State.readCinit_next s _ rd).mpr (.inr ⟨hfirst, h, rfl⟩)

theorem State.readCinit_closed (rd : RegIdx) (hfirst : s.cinitRead = false) (h : s.readAllowed .cinit = false) :
    s.readCinit rd = .fault (.ccsrConstraint .cinit .read) := by
  simp [State.readCinit, hfirst, h]

theorem State.readAllowed_cinit (h : s.cfg.variant = .pure ∨ s.cwrld = .normal) : s.readAllowed .cinit = true := by
  cases hv : s.cfg.variant with
  | pure => simp [State.readAllowed, State.pureOrNormal, hv]
  | hybrid sbase send => simpa [State.readAllowed, State.pureOrNormal, hv] using h

theorem State.readAllowed_cinit_secure {sbase : Word} {send : EndAddr} (hv : s.cfg.variant = .hybrid sbase send)
    (hw : s.cwrld = .secure) : s.readAllowed .cinit = false := by
  simp [State.readAllowed, State.pureOrNormal, hv, hw]

section Named
variable (hn : ccsrNamed s.cfg.variant n = some r) (hcinit : r ≠ .cinit) (hepc : r ≠ .epc)
include hn hcinit hepc

theorem State.readCcsr_completes (rd : RegIdx) (hr : s.readAllowed r = true) (hsem : s.supplied .ccsrRead = true) :
    s.readCcsr rd n = .next (s.afterCcsrRead rd r) :=
  (State.readCcsr_next s _ rd n).mpr ⟨r, hn, .inr ⟨hcinit, hepc, hr, hsem, rfl⟩⟩

theorem State.writeCcsr_completes {rs1 : RegIdx} {v : Cell} (hw : s.writeAllowed r = true)
    (hsem : s.supplied .ccsrWrite = true) (hv : s.ccsrSource r rs1 = .ok v) :
    s.writeCcsr n rs1 = .next (s.afterCcsrWrite r rs1 v) :=
  (State.writeCcsr_next s _ n rs1).mpr ⟨r, hn, .inr ⟨hcinit, hepc, hw, hsem, v, hv, rfl⟩⟩

theorem State.readCcsr_closed (rd : RegIdx) (hr : s.readAllowed r = false) :
    s.readCcsr rd n = .fault (.ccsrConstraint r .read) := by
  simp [State.readCcsr, hn, hcinit, hepc, hr]

theorem State.writeCcsr_closed (rs1 : RegIdx) (hw : s.writeAllowed r = false) :
    s.writeCcsr n rs1 = .fault (.ccsrConstraint r .write) := by
  simp [State.writeCcsr, hn, hcinit, hepc, hw]

theorem State.writeCcsr_source_error {rs1 : RegIdx} {f : Fault} (hw : s.writeAllowed r = true)
    (hsem : s.supplied .ccsrWrite = true) (hf : s.ccsrSource r rs1 = .error f) : s.writeCcsr n rs1 = .fault f := by
  simp [State.writeCcsr, hn, hcinit, hepc, hw, hsem, hf]

end Named

/-! # The combined access, part by part -/

section Parts
variable {rd rs1 : RegIdx}

theorem State.combinedCcsr_of_read_next (h : s.readCcsr rd n = .next u) : s.combinedCcsr rd n rs1 = u.writeCcsr n rs1 := by
  simp [State.combinedCcsr, h]

theorem State.combinedCcsr_of_read_fault {f : Fault} (h : s.readCcsr rd n = .fault f) : s.combinedCcsr rd n rs1 = .fault f := by
  simp [State.combinedCcsr, h]

theorem State.combinedCcsr_of_read_refused {q : Refusal} (h : s.readCcsr rd n = .refused q) :
    s.combinedCcsr rd n rs1 = .refused q := by
  simp [State.combinedCcsr, h]

/-- Where the read part was allowed, the write part is (R51 to R55). -/
theorem State.afterCcsrRead_writeAllowed (rd : RegIdx) (hcinit : r ≠ .cinit) (h : s.readAllowed r = true) :
    (s.afterCcsrRead rd r).writeAllowed r = true := by
  obtain ⟨-, -, hcih, -, -, ⟨hcfg, -, -, -, -, -, hwrld, -⟩, -⟩ := s.afterCcsrRead_onlyCcsr rd r
  refine State.writeAllowed_of_readAllowed hcinit ?_
  rw [State.readAllowed_congr hcfg hwrld (hcih (State.readAllowed_ne_cih h)), h]

/-- The write part takes the value just read where its source is the destination, else what the source held
(notes/assumptions/40.md). -/
theorem State.ccsrSource_afterCcsrRead {v : Cell}
    (hv : (rs1 = rd ∧ rd ≠ 0 ∧ v = s.getCcsr r) ∨ ((rs1 ≠ rd ∨ rd = 0) ∧ s.redraw.ccsrSource r rs1 = .ok v)) :
    (s.afterCcsrRead rd r).ccsrSource r rs1 = .ok v := by
  rcases hv with ⟨rfl, h0, rfl⟩ | ⟨hapart, hv⟩
  · refine State.ccsrSource_of_regCell (State.afterCcsrRead_regCell_rd r h0) ?_
    rintro rfl
    rfl
  · have hreg : (s.afterCcsrRead rd r).regCell rs1 = s.redraw.regCell rs1 := by
      rcases hapart with hne | rfl
      · exact State.afterCcsrRead_regCell_of_ne r hne
      · simp [State.afterCcsrRead]
    rw [State.ccsrSource_congr r hreg (s.afterCcsrRead_sem rd r), hv]

section Named
variable (hn : ccsrNamed s.cfg.variant n = some r) (hcinit : r ≠ .cinit) (hepc : r ≠ .epc)
  (hr : s.readAllowed r = true) (hread : s.supplied .ccsrRead = true)
include hn hcinit hepc hr hread

/-- Past the read part, the write part's tests have the outcome they had before it. -/
theorem State.combinedCcsr_eq_writeCcsr :
    s.combinedCcsr rd n rs1 = (s.afterCcsrRead rd r).writeCcsr n rs1 ∧
    ccsrNamed (s.afterCcsrRead rd r).cfg.variant n = some r ∧ (s.afterCcsrRead rd r).writeAllowed r = true ∧
    (s.afterCcsrRead rd r).supplied .ccsrWrite = s.supplied .ccsrWrite := by
  rw [State.supplied, State.afterCcsrRead_cfg]
  exact ⟨State.combinedCcsr_of_read_next (State.readCcsr_completes hn hcinit hepc rd hr hread), hn,
    State.afterCcsrRead_writeAllowed rd hcinit hr, rfl⟩

theorem State.combinedCcsr_completes {v : Cell} (hwrite : s.supplied .ccsrWrite = true)
    (hv : (s.afterCcsrRead rd r).ccsrSource r rs1 = .ok v) :
    s.combinedCcsr rd n rs1 = .next ((s.afterCcsrRead rd r).afterCcsrWrite r rs1 v) := by
  obtain ⟨hparts, hn', hw, hsem⟩ := State.combinedCcsr_eq_writeCcsr (rd := rd) (rs1 := rs1) hn hcinit hepc hr hread
  exact hparts.trans (State.writeCcsr_completes hn' hcinit hepc hw (hsem.trans hwrite) hv)

theorem State.combinedCcsr_write_unsupplied (hwrite : s.supplied .ccsrWrite = false) :
    s.combinedCcsr rd n rs1 = .refused (.semNotSupplied .ccsrWrite) := by
  obtain ⟨hparts, hn', hw, hsem⟩ := State.combinedCcsr_eq_writeCcsr (rd := rd) (rs1 := rs1) hn hcinit hepc hr hread
  exact hparts.trans (State.writeCcsr_unsupplied rs1 hn' hcinit hepc hw (hsem.trans hwrite))

theorem State.combinedCcsr_source_error {f : Fault} (hwrite : s.supplied .ccsrWrite = true)
    (hf : (s.afterCcsrRead rd r).ccsrSource r rs1 = .error f) : s.combinedCcsr rd n rs1 = .fault f := by
  obtain ⟨hparts, hn', hw, hsem⟩ := State.combinedCcsr_eq_writeCcsr (rd := rd) (rs1 := rs1) hn hcinit hepc hr hread
  exact hparts.trans (State.writeCcsr_source_error hn' hcinit hepc hw (hsem.trans hwrite) hf)

end Named

end Parts

end Outcomes

/-! # The statements about the CCSR accesses -/

/-- Settles O28: the read is the first and its world is the right one, so it goes on; the rest is the write of `x[rd]`. -/
theorem firstCinitReadDelivers : Obligations.FirstCinitReadDelivers := by
  intro s rd hfirst hworld
  have hread := State.readCinit_first rd hfirst (State.readAllowed_cinit hworld)
  refine ⟨hread, fun hrd => ?_, fun j hj => s.regCell_writeReg_other rd j _ hj, ?_⟩
  · exact State.xcap_of_cap (s.regCell_writeReg_same rd _ hrd)
  · rintro rfl
    exact hread

/-- Settles O30: the secure world is not the one `cinit` is read in. -/
theorem secureWorldFirstCinitReadFaults : Obligations.SecureWorldFirstCinitReadFaults :=
  fun _ rd _ _ hv hw hfirst => State.readCinit_closed rd hfirst (State.readAllowed_cinit_secure hv hw)

/-- Settles O31: the write is no operation, so the advance of `pc` is all there is. -/
theorem cinitWriteStepsAsNoOperation : Obligations.CinitWriteStepsAsNoOperation := by
  intro s c w rs1 hf hd hlt
  have hexec : exec (.ccsrWriteCinit rs1) s = .next s := (cinitWriteAndLaterReadIgnored s rs1).1
  rw [step_of_exec_next hf hd hexec]
  exact (State.advancePc_next s _ c).mpr ⟨hlt, rfl⟩

/-- Settles O36, by the register the number names. -/
theorem forbiddenCcsrAccessesStop : Obligations.ForbiddenCcsrAccessesStop := fun _ _ i =>
  ⟨fun _ hn hcinit hepc =>
      ⟨State.readCcsr_closed hn hcinit hepc i, State.writeCcsr_closed hn hcinit hepc i⟩,
    State.ccsr_epc i, State.ccsr_unnamed i⟩

/-- Settles O32: the delivery changes `x[rd]`, the residue the CCSR. -/
theorem ccsrReadDeliversContent : Obligations.CcsrReadDeliversContent := by
  intro s rd n r hn hcinit hepc hr hsem
  obtain ⟨hceh, hdeh, hcih, hswitch, hframe⟩ := s.afterCcsrRead_onlyCcsr rd r
  exact ⟨_, State.readCcsr_completes hn hcinit hepc rd hr hsem, State.afterCcsrRead_regCell_rd r,
    s.afterCcsrRead_sameRegsBut rd r, State.afterCcsrRead_sameCcsrs rd,
    fun _ => State.afterCcsrRead_getCcsr_moved rd (ccsrNamed_isPlainCcsr hn hcinit hepc),
    hceh, hdeh, hcih (State.readAllowed_ne_cih hr), hswitch, hframe⟩

/-- Settles O33: the write changes the CCSR, the residue the source. -/
theorem ccsrWriteStoresContent : Obligations.CcsrWriteStoresContent := by
  intro s rs1 n r hn hcinit hepc hne hw hsem
  obtain ⟨hceh, hdeh, hcih, hswitch, hframe⟩ := s.afterCcsrWrite_onlyCcsr r rs1 (s.content rs1 s.sem.x0AsCap)
  exact ⟨_, State.writeCcsr_completes hn hcinit hepc hw hsem (s.ccsrSource_of_ne_switchCap rs1 hne),
    s.afterCcsrWrite_getCcsr rs1 (ccsrNamed_isPlainCcsr hn hcinit hepc) (absurd · hne),
    s.afterCcsrWrite_sameRegsBut r rs1 _, State.afterCcsrWrite_kept_sameRegsBut r,
    fun _ => State.afterCcsrWrite_regCell_moved r, hceh, hdeh, hcih, hswitch hne, hframe⟩

/-- Settles O34: the hybrid variant's normal world may write `switch_cap`, so its source decides. -/
theorem switchCapTakesCapabilities : Obligations.SwitchCapTakesCapabilities := by
  intro s rs1 sbase send hv hworld hsem
  have hn : ccsrNamed s.cfg.variant 5#12 = some .switchCap := by rw [hv]; rfl
  have hw : s.writeAllowed .switchCap = true := by simp [State.writeAllowed, State.hybridNormal_hybrid hv, hworld]
  refine ⟨fun c hc => ?_, fun v hint => ?_⟩
  · obtain ⟨hceh, hdeh, hcih, -, hframe⟩ := s.afterCcsrWrite_onlyCcsr .switchCap rs1 (.cap c)
    exact ⟨_, State.writeCcsr_completes hn (by decide) (by decide) hw hsem (State.ccsrSource_switchCap_of_xcap hc), rfl,
      s.afterCcsrWrite_sameRegsBut .switchCap rs1 _, fun hkept => State.afterCcsrWrite_kept_sameRegsBut _ (.inr hkept),
      fun h0 => State.afterCcsrWrite_regCell_moved _ h0 rfl, hceh (by decide), hdeh (by decide), hcih (by decide), hframe⟩
  · exact State.writeCcsr_source_error hn (by decide) (by decide) hw hsem (State.ccsrSource_switchCap_of_int hint)

/-- Settles O37: the state after both parts is the write part's of the state the read part left, and each part has its own frame. -/
theorem combinedCcsrReadsThenWrites : Obligations.CombinedCcsrReadsThenWrites := by
  refine ⟨?completes, ?stops, ?cinit, ?refused⟩
  case completes =>
    intro s rd rs1 n r v hn hcinit hepc hr hread hwrite hv
    have hsource := State.ccsrSource_afterCcsrRead hv
    set u := s.afterCcsrRead rd r
    have hsem : u.sem = s.redraw.sem := s.afterCcsrRead_sem rd r
    have hregs : s.sameRegsBut u [rd] := s.afterCcsrRead_sameRegsBut rd r
    obtain ⟨hceh, hdeh, hcih, hswitch, hframe⟩ :=
      State.onlyCcsr_trans (s.afterCcsrRead_onlyCcsr rd r) (u.afterCcsrWrite_onlyCcsr r rs1 v)
    refine ⟨_, State.combinedCcsr_completes hn hcinit hepc hr hread hwrite hsource, ?content,
      State.sameRegsBut_trans hregs (u.afterCcsrWrite_sameRegsBut r rs1 v), fun hrd hspared => ?rd, fun hkept => ?kept,
      fun c h0 hc => ?moved, hceh, hdeh, hcih (State.readAllowed_ne_cih hr), hswitch, hframe⟩
    case content =>
      refine u.afterCcsrWrite_getCcsr rs1 (ccsrNamed_isPlainCcsr hn hcinit hepc) ?_
      rintro rfl
      exact State.isCap_of_ccsrSource_switchCap hsource
    case rd =>
      rw [← hsem, ne_comm] at hspared
      exact (State.afterCcsrWrite_regCell_of_spared r hspared).trans (State.afterCcsrRead_regCell_rd r hrd)
    case kept =>
      rw [← hsem] at hkept
      exact State.sameRegsBut_trans hregs (State.afterCcsrWrite_kept_sameRegsBut r hkept)
    case moved =>
      rw [← hsem]
      exact State.afterCcsrWrite_regCell_moved r h0 hc
  case stops =>
    intro s rd rs1 n r hn hcinit hepc
    refine ⟨fun hr => ?_, fun hr hread => ?_, fun hr hread => ?_, fun hr hread hwrite hsw hne w hint => ?_⟩
    · exact State.combinedCcsr_of_read_fault (State.readCcsr_closed hn hcinit hepc rd hr)
    · exact State.combinedCcsr_of_read_refused (State.readCcsr_unsupplied rd hn hcinit hepc hr hread)
    · exact State.combinedCcsr_write_unsupplied hn hcinit hepc hr hread
    · subst hsw
      have hkept := (State.afterCcsrRead_regCell_of_ne .switchCap hne).trans hint
      exact State.combinedCcsr_source_error hn hcinit hepc hr hread hwrite (State.ccsrSource_switchCap_of_int hkept)
  case cinit =>
    intro s rd rs1 n hn
    obtain ⟨hread, hwrite⟩ := State.ccsr_cinit rd hn
    refine ⟨fun hlater => ?_, fun hfirst hr => ?_, fun hfirst hr => ?_⟩
    · rw [State.combinedCcsr_of_read_next (hread.trans ((State.readCinit_next s s rd).mpr (.inl ⟨hlater, rfl⟩)))]
      exact (State.ccsr_cinit rs1 hn).2
    · rw [State.combinedCcsr_of_read_next (hread.trans (State.readCinit_first rd hfirst hr))]
      refine (State.ccsr_cinit rs1 ?_).2
      simpa using hn
    · exact State.combinedCcsr_of_read_fault (hread.trans (State.readCinit_closed rd hfirst hr))
  case refused =>
    intro s rd rs1 n
    refine ⟨fun hn => ?_, fun hn => ?_⟩
    · exact State.combinedCcsr_of_read_refused (State.ccsr_epc rd hn).1
    · exact State.combinedCcsr_of_read_refused (State.ccsr_unnamed rd hn).1

end Sys2Proof.Machine

/-! SUPPORT. That a step passes on what is true of all capabilities, where that is true of `cnull` and does not look at the cursor, what
a step keeps of memory, and the statements about the premises of a launch and about authority settled from them. -/

namespace Sys2Proof.Machine

open Sys2Proof

/-! # Memory keeps its canonical form -/

/-- Whatever an instruction reaches lies in the address space. -/
theorem reachOf_le {m : Mnemonic} {v : Variant} {a n : Nat} (h : reachOf m v a n = true) : a + n ≤ addrSpace := by
  by_cases hm : m = .ldcr ∨ m = .stcr
  · rw [reachOf_raw hm] at h
    cases v with
    | pure => exact nomatch h
    | hybrid sbase send =>
      have hbase := sbase.isLt
      rcases (mmuReach_hybrid sbase send a n).mp h with hbelow | ⟨-, habove⟩
      · simp only [addrSpace]
        omega
      · exact habove
  · rw [reachOf_not_raw (not_or.mp hm)] at h
    exact capReach_le h

theorem MemEffect.wf {m : Mnemonic} {s : State} {mem : Memory} (h : MemEffect m s mem) (hwf : s.mem.wf) : mem.wf := by
  have haddr : s.sem.addr.toNat < addrSpace := s.sem.addr.isLt
  cases h with
  | unchanged => exact hwf
  | write hn hreach hw => exact Memory.write_wf hwf (by omega) (reachOf_le hreach) hw
  | leave => exact Memory.leave_wf hwf haddr
  | writeCap => exact Memory.writeCap_wf hwf haddr

/-! # A property of all capabilities a program can reach -/

/-- What a step may put in place of a capability that has `P` has `Q`: that capability with any cursor, or `cnull`. -/
structure PassesOn (P Q : Cap → Prop) : Prop where
  cnull : Q cnull
  moved : ∀ (c : Cap) (a : Word), P c → Q { c with cursor := a }

theorem PassesOn.same {P Q : Cap → Prop} (hPQ : PassesOn P Q) {c : Cap} (h : P c) : Q c := hPQ.moved c c.cursor h

/-- Every capability in a general-purpose register, an added register but `cinit`, or memory has the property. -/
structure State.programCaps (P : Cap → Prop) (s : State) : Prop where
  reg : ∀ i c, s.regCell i = some (.cap c) → P c
  ccsr : ∀ r, r ≠ .cinit → ∀ c, s.getCcsr r = .cap c → P c
  mem : ∀ g c, s.mem.capAt g = some c → P c

section Reach
variable {P : Cap → Prop} {s : State}

/-- The CCSRs that can hold a capability, `cinit` left out. -/
theorem State.forall_ccsr_iff : (∀ r, r ≠ .cinit → ∀ c, s.getCcsr r = .cap c → P c) ↔
    ∀ c, s.ceh = .cap c ∨ s.deh = .cap c ∨ s.cih = .cap c ∨ s.epc = .cap c ∨ s.switchCap = c → P c := by
  constructor
  · rintro h c (hc | hc | hc | hc | rfl)
    · exact h .ceh (by decide) c hc
    · exact h .deh (by decide) c hc
    · exact h .cih (by decide) c hc
    · exact h .epc (by decide) c hc
    · exact h .switchCap (by decide) _ rfl
  · intro h r hr c hc
    cases r with
    | ceh | deh | cih | epc =>
      simp only [State.getCcsr] at hc
      exact h c (by simp [hc])
    | switchCap => exact h c (by simp [Cell.cap.inj hc])
    | cinit => exact absurd rfl hr
    | cis | tval | cause | cwrld | normalPc | normalSp | switchReg | exitReg => exact nomatch hc

theorem State.noProgramCap_iff : s.noProgramCap ↔ s.programCaps (fun c => c.valid = false) :=
  ⟨fun ⟨hreg, hccsr, hmem⟩ => ⟨hreg, State.forall_ccsr_iff.mpr hccsr, hmem⟩,
    fun ⟨hreg, hccsr, hmem⟩ => ⟨hreg, State.forall_ccsr_iff.mp hccsr, hmem⟩⟩

/-- What a state holds stands in `pc`, in `cinit`, or where a program can reach it. -/
theorem State.forall_holds_iff :
    (∀ c, s.holds c → P c) ↔ (∀ c, s.pc = .cap c → P c) ∧ P s.cinit ∧ s.programCaps P := by
  constructor
  · intro h
    refine ⟨fun c hc => h c (.inl hc), h _ (by simp [State.holds]), fun i c hc => h c (.inr (.inl ⟨i, hc⟩)),
      State.forall_ccsr_iff.mpr fun c hc => h c ?_, fun g c hc => h c ?_⟩
    · simp only [State.holds]
      tauto
    · have hmem : ∃ g, s.mem.capAt g = some c := ⟨g, hc⟩
      simp [State.holds, hmem]
  · rintro ⟨hpc, hcinit, hreg, hccsr, hmem⟩ c hc
    rw [State.forall_ccsr_iff] at hccsr
    rcases hc with hc | ⟨i, hc⟩ | hc | hc | hc | hc | rfl | hc | ⟨g, hc⟩
    · exact hpc c hc
    · exact hreg i c hc
    · exact hccsr c (.inl hc)
    · exact hccsr c (.inr (.inl hc))
    · exact hccsr c (.inr (.inr (.inl hc)))
    · exact hccsr c (by simp [hc])
    · exact hcinit
    · exact hccsr c (by simp [hc])
    · exact hmem g c hc

/-! ## The operations that write -/

theorem State.programCaps.redraw (h : s.programCaps P) : s.redraw.programCaps P := ⟨h.reg, h.ccsr, h.mem⟩

theorem State.programCaps.writeReg (h : s.programCaps P) (i : RegIdx) {v : Cell} (hv : ∀ c, v = .cap c → P c) :
    (s.writeReg i v).programCaps P := by
  refine ⟨fun j c hc => ?_, fun r hr c hc => ?_, fun g c hc => ?_⟩
  · rw [State.regCell_writeReg] at hc
    split at hc
    · exact hv c (Option.some.inj hc)
    · exact h.reg j c hc
  · exact h.ccsr r hr c (by simpa using hc)
  · exact h.mem g c (by simpa using hc)

theorem State.programCaps.withMem (h : s.programCaps P) {mem : Memory} (hmem : ∀ g c, mem.capAt g = some c → P c) :
    { s with mem := mem }.programCaps P := ⟨h.reg, h.ccsr, hmem⟩

theorem State.programCaps.withPc (h : s.programCaps P) (pc : Cell) : { s with pc := pc }.programCaps P :=
  ⟨h.reg, h.ccsr, h.mem⟩

theorem State.programCaps.withCinitRead (h : s.programCaps P) (b : Bool) : { s with cinitRead := b }.programCaps P :=
  ⟨h.reg, h.ccsr, h.mem⟩

/-- A capability in a CCSR after a write to one is what was written, the `cnull` of `switch_cap` (R48), or was there before. -/
theorem State.getCcsr_setCcsr_cap {r q : AddedReg} {v : Cell} {c : Cap} (h : (s.setCcsr r v).getCcsr q = .cap c) :
    v = .cap c ∨ c = cnull ∨ s.getCcsr q = .cap c := by
  cases q with
  | ceh =>
    simp only [State.getCcsr, State.setCcsr_ceh] at h ⊢
    split at h <;> simp [h]
  | deh =>
    simp only [State.getCcsr, State.setCcsr_deh] at h ⊢
    split at h <;> simp [h]
  | cih =>
    simp only [State.getCcsr, State.setCcsr_cih] at h ⊢
    split at h <;> simp [h]
  | switchCap =>
    simp only [State.getCcsr, State.setCcsr_switchCap, Cell.cap.injEq] at h ⊢
    cases v with
    | int w => split at h <;> simp [h]
    | cap d => split at h <;> simp [h]
  | epc | cinit => exact .inr (.inr (by simpa [State.getCcsr] using h))
  | cis | tval | cause | cwrld | normalPc | normalSp | switchReg | exitReg => exact nomatch h

theorem State.programCaps.passOn (h : s.programCaps P) {Q : Cap → Prop} (hPQ : PassesOn P Q) : s.programCaps Q :=
  ⟨fun i c hc => hPQ.same (h.reg i c hc), fun r hr c hc => hPQ.same (h.ccsr r hr c hc),
    fun g c hc => hPQ.same (h.mem g c hc)⟩

/-- The one operation that makes a new capability of an old one. -/
theorem State.programCaps.moveCursor (h : s.programCaps P) {Q : Cap → Prop} (hPQ : PassesOn P Q) (i : RegIdx)
    (a : Option Word) : (s.moveCursor i a).programCaps Q := by
  unfold State.moveCursor
  split
  · next w c hc =>
    refine (h.passOn hPQ).writeReg i fun d hd => ?_
    cases hd
    exact hPQ.moved c w (h.reg i c hc)
  · exact h.passOn hPQ

theorem State.programCaps.memWriteCap (h : s.programCaps P) (a : Nat) {d : Cap} (hd : P d) (g : Nat) (c : Cap)
    (hc : (s.mem.writeCap a d).capAt g = some c) : P c := by
  rw [Memory.writeCap_capAt] at hc
  split at hc
  · cases hc
    exact hd
  · exact h.mem g c hc

/-! What a move leaves behind is an integer or `cnull` (notes/assumptions/9.md). -/

variable (hnull : P cnull)
include hnull

theorem State.programCaps.leaveReg (h : s.programCaps P) (i : RegIdx) (r : Residue) : (s.leaveReg i r).programCaps P := by
  cases r with
  | kept => exact h
  | int v => exact h.writeReg i fun c hc => nomatch hc
  | null =>
    refine h.writeReg i fun c hc => ?_
    cases hc
    exact hnull

theorem State.programCaps.setCcsr (h : s.programCaps P) (r : AddedReg) {v : Cell} (hv : ∀ c, v = .cap c → P c) :
    (s.setCcsr r v).programCaps P := by
  refine ⟨fun i c hc => h.reg i c (by simpa using hc), fun q hq c hc => ?_, fun g c hc => h.mem g c (by simpa using hc)⟩
  rcases State.getCcsr_setCcsr_cap hc with hval | rfl | hold
  · exact hv c hval
  · exact hnull
  · exact h.ccsr q hq c hold

theorem State.programCaps.leaveCcsr (h : s.programCaps P) (r : AddedReg) (l : Residue) :
    (s.leaveCcsr r l).programCaps P := by
  cases l with
  | kept => exact h
  | int v => exact h.setCcsr hnull r fun c hc => nomatch hc
  | null =>
    refine h.setCcsr hnull r fun c hc => ?_
    cases hc
    exact hnull

theorem State.programCaps.memLeave (h : s.programCaps P) (a : Nat) (r : MemResidue) (g : Nat) (c : Cap)
    (hc : (s.mem.leave a r).capAt g = some c) : P c := by
  rcases Memory.leave_capAt _ _ _ _ _ hc with rfl | hold
  · exact hnull
  · exact h.mem g c hold

/-! ## The operations that read -/

theorem State.programCaps.xcap (h : s.programCaps P) {i : RegIdx} {c : Cap} (hc : s.xcap i = .ok c) : P c := by
  unfold State.xcap at hc
  split at hc
  · cases hc
    exact hnull
  · next d hd =>
    cases hc
    exact h.reg i _ hd
  · cases hc

theorem State.programCaps.content (h : s.programCaps P) {i : RegIdx} {z : Bool} {c : Cap} (hc : s.content i z = .cap c) :
    P c := by
  unfold State.content at hc
  split at hc
  · split at hc
    · cases hc
      exact hnull
    · cases hc
  · next v hv => exact h.reg i c (hc ▸ hv)

theorem State.programCaps.ccsrSource (h : s.programCaps P) {r : AddedReg} {rs1 : RegIdx} {v : Cell}
    (hv : s.ccsrSource r rs1 = .ok v) (c : Cap) (hc : v = .cap c) : P c := by
  subst hc
  unfold State.ccsrSource at hv
  split at hv
  · split at hv
    · cases hv
    · next d hd =>
      cases hv
      exact h.xcap hnull hd
  · exact h.content hnull (Except.ok.inj hv)

end Reach

/-! ## Every instruction passes such a property on -/

section Keeps
variable {P Q : Cap → Prop} {s t : State} {m : Mnemonic} {n : Nat} {ops : OperandForm}

theorem State.programCaps.loaded (h : s.programCaps P) {a : Nat} {c : Cap} (hc : s.mem.readCap a = some c) (d : Cap)
    (hd : Cell.cap c = .cap d) : P d :=
  h.mem _ d (hc.trans (congrArg some (Cell.cap.inj hd)))

variable (hPQ : PassesOn P Q) (h : s.programCaps P)
include hPQ h

theorem State.loadData_programCaps (ht : s.loadData m n ops = .next t) : t.programCaps Q := by
  obtain ⟨-, v, -, rfl⟩ := (State.loadData_next s t m n ops).mp ht
  exact (h.redraw.moveCursor hPQ _ _).writeReg _ fun c hc => nomatch hc

theorem State.storeData_programCaps (ht : s.storeData m n ops = .next t) : t.programCaps Q := by
  obtain ⟨-, v, mem, -, hw, rfl⟩ := (State.storeData_next s t m n ops).mp ht
  exact (h.redraw.moveCursor hPQ _ _).withMem fun g c hc =>
    hPQ.same (h.mem g c ((Memory.write_capAt hw g).symm.trans hc))

theorem State.loadCap_programCaps (ht : s.loadCap m ops = .next t) : t.programCaps Q := by
  obtain ⟨-, -, c, hc, rfl⟩ := (State.loadCap_next s t m ops).mp ht
  have hQ := h.passOn hPQ
  exact ((h.redraw.moveCursor hPQ _ _).writeReg _ (hQ.loaded hc)).withMem (hQ.memLeave hPQ.cnull _ _)

theorem State.storeCap_programCaps (ht : s.storeCap m ops = .next t) : t.programCaps Q := by
  obtain ⟨-, -, c, hc, rfl⟩ := (State.storeCap_next s t m ops).mp ht
  have hQ := h.passOn hPQ
  exact ((h.redraw.moveCursor hPQ _ _).leaveReg hPQ.cnull _ _).withMem (hQ.memWriteCap _ (hQ.xcap hPQ.cnull hc))

theorem State.loadCapRaw_programCaps (ht : s.loadCapRaw m ops = .next t) : t.programCaps Q := by
  obtain ⟨-, -, c, hc, rfl⟩ := (State.loadCapRaw_next s t m ops).mp ht
  have hQ := h.passOn hPQ
  exact (hQ.redraw.writeReg _ (hQ.loaded hc)).withMem (hQ.memLeave hPQ.cnull _ _)

theorem State.storeCapRaw_programCaps (ht : s.storeCapRaw m ops = .next t) : t.programCaps Q := by
  obtain ⟨-, -, c, hc, rfl⟩ := (State.storeCapRaw_next s t m ops).mp ht
  have hQ := h.passOn hPQ
  exact (hQ.redraw.leaveReg hPQ.cnull _ _).withMem (hQ.memWriteCap _ (hQ.xcap hPQ.cnull hc))

theorem State.writeCcsr_programCaps {num : Imm} {rs1 : RegIdx} (ht : s.writeCcsr num rs1 = .next t) :
    t.programCaps Q := by
  have hQ := h.passOn hPQ
  obtain ⟨r, -, ⟨-, rfl⟩ | ⟨-, -, -, -, v, hv, rfl⟩⟩ := (State.writeCcsr_next s t num rs1).mp ht
  · exact hQ
  · exact (hQ.redraw.leaveReg hPQ.cnull _ _).setCcsr hPQ.cnull r (hQ.ccsrSource hPQ.cnull hv)

/-! The first read of `cinit` alone delivers a capability that was out of the program's reach. -/

variable (hcinit : t.cinitRead = true → P s.cinit)
include hcinit

theorem State.readCinit_programCaps {rd : RegIdx} (ht : s.readCinit rd = .next t) : t.programCaps Q := by
  have hQ := h.passOn hPQ
  rcases (State.readCinit_next s t rd).mp ht with ⟨-, rfl⟩ | ⟨-, -, rfl⟩
  · exact hQ
  · exact (hQ.writeReg rd fun c hc => Cell.cap.inj hc ▸ hPQ.same (hcinit rfl)).withCinitRead true

theorem State.readCcsr_programCaps {rd : RegIdx} {num : Imm} (ht : s.readCcsr rd num = .next t) : t.programCaps Q := by
  obtain ⟨r, -, ⟨-, hc⟩ | ⟨hr, -, -, -, rfl⟩⟩ := (State.readCcsr_next s t rd num).mp ht
  · exact State.readCinit_programCaps hPQ h hcinit hc
  · have hQ := h.passOn hPQ
    exact (hQ.redraw.leaveCcsr hPQ.cnull r _).writeReg rd (hQ.ccsr r hr)

/-- Loads, stores and CCSR accesses move capabilities about; a capability comes from outside at the first read of `cinit` only. -/
theorem exec_programCaps {i : Instr} (ht : exec i s = .next t) : t.programCaps Q := by
  cases i with
  | ldd ops | ldw ops | ldh ops | ldb ops => exact State.loadData_programCaps hPQ h ht
  | std ops | stw ops | sth ops | stb ops => exact State.storeData_programCaps hPQ h ht
  | ldc ops => exact State.loadCap_programCaps hPQ h ht
  | stc ops => exact State.storeCap_programCaps hPQ h ht
  | ldcr ops => exact State.loadCapRaw_programCaps hPQ h ht
  | stcr ops => exact State.storeCapRaw_programCaps hPQ h ht
  | ccsrRead rd num => exact State.readCcsr_programCaps hPQ h hcinit ht
  | ccsrReadCinit rd => exact State.readCinit_programCaps hPQ h hcinit ht
  | ccsrWrite num rs1 => exact State.writeCcsr_programCaps hPQ h ht
  | ccsrWriteCinit rs1 =>
    obtain rfl : t = s := (next_eq_next s t).mp ht
    exact h.passOn hPQ

theorem step_programCaps (ht : step s = .next t) : t.programCaps Q := by
  obtain ⟨c, w, i, u, -, -, he, -, rfl⟩ := step_next s t ht
  have hu : u.programCaps Q := exec_programCaps hPQ h hcinit he
  exact hu.withPc _

end Keeps

/-- The same with `pc` and `cinit`: the advance of `pc` moves a cursor, and `cinit` stays (R30, R54). -/
theorem step_holds {P Q : Cap → Prop} {s t : State} (hPQ : PassesOn P Q) (h : ∀ c, s.holds c → P c)
    (ht : step s = .next t) : ∀ c, t.holds c → Q c := by
  obtain ⟨hpc, hcinit, hprog⟩ := State.forall_holds_iff.mp h
  obtain ⟨p, hsp, -, htp, -⟩ := everyStepAdvancesCursorByFour s t ht
  obtain ⟨hkept, -⟩ := cinitIsReadAtMostOnce s t ht
  refine State.forall_holds_iff.mpr ⟨fun c hc => ?_, ?_, step_programCaps hPQ hprog (fun _ => hcinit) ht⟩
  · cases htp.symm.trans hc
    exact hPQ.moved p _ (hpc p hsp)
  · rw [hkept]
    exact hPQ.same hcinit

/-! # Three properties that are passed on -/

theorem passesOn_invalid : PassesOn (fun c => c.valid = false) (fun c => c.valid = false) := ⟨rfl, fun _ _ h => h⟩

theorem passesOn_insideSecure (v : Variant) : PassesOn (fun c => c.insideSecure v) (fun c => c.insideSecure v) := by
  refine ⟨cnull_insideSecure v, fun c a h => ?_⟩
  cases v with
  | pure => trivial
  | hybrid sbase send => exact h

/-- From standing in a state to having the authority of what stood in it (R136). -/
theorem passesOn_authority (s : State) : PassesOn s.holds (fun c => c = cnull ∨ ∃ d, s.holds d ∧ c.sameAuthority d) :=
  ⟨.inl rfl, fun c _ hc => .inr ⟨c, hc, rfl⟩⟩

/-! # Before a program holds a valid capability -/

section NoProgramCap
variable {s t : State}

theorem State.resetWith_noProgramCap (cfg : Config) : (State.resetWith cfg).noProgramCap := by
  obtain ⟨-, -, hcih, -, hcaps, -, hreg, hccsr⟩ := State.resetWith_atReset cfg
  refine ⟨hreg, ?_, fun g c hc => ?_⟩
  · rintro c (hceh | hdeh | hcap | hepc | hswitch)
    · exact hccsr c (.inl hceh)
    · exact hccsr c (.inr (.inl hdeh))
    · simp [hcap, Cell.isCap] at hcih
    · exact hccsr c (.inr (.inr (.inl hepc)))
    · exact hccsr c (.inr (.inr (.inr hswitch)))
  · simp [Memory.capAt, hcaps, assocGet] at hc

variable (hs : s.noProgramCap)
include hs

/-- No register supplies a valid capability, which every access through a capability asks for (notes/assumptions/39.md). -/
theorem State.noProgramCap.capGate_closed (m : Mnemonic) (ops : OperandForm) (n : Nat) : s.capGate m ops n ≠ .ok () := by
  intro hgate
  obtain ⟨-, ⟨c, hc, hvalid⟩, -⟩ := (State.capGate_ok s m ops n).mp hgate
  have hinvalid : c.valid = false := (State.noProgramCap_iff.mp hs).xcap passesOn_invalid.cnull hc
  simp [hvalid] at hinvalid

/-- In the pure variant memory is reached through capabilities alone (R67). -/
theorem State.noProgramCap.exec_mem (hpure : s.cfg.variant = .pure) {i : Instr} (he : exec i s = .next t) :
    t.mem = s.mem := by
  have hclosed := hs.capGate_closed
  have hraw (m : Mnemonic) (ops : OperandForm) : s.mmuGate m ops clenBytes ≠ .ok () := by
    simp [State.mmuGate_unsupplied _ (.inl hpure)]
  cases i with
  | ldd ops | ldw ops | ldh ops | ldb ops => exact State.loadData_mem he
  | std ops | stw ops | sth ops | stb ops =>
    obtain ⟨hgate, -⟩ := (State.storeData_next s t _ _ ops).mp he
    exact absurd hgate (hclosed _ _ _)
  | ldc ops =>
    obtain ⟨hgate, -⟩ := (State.loadCap_next s t _ ops).mp he
    exact absurd hgate (hclosed _ _ _)
  | stc ops =>
    obtain ⟨hgate, -⟩ := (State.storeCap_next s t _ ops).mp he
    exact absurd hgate (hclosed _ _ _)
  | ldcr ops =>
    obtain ⟨hgate, -⟩ := (State.loadCapRaw_next s t _ ops).mp he
    exact absurd hgate (hraw _ _)
  | stcr ops =>
    obtain ⟨hgate, -⟩ := (State.storeCapRaw_next s t _ ops).mp he
    exact absurd hgate (hraw _ _)
  | ccsrRead rd num => exact State.readCcsr_mem he
  | ccsrReadCinit rd => exact State.readCinit_mem he
  | ccsrWrite num rs1 => exact State.writeCcsr_mem he
  | ccsrWriteCinit rs1 => exact congrArg State.mem ((next_eq_next s t).mp he)

theorem State.noProgramCap.step_mem (hpure : s.cfg.variant = .pure) (h : step s = .next t) : t.mem = s.mem := by
  obtain ⟨c, w, i, u, -, -, he, -, rfl⟩ := step_next s t h
  have hu : u.mem = s.mem := hs.exec_mem hpure he
  exact hu

end NoProgramCap

/-! # The statements about the premises of a launch and about authority -/

/-- Settles O43: every effect on memory keeps the canonical form, and the advance of `pc` leaves a capability there. -/
theorem everyStepKeepsWellFormed : Obligations.EveryStepKeepsWellFormed := by
  intro s t ⟨hwf, _⟩ h
  obtain ⟨c, w, i, u, hf, hd, -, -, -⟩ := step_next s t h
  obtain ⟨p, -, -, hpc, -⟩ := everyStepAdvancesCursorByFour s t h
  exact ⟨(step_memEffect hf hd h).wf hwf, fun _ => by rw [hpc]; rfl⟩

/-- Settles O45: the bounds do not look at the cursor, and `cnull` is not valid. -/
theorem everyStepKeepsCapabilitiesInsideSecureMemory : Obligations.EveryStepKeepsCapabilitiesInsideSecureMemory := by
  intro s t hs h
  obtain ⟨hcfg, -⟩ := everyStepKeepsUnnumberedState s t h
  have ht : ∀ c, t.holds c → c.insideSecure s.cfg.variant := step_holds (passesOn_insideSecure _) hs h
  rw [State.secureCaps, hcfg]
  exact ht

/-- Settles O47: what stood in the state is passed on as what has its authority. -/
theorem noStepMakesAuthority : Obligations.NoStepMakesAuthority := fun s _ c h hc =>
  step_holds (passesOn_authority s) (fun _ hd => hd) h c hc

/-- Settles O48: the reset state, the step invariant and the closed gate, part by part. -/
theorem noProgramCapabilityBeforeCinitRead : Obligations.NoProgramCapabilityBeforeCinitRead := by
  refine ⟨State.resetWith_noProgramCap, fun s t hs h hunread => ⟨?_, fun hpure => ?_⟩, fun x hx s t ops hs h => ?_⟩
  · have hcinit : t.cinitRead = true → s.cinit.valid = false := fun hread => by simp [hunread] at hread
    exact State.noProgramCap_iff.mpr (step_programCaps passesOn_invalid (State.noProgramCap_iff.mp hs) hcinit h)
  · exact State.sameMemory_of_mem_eq (hs.step_mem hpure h)
  · exact hs.capGate_closed _ _ _ (capInstr_capGate hx h)

end Sys2Proof.Machine
